-- ==== Sys2Proof/Word.lean ====
section
/-! DEFINITION. The words WSIO-MAP handles (R7, R24, R43) and the group of eight channels of a bank (R9, R60). -/

namespace Sys2Proof

/-- One word of a command: a header or a payload word (R43). -/
abbrev Word := BitVec 32

/-- A 16-bit unit of a HOLDING or INPUT space, and operand field B (R22, R45). -/
abbrev Half := BitVec 16

/-- An 8-bit quantity: operand field A, a packed bank word, the device tag (R11, R45, R61). -/
abbrev Byte := BitVec 8

/-- An address: 16 bits in every space, counting units (R24). -/
abbrev Addr := BitVec 16

/-- The bit pattern of an IEEE 754 binary64 value (R49, R70). -/
abbrev Binary64 := BitVec 64

/-- A value of F, the engineering values of NUM, whichever NUM an instance is built with (R6, R65). -/
inductive EngValue where
  /-- F of the decided instance: binary64 (R70). -/
  | float (p : Binary64)
  /-- F of the exact instance: the rationals. -/
  | rational (q : Rat)
  /-- F of any other record: its values by their codes. -/
  | code (n : Nat)
deriving DecidableEq, Repr

/-- Eight things, one per channel of a bank, channel 0 first (R9 "Bank", R60). -/
structure Oct (α : Type) where
  ch0 : α
  ch1 : α
  ch2 : α
  ch3 : α
  ch4 : α
  ch5 : α
  ch6 : α
  ch7 : α
deriving DecidableEq, Repr

/-- The eight elements as a sequence, element `i` for channel `i` (R37). -/
def Oct.toList {α : Type} (o : Oct α) : List α :=
  [o.ch0, o.ch1, o.ch2, o.ch3, o.ch4, o.ch5, o.ch6, o.ch7]

/-- Apply a function to every channel. -/
def Oct.map {α β : Type} (f : α → β) (o : Oct α) : Oct β :=
  ⟨f o.ch0, f o.ch1, f o.ch2, f o.ch3, f o.ch4, f o.ch5, f o.ch6, f o.ch7⟩

/-- The same thing on every channel. -/
def Oct.replicate {α : Type} (x : α) : Oct α := ⟨x, x, x, x, x, x, x, x⟩

/-- The bank record ⟨ch0, …, ch7⟩ of eight booleans (R60). -/
abbrev Bank := Oct Bool

end Sys2Proof
end

