-- ==== Sys2Proof/Config.lean ====
section
/-! DEFINITION. The implementation parameters of R6: the strap, the descriptors, the construction defaults and the
enumeration codes. A value the spec leaves open is an opaque constant: nothing in Lean can evaluate it. -/

namespace Sys2Proof

/-- The four families, the values of the strap FAMILY (R2, R12). -/
inductive Family where
  | dio
  | rly
  | ai
  | ao
deriving DecidableEq, Repr, Inhabited

/-- A base that is used with a channel offset. The constraint of R6 and R31, base + 7 ≤ 0xFFFF, is the bound
of the type: the base is 0 to 0xFFF8. -/
abbrev ChannelBase := Fin 65529

/-- A channel base as the 16-bit address it is. -/
def ChannelBase.addr (b : ChannelBase) : Addr := BitVec.ofNat 16 b.val

/-- A device address as a parameter: 8 bits, 1 to 255 (R6, R11). -/
abbrev DeviceAddress := Subtype (fun t : Byte => t ≠ 0)

/-- The numerics record NUM an instance is built with (R6, R65), with the size of the representation of F in words that
R49 leaves to a model with another NUM than binary64. -/
inductive Numerics where
  /-- The decided instance, IEEE 754 binary64; a value is two words (R49, R70, D17). -/
  | binary64
  /-- The exact instance, F the rationals (R65). A value is written as its numerator and its denominator, `words` words
  each. -/
  | exact (words : Nat)
  /-- Any other record, given as data. F has the codes that `words` words can carry. `div1000` lists the results for
  raw = 0, 1, …, code 0 where the list ends; `mul1000Trunc` lists the codes with a result, each with its result. -/
  | record (words : Nat) (div1000 : List Nat) (mul1000Trunc : List (Nat × Int))
deriving DecidableEq, Repr, Inhabited

/-- The descriptor of the digital I/O family (R6, R13). -/
structure DioDescriptor where
  /-- First output coil, and first control-mode holding register (R34). -/
  outputChannelBase : ChannelBase
  /-- First discrete input. -/
  inputChannelsBase : ChannelBase
  /-- Named by the descriptor list, used by no command (R13, C11). -/
  controlModeBase : Addr
  uartParametersBase : Addr
  deviceAddressBase : Addr
  softwareVersionBase : Addr
deriving DecidableEq, Repr

/-- The descriptor of the relay family (R6, R13, R85). -/
structure RlyDescriptor where
  /-- First relay coil, read and written. -/
  outputChannelBase : ChannelBase
  uartParametersBase : Addr
  deviceAddressBase : Addr
  softwareVersionBase : Addr
deriving DecidableEq, Repr

/-- The descriptor of the analog input family (R6, R13). -/
structure AiDescriptor where
  /-- First input register. -/
  inputChannelsBase : ChannelBase
  /-- First channel-type holding register. -/
  channelTypesBase : ChannelBase
  uartParametersBase : Addr
  deviceAddressBase : Addr
  softwareVersionBase : Addr
deriving DecidableEq, Repr

/-- The descriptor of the analog output family (R6, R13). -/
structure AoDescriptor where
  /-- First output holding register. -/
  outputsBase : ChannelBase
  uartParametersBase : Addr
  deviceAddressBase : Addr
  softwareVersionBase : Addr
deriving DecidableEq, Repr

/-- What an instance is built with: fixed before reset and changed by nothing (R12, R13, R14, R117). -/
structure Build where
  /-- FAMILY, the personality strap (R12). -/
  family : Family
  /-- DEFAULT_TAG, 1 to 255 (R6, R11). -/
  defaultTag : DeviceAddress
  /-- BAUD_CFG, carried and read by no rule (R14). -/
  baudCfg : Nat
  dio : DioDescriptor
  rly : RlyDescriptor
  ai : AiDescriptor
  ao : AoDescriptor
  /-- NUM: the type F of the engineering values and its two operations (R6, R65). -/
  num : Numerics
deriving DecidableEq, Repr

/-- The strap of the instance; per instance, no value in the spec (R6, R12). -/
opaque Config.family : Family

/-- DEFAULT_TAG: "optional device address (default 1)" (R6). -/
def Config.defaultTag : DeviceAddress := ⟨1, by decide⟩

/-- BAUD_CFG: "baud rate (default 9600)" (R6, R14). -/
def Config.baudCfg : Nat := 9600

/-- NUM: the decided instance (R65, D17). -/
def Config.num : Numerics := .binary64

opaque Config.dioOutputChannelBase : ChannelBase
opaque Config.dioInputChannelsBase : ChannelBase
opaque Config.dioControlModeBase : Addr
opaque Config.dioUartParametersBase : Addr
opaque Config.dioDeviceAddressBase : Addr
opaque Config.dioSoftwareVersionBase : Addr
opaque Config.rlyOutputChannelBase : ChannelBase
opaque Config.rlyUartParametersBase : Addr
opaque Config.rlyDeviceAddressBase : Addr
opaque Config.rlySoftwareVersionBase : Addr
opaque Config.aiInputChannelsBase : ChannelBase
opaque Config.aiChannelTypesBase : ChannelBase
opaque Config.aiUartParametersBase : Addr
opaque Config.aiDeviceAddressBase : Addr
opaque Config.aiSoftwareVersionBase : Addr
opaque Config.aoOutputsBase : ChannelBase
opaque Config.aoUartParametersBase : Addr
opaque Config.aoDeviceAddressBase : Addr
opaque Config.aoSoftwareVersionBase : Addr

/-- The parameters of the instance that `State.reset` describes: the source's two values, the decided NUM, and every
open one an opaque constant (R6). -/
def Config.built : Build where
  family := Config.family
  defaultTag := Config.defaultTag
  baudCfg := Config.baudCfg
  dio := ⟨Config.dioOutputChannelBase, Config.dioInputChannelsBase, Config.dioControlModeBase,
    Config.dioUartParametersBase, Config.dioDeviceAddressBase, Config.dioSoftwareVersionBase⟩
  rly := ⟨Config.rlyOutputChannelBase, Config.rlyUartParametersBase, Config.rlyDeviceAddressBase,
    Config.rlySoftwareVersionBase⟩
  ai := ⟨Config.aiInputChannelsBase, Config.aiChannelTypesBase, Config.aiUartParametersBase,
    Config.aiDeviceAddressBase, Config.aiSoftwareVersionBase⟩
  ao := ⟨Config.aoOutputsBase, Config.aoUartParametersBase, Config.aoDeviceAddressBase,
    Config.aoSoftwareVersionBase⟩
  num := Config.num

/-- The three control modes (R82). -/
inductive ControlMode where
  | command
  | linked
  | flip
deriving DecidableEq, Repr

/-- The five channel types (R91). -/
inductive ChannelType where
  | v0to10
  | v2to10
  | i0to20
  | i4to20
  | raw
deriving DecidableEq, Repr

/-- The place of a control mode in the list of R82. -/
def ControlMode.index : ControlMode → Half
  | .command => 0
  | .linked => 1
  | .flip => 2

/-- The place of a channel type in the list of R91. -/
def ChannelType.index : ChannelType → Half
  | .v0to10 => 0
  | .v2to10 => 1
  | .i0to20 => 2
  | .i4to20 => 3
  | .raw => 4

/-- An arbitrary arrangement of the 16-bit codes, from which MODE_CODE_* are taken, so that they are pairwise different
and nothing else is known of them (R82). -/
opaque Config.modeCodes : Equiv.Perm Half

/-- An arbitrary arrangement of the 16-bit codes, from which TYPE_CODE_* are taken, so that they are pairwise different
and nothing else is known of them (R91). -/
opaque Config.typeCodes : Equiv.Perm Half

/-- MODE_CODE_*: three different codes without values in the spec; no rule of the block reads them (R72, R82, D31). -/
def Config.modeCode (m : ControlMode) : Half := Config.modeCodes m.index

/-- TYPE_CODE_*: five different codes without values in the spec; no rule of the block reads them (R72, R91, D31). -/
def Config.typeCode (t : ChannelType) : Half := Config.typeCodes t.index

/-- BAUD_CODE_*, by line rate: no values in the spec (R6, R72, D31). -/
opaque Config.baudCode : Nat → Half

/-- PARITY_CODE_*, by the number of the parity setting: no values in the spec (R6, R72, D31). -/
opaque Config.parityCode : Nat → Byte

/-- MODE_CODE_* are pairwise different (R82). It holds: `Config.modeCode_differ`. -/
def Config.modeCodesDiffer : Prop := ∀ m n : ControlMode, Config.modeCode m = Config.modeCode n → m = n

/-- TYPE_CODE_* are pairwise different (R91). It holds: `Config.typeCode_differ`. -/
def Config.typeCodesDiffer : Prop := ∀ m n : ChannelType, Config.typeCode m = Config.typeCode n → m = n

end Sys2Proof
end

