-- ==== Sys2Proof/Syntax.lean ====
section
/-! DEFINITION. The 23 commands of R46 with the operands each has. The five common commands stand once: their FAM is
the strap of the instance they run on (R44, R51), not an operand. -/

namespace Sys2Proof

/-- An Action, the tri-state value of a coil write (R58). -/
inductive Action where
  | on
  | off
  | flip
deriving DecidableEq, Repr

/-- The commands, in the order of R46. -/
inductive Instr where
  /-- CONNECT (R74). -/
  | connect
  /-- SETTAG tag (R75). -/
  | settag (tag : Half)
  /-- SETADDR address (R76). -/
  | setaddr (address : Half)
  /-- SETUART baud, parity (R77). -/
  | setuart (baud : Half) (parity : Byte)
  /-- RDVER (R78). -/
  | rdver
  /-- DIO.SETCH channel, on (R79). -/
  | dioSetch (channel : Byte) (on : Bool)
  /-- DIO.SETCHS start, [a0, …] (R80). -/
  | dioSetchs (start : Byte) (actions : List Action)
  /-- DIO.SETMODE channel, mode (R81). -/
  | dioSetmode (channel : Byte) (mode : Half)
  /-- DIO.RDCHS (R83). -/
  | dioRdchs
  /-- DIO.RDOUT (R84). -/
  | dioRdout
  /-- RLY.SETCH channel, on (R86). -/
  | rlySetch (channel : Byte) (on : Bool)
  /-- RLY.SETCHS start, [a0, …] (R87). -/
  | rlySetchs (start : Byte) (actions : List Action)
  /-- RLY.RDCHS (R88). -/
  | rlyRdchs
  /-- RLY.OPEN channel (R89). -/
  | rlyOpen (channel : Byte)
  /-- RLY.CLOSE channel (R90). -/
  | rlyClose (channel : Byte)
  /-- AI.SETTYPE channel, type (R92). -/
  | aiSettype (channel : Byte) (type : Half)
  /-- AI.SETTYPES [t0, …, t7] (R93). -/
  | aiSettypes (types : Oct Half)
  /-- AI.GETTYPES (R94). -/
  | aiGettypes
  /-- AI.RDCH channel (R95). -/
  | aiRdch (channel : Byte)
  /-- AI.RDCHS (R96). -/
  | aiRdchs
  /-- AO.SETCH channel, value (R97). -/
  | aoSetch (channel : Byte) (value : EngValue)
  /-- AO.SETCHS [v0, …, v7] (R98). -/
  | aoSetchs (values : Oct EngValue)
  /-- AO.GETVALS (R99). -/
  | aoGetvals
deriving DecidableEq, Repr

/-- The family a command belongs to; none for the five common ones, which every instance has (R44, R73). -/
def Instr.family : Instr → Option Family
  | .connect => none
  | .settag _ => none
  | .setaddr _ => none
  | .setuart _ _ => none
  | .rdver => none
  | .dioSetch _ _ => some .dio
  | .dioSetchs _ _ => some .dio
  | .dioSetmode _ _ => some .dio
  | .dioRdchs => some .dio
  | .dioRdout => some .dio
  | .rlySetch _ _ => some .rly
  | .rlySetchs _ _ => some .rly
  | .rlyRdchs => some .rly
  | .rlyOpen _ => some .rly
  | .rlyClose _ => some .rly
  | .aiSettype _ _ => some .ai
  | .aiSettypes _ => some .ai
  | .aiGettypes => some .ai
  | .aiRdch _ => some .ai
  | .aiRdchs => some .ai
  | .aoSetch _ _ => some .ao
  | .aoSetchs _ => some .ao
  | .aoGetvals => some .ao

end Sys2Proof
end

