-- ==== Sys2Proof/Machine/Operands.lean ====
section
/-! DEFINITION. The pure functions commands compute with: codes, Action patterns, the UART word, the bit-bank codec,
the register-address mapper and its bounds (R30 to R34, R37, R45, R58 to R64, R71). -/

namespace Sys2Proof.Machine

/-- The 2-bit code of a family, in the strap and in FAM (R12, R44). -/
def familyCode : Family → BitVec 2
  | .dio => 0
  | .rly => 1
  | .ai => 2
  | .ao => 3

/-- The family of a 2-bit code; all four codes are used (R44). -/
def familyOfCode (c : BitVec 2) : Family :=
  match c.toNat with
  | 0 => .dio
  | 1 => .rly
  | 2 => .ai
  | _ => .ao

/-- The 16-bit pattern of an Action (R58). -/
def actionPattern : Action → Half
  | .on => 0xFF00
  | .off => 0x0000
  | .flip => 0x5500

/-- The Action of a pattern; a fourth pattern is none (R53, R58). -/
def actionOfPattern (p : Half) : Option Action :=
  if p = 0xFF00 then some .on
  else if p = 0x0000 then some .off
  else if p = 0x5500 then some .flip
  else none

/-- `action_of_bool`: true is On, false is Off (R58). -/
def actionOfBool (b : Bool) : Half := if b then 0xFF00 else 0x0000

/-- `uart_word`: (parity << 16) | baud (R59). -/
def uartWord (baud : Half) (parity : Byte) : Word :=
  (parity.setWidth 32 <<< 16) ||| baud.setWidth 32

/-- Eight elements of a sequence, element `i` for channel `i` (R37); `d` stands for one that is missing, which a
read answer that was accepted never is (R29). -/
def octOfList {α : Type} (d : α) (l : List α) : Oct α :=
  ⟨l.getD 0 d, l.getD 1 d, l.getD 2 d, l.getD 3 d, l.getD 4 d, l.getD 5 d, l.getD 6 d, l.getD 7 d⟩

/-- Exactly eight elements as one per channel; none for another length. -/
def octOfList? {α : Type} : List α → Option (Oct α)
  | [a, b, c, d, e, f, g, h] => some ⟨a, b, c, d, e, f, g, h⟩
  | _ => none

/-- `decode`: channel `i` is true iff bit `i` of the word is set (R61). -/
def decodeBank (w : Byte) : Bank :=
  ⟨w.getLsbD 0, w.getLsbD 1, w.getLsbD 2, w.getLsbD 3, w.getLsbD 4, w.getLsbD 5, w.getLsbD 6, w.getLsbD 7⟩

/-- The weight of bit `i` if it is set (R62, R63). -/
def bitWeight (b : Bool) (i : Nat) : Nat := if b then 2 ^ i else 0

/-- `encode`: the sum of 2^i over the true channels (R62). -/
def encodeBank (r : Bank) : Byte :=
  BitVec.ofNat 8 (bitWeight r.ch0 0 + bitWeight r.ch1 1 + bitWeight r.ch2 2 + bitWeight r.ch3 3 +
    bitWeight r.ch4 4 + bitWeight r.ch5 5 + bitWeight r.ch6 6 + bitWeight r.ch7 7)

/-- The weighted sum of a bit sequence whose first element has weight 2^i (R63). -/
def packFrom (i : Nat) : List Bool → Nat
  | [] => 0
  | b :: bs => bitWeight b i + packFrom (i + 1) bs

/-- `pack`: element `i` of the sequence becomes bit `i` (R63). -/
def packBits (s : List Bool) : Byte := BitVec.ofNat 8 (packFrom 0 s)

/-- `unpack`: bit `i` becomes element `i` (R63). -/
def unpackBits (w : Byte) : List Bool := (decodeBank w).toList

/-- The register-address mapper: `base + offset`, no scaling and no indirection (R30). With a channel base and an
offset of at most 7 the sum does not wrap (R31). -/
def mapAddr (base : Addr) (offset : Nat) : Addr := base + BitVec.ofNat 16 offset

/-- `chk_channel`: the channel is legal iff it is at most 7 (R32). -/
def channelOk (c : Byte) : Bool := c.toNat ≤ 7

/-- `chk_batch`: every `s + k` with `k < n` is at most 7, the sum taken in the naturals (R33). -/
def batchOk (s : Byte) (n : Nat) : Bool := (List.range n).all (fun k => s.toNat + k ≤ 7)

/-- DeviceAddressBase of the instance's own family (R8 `Base(name)`, R13, R76). -/
def deviceAddressBase (b : Build) : Addr :=
  match b.family with
  | .dio => b.dio.deviceAddressBase
  | .rly => b.rly.deviceAddressBase
  | .ai => b.ai.deviceAddressBase
  | .ao => b.ao.deviceAddressBase

/-- UartParametersBase of the instance's own family (R8, R13, R77). -/
def uartParametersBase (b : Build) : Addr :=
  match b.family with
  | .dio => b.dio.uartParametersBase
  | .rly => b.rly.uartParametersBase
  | .ai => b.ai.uartParametersBase
  | .ao => b.ao.uartParametersBase

/-- SoftwareVersionBase of the instance's own family (R8, R13, R78). -/
def softwareVersionBase (b : Build) : Addr :=
  match b.family with
  | .dio => b.dio.softwareVersionBase
  | .rly => b.rly.softwareVersionBase
  | .ai => b.ai.softwareVersionBase
  | .ao => b.ao.softwareVersionBase

/-- A binary64 value as two words, the low word first (R49). -/
def wordsOfBinary64 (v : Binary64) : List Word := [v.extractLsb' 0 32, v.extractLsb' 32 32]

/-- The binary64 value of its low and its high word (R49). -/
def binary64OfWords (lo hi : Word) : Binary64 := hi ++ lo

/-- The `w` low words of a natural number, the low word first. -/
def wordsOfNat : Nat → Nat → List Word
  | 0, _ => []
  | w + 1, n => BitVec.ofNat 32 n :: wordsOfNat w (n / 2 ^ 32)

/-- The natural number of its words, the low word first. -/
def natOfWords : List Word → Nat
  | [] => 0
  | x :: xs => x.toNat + 2 ^ 32 * natOfWords xs

/-- How many payload words a value of F has: two in binary64, as many as the representation chosen in another NUM (R47,
R49). -/
def valueWords : Numerics → Nat
  | .binary64 => 2
  | .exact w => 2 * w
  | .record w _ _ => w

/-- The value is one of F, and its words can carry it (R49, R65). -/
def valueFits (num : Numerics) (v : EngValue) : Bool :=
  match num, v with
  | .binary64, .float _ => true
  | .exact w, .rational q => (BitVec.ofInt (32 * w) q.num).toInt == q.num && q.den < 2 ^ (32 * w)
  | .record w _ _, .code n => n < 2 ^ (32 * w)
  | _, _ => false

/-- A value of F as words (R49): binary64 low word first; a rational as its numerator in two's complement, then its
denominator, a code as it is, each low word first. What is no value of F has no words. -/
def wordsOfValue (num : Numerics) (v : EngValue) : List Word :=
  match num, v with
  | .binary64, .float p => wordsOfBinary64 p
  | .exact w, .rational q => wordsOfNat w (BitVec.ofInt (32 * w) q.num).toNat ++ wordsOfNat w q.den
  | .record w _ _, .code n => wordsOfNat w n
  | _, _ => []

/-- The rational number of a numerator and a denominator in lowest terms; none for others, so that no value has two
spellings. -/
def rationalOfParts (n : Int) (d : Nat) : Option Rat :=
  if h : d ≠ 0 ∧ n.natAbs.Coprime d then some ⟨n, d, h.1, h.2⟩ else none

/-- The value of F that words carry (R49); none where they carry none, which in binary64 does not happen. -/
def valueOfWords (num : Numerics) (ws : List Word) : Option EngValue :=
  match num with
  | .binary64 =>
    match ws with
    | [lo, hi] => some (.float (binary64OfWords lo hi))
    | _ => none
  | .exact w =>
    (rationalOfParts (BitVec.ofNat (32 * w) (natOfWords (ws.take w))).toInt (natOfWords (ws.drop w))).map .rational
  | .record _ _ _ => some (.code (natOfWords ws))

/-- The bank record of an 8-bit read: `decode(pack(s))` (R83, R84, R88). -/
def bankOfBits (s : List Bool) : Bank := decodeBank (packBits s)

end Sys2Proof.Machine
end

