-- ==== Sys2Proof/Machine/Scaler.lean ====
section
/-! DEFINITION. The analog scaler (R65 to R70): the numerics record NUM, the codec over it, the decided instance IEEE
754 binary64 with round to nearest, ties to even, and the exact instance over the rationals. All binary64 arithmetic
is done on natural numbers: a value is computed exactly, then rounded once. -/

namespace Sys2Proof.Machine

/-- The numerics parameter NUM over a type `F` of engineering values (R65). -/
structure Num (F : Type) where
  /-- The source's `raw / 1000.0`. -/
  div1000 : Half → F
  /-- The source's `truncate(value * 1000.0)`; none where that is undefined. -/
  mul1000Trunc : F → Option Int

/-- `to_engineering` (R66). -/
def toEngineering {F : Type} (num : Num F) (raw : Half) : F := num.div1000 raw

/-- `to_raw`: the truncated product if it is 0 to 65535; none outside the domain (R67, R68). -/
def toRaw {F : Type} (num : Num F) (value : F) : Option Half :=
  match num.mul1000Trunc value with
  | none => none
  | some t => if 0 ≤ t ∧ t ≤ 65535 then some (BitVec.ofNat 16 t.toNat) else none

/-- The natural number nearest to n / d, ties to even. -/
def roundNearestEven (n d : Nat) : Nat :=
  let q := n / d
  let r := n % d
  if 2 * r < d then q
  else if d < 2 * r then q + 1
  else q + q % 2

/-- The binary64 number nearest to raw / 1000, ties to even (R70). With `l` the position of the top bit of
raw · 2^64 / 1000, the quotient lies in [2^(l−64), 2^(l−63)), always a normal number; its 53-bit significand is
raw · 2^(116−l) / 1000 rounded, and the biased exponent is l − 64 + 1023. Adding the significand with its leading one
to the exponent field one lower lets a carry of the rounding run into the exponent. -/
def binary64Div1000 (raw : Half) : Binary64 :=
  if raw = 0 then 0
  else
    let l := Nat.log2 (raw.toNat * 2 ^ 64 / 1000)
    BitVec.ofNat 64 ((l + 958) * 2 ^ 52 + roundNearestEven (raw.toNat * 2 ^ (116 - l)) 1000)

/-- Sign, p[63] (R49). -/
def binary64Sign (v : Binary64) : Bool := v.getLsbD 63

/-- Biased exponent, p[62:52] (R49). -/
def binary64Exponent (v : Binary64) : Nat := (v.extractLsb' 52 11).toNat

/-- Fraction, p[51:0] (R49). -/
def binary64Fraction (v : Binary64) : Nat := (v.extractLsb' 0 52).toNat

/-- The significand of a finite value: the value's magnitude is significand · 2^(scale − 1075). -/
def binary64Significand (v : Binary64) : Nat :=
  if binary64Exponent v = 0 then binary64Fraction v else 2 ^ 52 + binary64Fraction v

/-- The scale of a finite value; a subnormal has the scale of the smallest normal. -/
def binary64Scale (v : Binary64) : Nat := if binary64Exponent v = 0 then 1 else binary64Exponent v

/-- How many low bits a product `m` loses when it is rounded to 53 significant bits. -/
def excessBits (m : Nat) : Nat := if m < 2 ^ 53 then 0 else Nat.log2 m - 52

/-- The magnitude of the real product x · 1000 rounded to binary64, as significand and scale. -/
def binary64Product1000 (v : Binary64) : Nat × Nat :=
  let m := binary64Significand v * 1000
  (roundNearestEven m (2 ^ excessBits m), binary64Scale v + excessBits m)

/-- m · 2^(scale − 1075) with its fractional part dropped. -/
def truncScaled (m scale : Nat) : Nat :=
  if 1075 ≤ scale then m <<< (scale - 1075) else m >>> (1075 - scale)

/-- `mul1000_trunc` of the binary64 instance: none for NaN, an infinity and a product that overflows, that is one
whose rounded magnitude m · 2^(scale − 1075) is 2^1024 or more (2099 is 1024 + 1075); otherwise the rounded product
truncated toward zero (R70). -/
def binary64Mul1000Trunc (v : Binary64) : Option Int :=
  if binary64Exponent v = 2047 then none
  else
    let p := binary64Product1000 v
    if 2099 ≤ Nat.log2 p.1 + p.2 then none
    else
      let t := truncScaled p.1 p.2
      some (if binary64Sign v then -(t : Int) else (t : Int))

/-- The decided instance of NUM, IEEE 754 binary64 (R65, R70, D17). -/
def binary64 : Num Binary64 where
  div1000 := binary64Div1000
  mul1000Trunc := binary64Mul1000Trunc

/-- The exact instance of NUM, over the rationals: the reference of R65 and R69. -/
def exactRational : Num Rat where
  div1000 raw := (raw.toNat : Rat) / 1000
  mul1000Trunc x := some (Int.tdiv (1000 * x).num (1000 * x).den)

/-- The instance of NUM that lists give, over the codes of `w` words (R65). -/
def listed (w : Nat) (div : List Nat) (trunc : List (Nat × Int)) : Num (BitVec (32 * w)) where
  div1000 raw := BitVec.ofNat (32 * w) (div.getD raw.toNat 0)
  mul1000Trunc v := trunc.lookup v.toNat

/-- A numerics record over `F` as one over the values of every NUM: `put` is how a value of `F` stands among them, `get`
takes it out again. What is no value of `F` has no product. -/
def Num.among {F : Type} (num : Num F) (put : F → EngValue) (get : EngValue → Option F) : Num EngValue where
  div1000 raw := put (num.div1000 raw)
  mul1000Trunc v := (get v).bind num.mul1000Trunc

/-- The binary64 value, if it is one. -/
def EngValue.float? : EngValue → Option Binary64
  | .float p => some p
  | _ => none

/-- The rational number, if it is one. -/
def EngValue.rational? : EngValue → Option Rat
  | .rational q => some q
  | _ => none

/-- The code, if it is one of `w` words. -/
def EngValue.code? (w : Nat) : EngValue → Option (BitVec (32 * w))
  | .code n => if n < 2 ^ (32 * w) then some (BitVec.ofNat (32 * w) n) else none
  | _ => none

/-- The numerics record an instance is built with (R6, R65). -/
def numOf (n : Numerics) : Num EngValue :=
  match n with
  | .binary64 => binary64.among .float EngValue.float?
  | .exact _ => exactRational.among .rational EngValue.rational?
  | .record w div trunc => (listed w div trunc).among (fun v => .code v.toNat) (EngValue.code? w)

/-- The rational number a finite binary64 value is: what the two instances are compared at (R67, R69 P6). -/
def binary64ToRat (v : Binary64) : Rat :=
  let m : Rat := (binary64Significand v : Rat) * 2 ^ binary64Scale v / 2 ^ 1075
  if binary64Sign v then -m else m

/-- A finite value, neither NaN nor an infinity. -/
def binary64Finite (v : Binary64) : Bool := binary64Exponent v ≠ 2047

end Sys2Proof.Machine
end

