-- ==== Sys2Proof/WellFormed.lean ====
section
/-! DEFINITION. Which terms of `Instr` the encoding can write on an instance of a given strap and NUM: the family
matches (R51), a batch has at most 255 elements, the range of B[7:0] (R45, R47), and an engineering value is one of F
that its words can carry (R47, R49, R65). Every other operand is in range by its type (R45, R47). -/

namespace Sys2Proof

open Sys2Proof.Machine

/-- The command exists on an instance strapped `strap` (R51). -/
def Instr.familyMatches (strap : Family) (i : Instr) : Bool :=
  match i.family with
  | none => true
  | some f => f == strap

/-- The element count fits B[7:0] (R47). -/
def Instr.batchFits : Instr → Bool
  | .dioSetchs _ actions => actions.length ≤ 255
  | .rlySetchs _ actions => actions.length ≤ 255
  | _ => true

/-- The engineering values are values of F that the words of the command can carry (R47, R49, R65). -/
def Instr.valuesFit (num : Numerics) : Instr → Bool
  | .aoSetch _ value => valueFits num value
  | .aoSetchs values => values.toList.all (valueFits num)
  | _ => true

/-- All three checks. -/
def Instr.wellFormed (num : Numerics) (strap : Family) (i : Instr) : Bool :=
  i.familyMatches strap && i.batchFits && i.valuesFit num

end Sys2Proof
end

