-- ==== Sys2Proof/Decode.lean ====
section
/-! DEFINITION. The command encoding of R43 to R54, decoder and encoder. Decoding is total; each way to be illegal has
its name. `decodeTableWord` and `tableWords` read a word numbered as spec/opcode_table.json numbers it. -/

namespace Sys2Proof

open Sys2Proof.Machine

/-- The header fields (R43). -/
structure Header where
  /-- FAM = H[31:30] (R44). -/
  fam : Family
  /-- OP = H[29:24]. -/
  op : BitVec 6
  /-- A = H[23:16]. -/
  a : Byte
  /-- B = H[15:0]. -/
  b : Half
deriving DecidableEq, Repr

/-- Why a header and its payload are illegal (R50 to R53). Every one gives the status IllegalCommand (R106). -/
inductive Illegal where
  /-- Not `paylen(H)` payload words; `fetchCommand` never hands such a list over (R48). -/
  | payloadCount
  /-- FAM differs from the strap (R51). -/
  | familyMismatch
  /-- No row of R46 has this FAM and OP (R52). -/
  | undefinedOpcode
  /-- A header field shown as 0 in R46 is not zero (R50). -/
  | reservedHeaderField
  /-- Bits 31:16 of a payload word of SETCHS or AI.SETTYPES are not zero (R50). -/
  | reservedPayloadBits
  /-- Bits 15:0 of a SETCHS payload word are no Action (R53). -/
  | notAnAction
  /-- The words of an engineering value carry no value of F; in binary64 every two words carry one (R49). -/
  | notAValue
deriving DecidableEq, Repr

/-- The verdict of the decoder (R54). -/
inductive Decoded where
  | legal (i : Instr)
  | illegal (why : Illegal)
deriving DecidableEq, Repr

/-- The fields of a header word (R43). -/
def headerOf (h : Word) : Header where
  fam := familyOfCode (h.extractLsb' 30 2)
  op := h.extractLsb' 24 6
  a := h.extractLsb' 16 8
  b := h.extractLsb' 0 16

/-- The header word of its fields (R43). -/
def headerWord (h : Header) : Word :=
  familyCode h.fam ++ h.op ++ h.a ++ h.b

/-- `paylen(H)`: from FAM and OP only, before any legality check (R48); the words of a value are those of the NUM
(R49). -/
def paylen (num : Numerics) (h : Word) : Nat :=
  let f := headerOf h
  match f.fam, f.op.toNat with
  | .dio, 0x11 => (f.b.extractLsb' 0 8).toNat
  | .rly, 0x11 => (f.b.extractLsb' 0 8).toNat
  | .ai, 0x11 => 8
  | .ao, 0x10 => valueWords num
  | .ao, 0x11 => 8 * valueWords num
  | _, _ => 0

/-- Cut one command from the words the requester has presented: the header, its `paylen(H)` payload words, and the
words after it; none while they are not all there (R43, R48). -/
def fetchCommand (num : Numerics) : List Word → Option (Word × List Word × List Word)
  | [] => none
  | h :: rest =>
    if rest.length < paylen num h then none
    else some (h, rest.take (paylen num h), rest.drop (paylen num h))

/-- The 23 rows of R46. -/
inductive Opcode where
  | connect
  | settag
  | setaddr
  | setuart
  | rdver
  | dioSetch
  | dioSetchs
  | dioSetmode
  | dioRdchs
  | dioRdout
  | rlySetch
  | rlySetchs
  | rlyRdchs
  | rlyOpen
  | rlyClose
  | aiSettype
  | aiSettypes
  | aiGettypes
  | aiRdch
  | aiRdchs
  | aoSetch
  | aoSetchs
  | aoGetvals
deriving DecidableEq, Repr

/-- The row with this FAM and OP, if R46 has one (R46, R52). -/
def opcodeOf (fam : Family) (op : BitVec 6) : Option Opcode :=
  match op.toNat, fam with
  | 0x00, _ => some .connect
  | 0x01, _ => some .settag
  | 0x02, _ => some .setaddr
  | 0x03, _ => some .setuart
  | 0x04, _ => some .rdver
  | 0x10, .dio => some .dioSetch
  | 0x11, .dio => some .dioSetchs
  | 0x12, .dio => some .dioSetmode
  | 0x13, .dio => some .dioRdchs
  | 0x14, .dio => some .dioRdout
  | 0x10, .rly => some .rlySetch
  | 0x11, .rly => some .rlySetchs
  | 0x13, .rly => some .rlyRdchs
  | 0x15, .rly => some .rlyOpen
  | 0x16, .rly => some .rlyClose
  | 0x10, .ai => some .aiSettype
  | 0x11, .ai => some .aiSettypes
  | 0x12, .ai => some .aiGettypes
  | 0x13, .ai => some .aiRdch
  | 0x14, .ai => some .aiRdchs
  | 0x10, .ao => some .aoSetch
  | 0x11, .ao => some .aoSetchs
  | 0x12, .ao => some .aoGetvals
  | _, _ => none

/-- The columns `match` and `mask` of R46. -/
def matchMask : Opcode → Word × Word
  | .connect => (0x00000000, 0x3FFFFFFF)
  | .settag => (0x01000000, 0x3FFF0000)
  | .setaddr => (0x02000000, 0x3FFF0000)
  | .setuart => (0x03000000, 0x3F000000)
  | .rdver => (0x04000000, 0x3FFFFFFF)
  | .dioSetch => (0x10000000, 0xFF00FFFE)
  | .dioSetchs => (0x11000000, 0xFF00FF00)
  | .dioSetmode => (0x12000000, 0xFF000000)
  | .dioRdchs => (0x13000000, 0xFFFFFFFF)
  | .dioRdout => (0x14000000, 0xFFFFFFFF)
  | .rlySetch => (0x50000000, 0xFF00FFFE)
  | .rlySetchs => (0x51000000, 0xFF00FF00)
  | .rlyRdchs => (0x53000000, 0xFFFFFFFF)
  | .rlyOpen => (0x55000000, 0xFF00FFFF)
  | .rlyClose => (0x56000000, 0xFF00FFFF)
  | .aiSettype => (0x90000000, 0xFF000000)
  | .aiSettypes => (0x91000000, 0xFFFFFFFF)
  | .aiGettypes => (0x92000000, 0xFFFFFFFF)
  | .aiRdch => (0x93000000, 0xFF00FFFF)
  | .aiRdchs => (0x94000000, 0xFFFFFFFF)
  | .aoSetch => (0xD0000000, 0xFF00FFFF)
  | .aoSetchs => (0xD1000000, 0xFFFFFFFF)
  | .aoGetvals => (0xD2000000, 0xFFFFFFFF)

/-- A header selects a row iff `H & mask == match` (R46). -/
def selectsRow (h : Word) (r : Opcode) : Bool := h &&& (matchMask r).2 == (matchMask r).1

/-- The header fields a row shows as 0 are zero (R46, R50). -/
def reservedClear (r : Opcode) (a : Byte) (b : Half) : Bool :=
  match r with
  | .connect => a == 0 && b == 0
  | .settag => a == 0
  | .setaddr => a == 0
  | .setuart => true
  | .rdver => a == 0 && b == 0
  | .dioSetch => b &&& 0xFFFE == 0
  | .dioSetchs => b &&& 0xFF00 == 0
  | .dioSetmode => true
  | .dioRdchs => a == 0 && b == 0
  | .dioRdout => a == 0 && b == 0
  | .rlySetch => b &&& 0xFFFE == 0
  | .rlySetchs => b &&& 0xFF00 == 0
  | .rlyRdchs => a == 0 && b == 0
  | .rlyOpen => b == 0
  | .rlyClose => b == 0
  | .aiSettype => true
  | .aiSettypes => a == 0 && b == 0
  | .aiGettypes => a == 0 && b == 0
  | .aiRdch => b == 0
  | .aiRdchs => a == 0 && b == 0
  | .aoSetch => b == 0
  | .aoSetchs => a == 0 && b == 0
  | .aoGetvals => a == 0 && b == 0

/-- Bits 31:16 of a payload word. -/
def payloadHigh (w : Word) : Half := w.extractLsb' 16 16

/-- Bits 15:0 of a payload word. -/
def payloadLow (w : Word) : Half := w.extractLsb' 0 16

/-- The Actions of a SETCHS payload, the first illegal word deciding (R47, R50, R53). -/
def actionsOfPayload : List Word → Except Illegal (List Action)
  | [] => .ok []
  | w :: ws =>
    if payloadHigh w ≠ 0 then .error .reservedPayloadBits
    else
      match actionOfPattern (payloadLow w) with
      | none => .error .notAnAction
      | some a =>
        match actionsOfPayload ws with
        | .ok as => .ok (a :: as)
        | .error e => .error e

/-- The type codes of an AI.SETTYPES payload (R47, R50). -/
def typesOfPayload : List Word → Except Illegal (List Half)
  | [] => .ok []
  | w :: ws =>
    if payloadHigh w ≠ 0 then .error .reservedPayloadBits
    else
      match typesOfPayload ws with
      | .ok ts => .ok (payloadLow w :: ts)
      | .error e => .error e

/-- The `n` engineering values of a payload, in channel order (R47, R49). -/
def valuesOfPayload (num : Numerics) : Nat → List Word → Except Illegal (List EngValue)
  | 0, _ => .ok []
  | n + 1, ws =>
    match valueOfWords num (ws.take (valueWords num)) with
    | none => .error .notAValue
    | some v =>
      match valuesOfPayload num n (ws.drop (valueWords num)) with
      | .ok vs => .ok (v :: vs)
      | .error e => .error e

/-- The decoding of a SETCHS payload, given what to make of its Actions. -/
def batchOfPayload (make : List Action → Instr) (payload : List Word) : Decoded :=
  match actionsOfPayload payload with
  | .ok actions => .legal (make actions)
  | .error e => .illegal e

/-- Operand assembly: every operand is its field as it stands (R45, R47). -/
def operandsOf (num : Numerics) (r : Opcode) (a : Byte) (b : Half) (payload : List Word) : Decoded :=
  match r with
  | .connect => .legal .connect
  | .settag => .legal (.settag b)
  | .setaddr => .legal (.setaddr b)
  | .setuart => .legal (.setuart b a)
  | .rdver => .legal .rdver
  | .dioSetch => .legal (.dioSetch a (b.getLsbD 0))
  | .dioSetchs => batchOfPayload (.dioSetchs a) payload
  | .dioSetmode => .legal (.dioSetmode a b)
  | .dioRdchs => .legal .dioRdchs
  | .dioRdout => .legal .dioRdout
  | .rlySetch => .legal (.rlySetch a (b.getLsbD 0))
  | .rlySetchs => batchOfPayload (.rlySetchs a) payload
  | .rlyRdchs => .legal .rlyRdchs
  | .rlyOpen => .legal (.rlyOpen a)
  | .rlyClose => .legal (.rlyClose a)
  | .aiSettype => .legal (.aiSettype a b)
  | .aiSettypes =>
    match typesOfPayload payload with
    | .error e => .illegal e
    | .ok types =>
      match octOfList? types with
      | some ts => .legal (.aiSettypes ts)
      | none => .illegal .payloadCount
  | .aiGettypes => .legal .aiGettypes
  | .aiRdch => .legal (.aiRdch a)
  | .aiRdchs => .legal .aiRdchs
  | .aoSetch =>
    match valueOfWords num payload with
    | some v => .legal (.aoSetch a v)
    | none => .illegal .notAValue
  | .aoSetchs =>
    match valuesOfPayload num 8 payload with
    | .error e => .illegal e
    | .ok values =>
      match octOfList? values with
      | some vs => .legal (.aoSetchs vs)
      | none => .illegal .payloadCount
  | .aoGetvals => .legal .aoGetvals

/-- Decode a header and its payload on an instance strapped `strap` with the numerics `num`, the checks in the order of
R54: the strap, FAM and OP, the reserved header fields, the payload. -/
def decode (num : Numerics) (strap : Family) (h : Word) (payload : List Word) : Decoded :=
  if payload.length ≠ paylen num h then .illegal .payloadCount
  else
    let f := headerOf h
    if f.fam ≠ strap then .illegal .familyMismatch
    else
      match opcodeOf f.fam f.op with
      | none => .illegal .undefinedOpcode
      | some r =>
        if reservedClear r f.a f.b then operandsOf num r f.a f.b payload
        else .illegal .reservedHeaderField

/-- A SETCHS payload word: the pattern in bits 15:0, bits 31:16 zero (R47). -/
def actionWord (a : Action) : Word := (actionPattern a).setWidth 32

/-- Bit 0 of field B as the flag `on` (R45). -/
def onField (on : Bool) : Half := if on then 1 else 0

/-- The words of a command on an instance strapped `strap` with the numerics `num`: the header, then the payload (R43,
R46, R47). -/
def encode (num : Numerics) (strap : Family) (i : Instr) : List Word :=
  match i with
  | .connect => [headerWord ⟨strap, 0x00, 0, 0⟩]
  | .settag tag => [headerWord ⟨strap, 0x01, 0, tag⟩]
  | .setaddr address => [headerWord ⟨strap, 0x02, 0, address⟩]
  | .setuart baud parity => [headerWord ⟨strap, 0x03, parity, baud⟩]
  | .rdver => [headerWord ⟨strap, 0x04, 0, 0⟩]
  | .dioSetch channel on => [headerWord ⟨.dio, 0x10, channel, onField on⟩]
  | .dioSetchs start actions =>
    headerWord ⟨.dio, 0x11, start, BitVec.ofNat 16 actions.length⟩ :: actions.map actionWord
  | .dioSetmode channel mode => [headerWord ⟨.dio, 0x12, channel, mode⟩]
  | .dioRdchs => [headerWord ⟨.dio, 0x13, 0, 0⟩]
  | .dioRdout => [headerWord ⟨.dio, 0x14, 0, 0⟩]
  | .rlySetch channel on => [headerWord ⟨.rly, 0x10, channel, onField on⟩]
  | .rlySetchs start actions =>
    headerWord ⟨.rly, 0x11, start, BitVec.ofNat 16 actions.length⟩ :: actions.map actionWord
  | .rlyRdchs => [headerWord ⟨.rly, 0x13, 0, 0⟩]
  | .rlyOpen channel => [headerWord ⟨.rly, 0x15, channel, 0⟩]
  | .rlyClose channel => [headerWord ⟨.rly, 0x16, channel, 0⟩]
  | .aiSettype channel type => [headerWord ⟨.ai, 0x10, channel, type⟩]
  | .aiSettypes types => headerWord ⟨.ai, 0x11, 0, 0⟩ :: types.toList.map (BitVec.setWidth 32)
  | .aiGettypes => [headerWord ⟨.ai, 0x12, 0, 0⟩]
  | .aiRdch channel => [headerWord ⟨.ai, 0x13, channel, 0⟩]
  | .aiRdchs => [headerWord ⟨.ai, 0x14, 0, 0⟩]
  | .aoSetch channel value => headerWord ⟨.ao, 0x10, channel, 0⟩ :: wordsOfValue num value
  | .aoSetchs values => headerWord ⟨.ao, 0x11, 0, 0⟩ :: values.toList.flatMap (wordsOfValue num)
  | .aoGetvals => [headerWord ⟨.ao, 0x12, 0, 0⟩]

/-- The header and payload of a table word: the header is bits 31:0, payload word `k` is bits 32(k+1)+31 : 32(k+1),
and every bit from `nbits` on is 0. The table's lengths are those of binary64 (R49). The requester's port carries words
(R43), so no byte order enters. -/
def tableWords (nbits w : Nat) : Word × List Word :=
  let v := w % 2 ^ nbits
  let h := BitVec.ofNat 32 v
  (h, (List.range (paylen .binary64 h)).map (fun k => BitVec.ofNat 32 (v >>> (32 * (k + 1)))))

/-- The command of a table word, decoded on an instance of the family its FAM names. -/
def decodeTableWord (nbits w : Nat) : Option Instr :=
  let c := tableWords nbits w
  match decode .binary64 (headerOf c.1).fam c.1 c.2 with
  | .legal i => some i
  | .illegal _ => none

end Sys2Proof
end

