-- ==== Sys2Proof/Machine/State.lean ====
section
/-! DEFINITION. The state of one WSIO-MAP instance (R10 to R20), the records that cross its ports (R26, R57), and what
a step can end in besides a next state. -/

namespace Sys2Proof.Machine

/-- The four spaces of the device (R19, R22). -/
inductive Space where
  | coil
  | discrete
  | holding
  | input
deriving DecidableEq, Repr

/-- A transport call, the eight kinds of the request port TREQ (R26). -/
inductive Call where
  /-- `connect()`; the one call without a tag (R25). -/
  | connect
  /-- Write single coil: `value` is an Action pattern. -/
  | writeCoil (addr : Addr) (value : Half) (tag : Byte)
  /-- Write single holding register: bits 31:16 of `value` are zero except for SETUART. -/
  | writeHolding (addr : Addr) (value : Word) (tag : Byte)
  /-- Write multiple holding registers: eight of them. -/
  | writeHoldings (addr : Addr) (values : Oct Half) (tag : Byte)
  | readHoldings (addr : Addr) (count : Nat) (tag : Byte)
  | readInputs (addr : Addr) (count : Nat) (tag : Byte)
  | readCoils (addr : Addr) (count : Nat) (tag : Byte)
  | readDiscretes (addr : Addr) (count : Nat) (tag : Byte)
deriving DecidableEq, Repr

/-- An answer of the transport (R26, R27): done, the units of a read, or the one undifferentiated failure. -/
inductive Answer where
  | done
  | bits (units : List Bool)
  | words (units : List Half)
  | failure
deriving DecidableEq, Repr

/-- The five statuses (R101). -/
inductive Status where
  | ok
  | invalidChannel
  | invalidDeviceAddress
  | transportFailure
  | illegalCommand
deriving DecidableEq, Repr

/-- The payload of a response (R57). -/
inductive Payload where
  /-- Absent. -/
  | none
  /-- One 16-bit register value: RDVER. -/
  | register (v : Half)
  /-- Eight type codes: AI.GETTYPES. -/
  | codes (v : Oct Half)
  /-- A bank record: DIO.RDCHS, DIO.RDOUT, RLY.RDCHS. -/
  | bank (r : Bank)
  /-- One engineering value: AI.RDCH. -/
  | value (v : EngValue)
  /-- Eight engineering values: AI.RDCHS, AO.GETVALS. -/
  | values (v : Oct EngValue)
deriving DecidableEq, Repr

/-- The response ⟨status, done, payload⟩ (R57). -/
structure Response where
  status : Status
  /-- Transport calls of the command that completed successfully (R116). -/
  done : Nat
  payload : Payload
deriving DecidableEq, Repr

/-- What goes over the ports of an instance. -/
inductive Event where
  /-- A command, header and payload words, is handed to the idle instance (R21, R54). -/
  | taken (header : Word) (payload : List Word)
  /-- A call is issued on TREQ (R26). -/
  | call (c : Call)
  /-- The transport answers the outstanding call (R27). -/
  | answer (a : Answer)
  /-- The response of a command is delivered (R57). -/
  | response (r : Response)
  /-- The instance is reset (R117). -/
  | reset
deriving DecidableEq, Repr

/-- The units read so far by the command in flight (R17). -/
structure Values where
  bits : List Bool
  words : List Half
deriving DecidableEq, Repr

/-- SEQ when it is not idle (R17). -/
structure InFlight where
  /-- Which command it is, with its operands; or that the words handed over are none, until that is answered (R106). -/
  cmd : Decoded
  /-- How many transport calls it has completed. -/
  done : Nat
  /-- The values read so far. -/
  values : Values
  /-- Whether a call is outstanding. -/
  outstanding : Bool
  /-- Whether the transport failed the last call: the response is still to be delivered (R21, R105). -/
  failed : Bool
deriving DecidableEq, Repr

/-- How much of a run one step of the model is. -/
inductive Grain where
  /-- One step of R21: a command is handed over, a call is issued, a call is answered, or a response is delivered. -/
  | event
  /-- All the steps of R21 that follow each other without waiting, up to the end of the command. -/
  | command
deriving DecidableEq, Repr

/-- A request to reset the instance, with the device address given at construction, if one is given (R117). -/
structure ResetRequest where
  given : Option Nat
deriving DecidableEq, Repr

/-- The state of one instance with its parameters and its ports. The block's own state is `tag` and `seq` (R17, R20);
`built` is what it was built with; the last five fields are the model's: the two input streams, a pending reset, the
record of what went over the ports, which nothing in the machine reads, and how much of a run one step is. -/
structure State where
  /-- The strap, the descriptors and the construction defaults (R12, R13, R14). -/
  built : Build
  /-- TAG, the device-address register (R11). -/
  tag : Byte
  /-- SEQ, the in-flight record; none is idle (R17). -/
  seq : Option InFlight
  /-- A pending reset (R117). -/
  resetIn : Option ResetRequest
  /-- Words the requester has presented and that are not taken (R16, R43). -/
  cmdIn : List Word
  /-- The answers the transport gives to the calls to come, in order (R27, R28). -/
  ansIn : List Answer
  /-- What went over the ports, oldest first. -/
  trace : List Event
  /-- How much of a run a step of the model is; no rule and no command depends on it. -/
  grain : Grain
deriving DecidableEq, Repr

/-- The block raises no fault: every error is the status of a response (R101, R104), and nothing stops the machine.
The type is empty. -/
inductive Fault where
deriving DecidableEq, Repr

/-- Why the model gives a step no meaning. -/
inductive Refusal where
  /-- `exec`, for an instruction that has no meaning yet. Safe: the run ends. No arm answers it. -/
  | notModelled (mnemonic : String)
  /-- AO.SETCH and AO.SETCHS, for a value outside the domain of `to_raw`: "a model refuses it" (R68, R100), and for an
  operand that is no value of the instance's F, which the decoder never gives (log 7). Safe: hardware goes on in a way
  the spec does not give, and no claim covers it. -/
  | valueOutsideScalerDomain
  /-- A reset, for a device address outside 1 to 255: the model "refuses to build" such an instance (R118). Safe: the
  run ends. -/
  | deviceAddressNotLegal
deriving DecidableEq, Repr

/-- What the units read by a command become in its response: the column "payload when OK" of R57. -/
inductive Reply where
  /-- No payload. -/
  | none
  /-- The one register read, raw. -/
  | register
  /-- The eight registers read, raw. -/
  | codes
  /-- The eight bits read, as a bank record. -/
  | bank
  /-- The one register read, divided by 1000. -/
  | value
  /-- The eight registers read, each divided by 1000. -/
  | values
deriving DecidableEq, Repr

/-- What a command does after decode, in the order of R107. -/
inductive Plan where
  /-- An operand check fails: end with this status, no call (R102, R103). -/
  | raise (e : Status)
  /-- The model gives the case no meaning (R100). -/
  | refuse (r : Refusal)
  /-- TAG is written, no call (R75). -/
  | setTag (t : Byte)
  /-- The calls, in order, and what the units read become (R23, R57). -/
  | calls (cs : List Call) (reply : Reply)
deriving DecidableEq, Repr

/-- The instance right after reset: TAG is DEFAULT_TAG, SEQ is idle (R20, R117); the parameters as built; nothing
presented, nothing answered, nothing recorded; the steps are those of R21. -/
def State.reset : State where
  built := Config.built
  tag := Config.defaultTag.val
  seq := none
  resetIn := none
  cmdIn := []
  ansIn := []
  trace := []
  grain := .event

end Sys2Proof.Machine
end

