-- ==== Sys2Proof/Machine/Ops.lean ====
section
/-! DEFINITION. The operations the commands share: the transport calls (R8, R25, R26), what an answer is worth (R27,
R29), the response and the raise (R57, R104), the steps of a command in flight, single (R21) and joined (R35, R105),
and reset (R117). -/

namespace Sys2Proof.Machine

/-- `MemRead(space, addr, n)`: one read call, tagged with the current TAG (R8, R25, R26). -/
def memRead (space : Space) (addr : Addr) (n : Nat) (s : State) : Call :=
  match space with
  | .coil => .readCoils addr n s.tag
  | .discrete => .readDiscretes addr n s.tag
  | .holding => .readHoldings addr n s.tag
  | .input => .readInputs addr n s.tag

/-- `MemWrite(COIL, addr, 1, v)`: the value is an Action pattern (R8, R26). -/
def memWriteCoil (addr : Addr) (v : Half) (s : State) : Call := .writeCoil addr v s.tag

/-- `MemWrite(HOLDING, addr, 1, v)` (R8, R26). -/
def memWriteHolding (addr : Addr) (v : Word) (s : State) : Call := .writeHolding addr v s.tag

/-- `MemWrite(HOLDING, addr, 8, v)` (R8, R26). -/
def memWriteHoldings (addr : Addr) (v : Oct Half) (s : State) : Call := .writeHoldings addr v s.tag

/-- The space a call addresses; `Connect` addresses none (R23, R26). -/
def callSpace : Call → Option Space
  | .connect => none
  | .writeCoil _ _ _ => some .coil
  | .writeHolding _ _ _ => some .holding
  | .writeHoldings _ _ _ => some .holding
  | .readHoldings _ _ _ => some .holding
  | .readInputs _ _ _ => some .input
  | .readCoils _ _ _ => some .coil
  | .readDiscretes _ _ _ => some .discrete

/-- The call writes (R22, R26). -/
def callWrites : Call → Bool
  | .connect => false
  | .writeCoil _ _ _ => true
  | .writeHolding _ _ _ => true
  | .writeHoldings _ _ _ => true
  | .readHoldings _ _ _ => false
  | .readInputs _ _ _ => false
  | .readCoils _ _ _ => false
  | .readDiscretes _ _ _ => false

/-- The space may be written: COIL and HOLDING may, DISCRETE and INPUT are read only (R22). -/
def spaceWritable : Space → Bool
  | .coil => true
  | .discrete => false
  | .holding => true
  | .input => false

/-- How many units a call moves: 1 or 8 (R23, R24). -/
def callUnits : Call → Nat
  | .connect => 0
  | .writeCoil _ _ _ => 1
  | .writeHolding _ _ _ => 1
  | .writeHoldings _ _ _ => 8
  | .readHoldings _ n _ => n
  | .readInputs _ n _ => n
  | .readCoils _ n _ => n
  | .readDiscretes _ n _ => n

/-- The first address of a call (R26). -/
def callAddr : Call → Option Addr
  | .connect => none
  | .writeCoil a _ _ => some a
  | .writeHolding a _ _ => some a
  | .writeHoldings a _ _ => some a
  | .readHoldings a _ _ => some a
  | .readInputs a _ _ => some a
  | .readCoils a _ _ => some a
  | .readDiscretes a _ _ => some a

/-- The device tag a call carries; `Connect` carries none (R25). -/
def callTag : Call → Option Byte
  | .connect => none
  | .writeCoil _ _ t => some t
  | .writeHolding _ _ t => some t
  | .writeHoldings _ _ t => some t
  | .readHoldings _ _ t => some t
  | .readInputs _ _ t => some t
  | .readCoils _ _ t => some t
  | .readDiscretes _ _ t => some t

/-- No units read. -/
def noValues : Values := ⟨[], []⟩

/-- The values read so far, then these (R17). -/
def appendValues (v w : Values) : Values := ⟨v.bits ++ w.bits, v.words ++ w.words⟩

/-- `n` bits and nothing else are the answer to a bit read of `n` units (R26, R29). -/
def acceptBits (n : Nat) (a : Answer) : Option Values :=
  match a with
  | .bits u => if u.length = n then some ⟨u, []⟩ else none
  | _ => none

/-- `n` 16-bit units and nothing else are the answer to a register read of `n` units (R26, R29). -/
def acceptWords (n : Nat) (a : Answer) : Option Values :=
  match a with
  | .words u => if u.length = n then some ⟨[], u⟩ else none
  | _ => none

/-- Done and nothing else is the answer to a write or a connect (R26). -/
def acceptDone (a : Answer) : Option Values :=
  match a with
  | .done => some noValues
  | _ => none

/-- What the answer to a call is worth: the units it delivers, or none for a TransportFailure. A failure, a sequence of
another length and an answer of another kind are all the one TransportFailure ("malformed response", R27, R29). -/
def accept (c : Call) (a : Answer) : Option Values :=
  match c with
  | .connect => acceptDone a
  | .writeCoil _ _ _ => acceptDone a
  | .writeHolding _ _ _ => acceptDone a
  | .writeHoldings _ _ _ => acceptDone a
  | .readHoldings _ n _ => acceptWords n a
  | .readInputs _ n _ => acceptWords n a
  | .readCoils _ n _ => acceptBits n a
  | .readDiscretes _ n _ => acceptBits n a

/-- The payload of an OK response, from the units read, in the instance's NUM (R57, R65; R78, R83, R84, R88, R94 to R96,
R99). -/
def replyPayload (num : Num EngValue) (r : Reply) (v : Values) : Payload :=
  match r with
  | .none => .none
  | .register => .register (v.words.getD 0 0)
  | .codes => .codes (octOfList 0 v.words)
  | .bank => .bank (bankOfBits v.bits)
  | .value => .value (toEngineering num (v.words.getD 0 0))
  | .values => .values ((octOfList 0 v.words).map (toEngineering num))

/-- The end of a command: SEQ becomes idle and the one response is delivered (R17, R57). -/
def respond (status : Status) (done : Nat) (payload : Payload) (s : State) : State :=
  { s with seq := none, trace := s.trace ++ [.response ⟨status, done, payload⟩] }

/-- `raise E`: the command ends at once, without payload; nothing is saved, no handler is entered, TAG keeps its value.
There is nothing to return from: the instance is idle and takes the next command (R104, R110). -/
def raise (e : Status) (done : Nat) (s : State) : State := respond e done .none s

/-- SEQ of a command just handed over: no call completed, nothing read, no call outstanding (R17). -/
def freshRecord (cmd : Decoded) : InFlight := ⟨cmd, 0, noValues, false, false⟩

/-- Issue a call: it goes out on TREQ and SEQ records that it is outstanding (R17, R26). -/
def issue (cmd : Decoded) (c : Call) (done : Nat) (v : Values) (s : State) : State :=
  { s with seq := some ⟨cmd, done, v, true, false⟩, trace := s.trace ++ [.call c] }

/-- The answer to the outstanding call arrives; `rest` are the answers to the calls to come (R27). -/
def receive (a : Answer) (rest : List Answer) (s : State) : State :=
  { s with ansIn := rest, trace := s.trace ++ [.answer a] }

/-- What SEQ remembers once the call `c` of the record `f` is answered: one call more completed and its units read, or
the failure (R17, R27, R105). -/
def recordAnswer (f : InFlight) (c : Call) (a : Answer) : InFlight :=
  match accept c a with
  | some w => { f with done := f.done + 1, values := appendValues f.values w, outstanding := false }
  | none => { f with outstanding := false, failed := true }

/-- What a command in flight does next, by its plan `p`, in the order of R107: deliver the failure of its last call,
raise its operand error, be refused, write TAG, or go on with its calls as `serving` says. -/
def followPlan (p : Plan) (f : InFlight) (s : State) (serving : List Call → Reply → State) :
    Host.Outcome State Fault Refusal :=
  if f.failed then .next (raise .transportFailure f.done s)
  else
    match p with
    | .raise e => .next (raise e f.done s)
    | .refuse r => .refused r
    | .setTag t => .next (respond .ok f.done .none { s with tag := t })
    | .calls cs reply => .next (serving cs reply)

/-- One step of R21 among the calls `cs` of a command: the outstanding call is answered, the next call is issued, or,
when all are completed, the response is delivered. Without an answer the instance waits (R27). -/
def serveOnce (f : InFlight) (s : State) (cs : List Call) (reply : Reply) : State :=
  match cs[f.done]? with
  | none => respond .ok f.done (replyPayload (numOf s.built.num) reply f.values) s
  | some c =>
    if f.outstanding then
      match s.ansIn with
      | [] => s
      | a :: rest => { receive a rest s with seq := some (recordAnswer f c a) }
    else issue f.cmd c f.done f.values s

/-- One step of R21 of an instance in flight. -/
def heldStep (p : Plan) (f : InFlight) (s : State) : Host.Outcome State Fault Refusal :=
  followPlan p f s (serveOnce f s)

/-- Serve the remaining calls of a command one at a time, in order, each issued after the answer of the one before
(R35). `outstanding` says that the first of them is already issued. Without an answer the instance stays in flight
(R27); a failed answer raises TransportFailure and no further call is issued (R105, R109); when none is left the
command is OK with the units read (R101, R116). -/
def serve (cmd : Decoded) (reply : Reply) : Bool → List Call → Nat → Values → State → State
  | _, [], done, v, s => respond .ok done (replyPayload (numOf s.built.num) reply v) s
  | outstanding, c :: cs, done, v, s =>
    let s1 := if outstanding then s else issue cmd c done v s
    match s1.ansIn with
    | [] => s1
    | a :: rest =>
      let s2 := receive a rest s1
      match accept c a with
      | none => raise .transportFailure done s2
      | some w => serve cmd reply false cs (done + 1) (appendValues v w) s2

/-- Carry a command on from the in-flight record `f` as far as the answers reach: all the steps `heldStep` makes until
it waits or the command ends. -/
def proceed (p : Plan) (f : InFlight) (s : State) : Host.Outcome State Fault Refusal :=
  followPlan p f s (fun cs reply => serve f.cmd reply f.outstanding (cs.drop f.done) f.done f.values s)

/-- Start a decoded command (R17). -/
def startCommand (cmd : Instr) (p : Plan) (s : State) : Host.Outcome State Fault Refusal :=
  proceed p (freshRecord (.legal cmd)) s

/-- `chk_channel(c)`, then the rest (R32). -/
def withChannel (c : Byte) (rest : Plan) : Plan :=
  if channelOk c then rest else .raise .invalidChannel

/-- `chk_batch(s, n)`, then the rest: the whole batch before the first write (R33). -/
def withBatch (s : Byte) (n : Nat) (rest : Plan) : Plan :=
  if batchOk s n then rest else .raise .invalidChannel

/-- The coil writes of a batch: element `k` of the sequence at `base + start + k`, in sequence order, the pattern
unchanged (R23, R80). -/
def batchWrites (base : Addr) (s : State) : Nat → List Action → List Call
  | _, [] => []
  | offset, a :: as =>
    memWriteCoil (mapAddr base offset) (actionPattern a) s :: batchWrites base s (offset + 1) as

/-- The plan of a command that makes one call. -/
def oneCall (c : Call) (reply : Reply) : Plan := .calls [c] reply

/-- All eight raw values of a channel sequence, or none if any is outside the domain (R68, R98). -/
def rawValues {F : Type} (num : Num F) (vs : Oct F) : Option (Oct Half) :=
  match toRaw num vs.ch0, toRaw num vs.ch1, toRaw num vs.ch2, toRaw num vs.ch3,
    toRaw num vs.ch4, toRaw num vs.ch5, toRaw num vs.ch6, toRaw num vs.ch7 with
  | some a, some b, some c, some d, some e, some f, some g, some h => some ⟨a, b, c, d, e, f, g, h⟩
  | _, _, _, _, _, _, _, _ => none

/-- A device address of an instance is 1 to 255 (R11, R118). -/
def deviceAddressOk (t : Nat) : Bool := 1 ≤ t && t ≤ 255

/-- The device address an instance starts with: the one given at construction, else DEFAULT_TAG (R117). -/
def initialAddress (given : Option Nat) (b : Build) : Nat := given.getD b.defaultTag.val.toNat

/-- Construction: a fresh instance on the parameters `b`; none for a device address outside 1 to 255, an instance the
model refuses to build (R117, R118). -/
def construct (b : Build) (given : Option Nat) : Option State :=
  if deviceAddressOk (initialAddress given b) then
    some ⟨b, BitVec.ofNat 8 (initialAddress given b), none, none, [], [], [], .event⟩
  else none

/-- Reset: TAG and SEQ get their reset values; no call, no response, the parameters unchanged; a command in flight is
abandoned (R117). A device address outside 1 to 255 is refused (R118). -/
def resetInstance (r : ResetRequest) (s : State) : Host.Outcome State Fault Refusal :=
  if deviceAddressOk (initialAddress r.given s.built) then
    .next { s with
      tag := BitVec.ofNat 8 (initialAddress r.given s.built), seq := none, resetIn := none,
      trace := s.trace ++ [.reset] }
  else .refused .deviceAddressNotLegal

end Sys2Proof.Machine
end

