-- ==== Sys2Proof/Machine/AnalogInput.lean ====
section
/-! DEFINITION. The analog input family: AI.SETTYPE, AI.SETTYPES, AI.GETTYPES, AI.RDCH, AI.RDCHS (R91 to R96). -/

namespace Sys2Proof.Machine

/-- AI.SETTYPE: one HOLDING write at ChannelTypesBase + channel, the code unchecked (R72, R92). -/
def planAiSettype (channel : Byte) (type : Half) (s : State) : Plan :=
  withChannel channel
    (oneCall (memWriteHolding (mapAddr s.built.ai.channelTypesBase.addr channel.toNat) (type.setWidth 32) s) .none)

/-- AI.SETTYPES: one write of eight registers (R93). -/
def planAiSettypes (types : Oct Half) (s : State) : Plan :=
  oneCall (memWriteHoldings (mapAddr s.built.ai.channelTypesBase.addr 0) types s) .none

/-- AI.GETTYPES: one read of eight registers, returned as they stand (R94). -/
def planAiGettypes (s : State) : Plan :=
  oneCall (memRead .holding (mapAddr s.built.ai.channelTypesBase.addr 0) 8 s) .codes

/-- AI.RDCH: one input register, divided by 1000 (R95). -/
def planAiRdch (channel : Byte) (s : State) : Plan :=
  withChannel channel
    (oneCall (memRead .input (mapAddr s.built.ai.inputChannelsBase.addr channel.toNat) 1 s) .value)

/-- AI.RDCHS: eight reads of one input register, channels 0 to 7 ascending, never one read of eight (R96). -/
def planAiRdchs (s : State) : Plan :=
  .calls ((List.range 8).map (fun k => memRead .input (mapAddr s.built.ai.inputChannelsBase.addr k) 1 s)) .values

/-- AI.SETTYPE channel, type (R92). -/
def execAiSettype (channel : Byte) (type : Half) (s : State) : Host.Outcome State Fault Refusal :=
  startCommand (.aiSettype channel type) (planAiSettype channel type s) s

/-- AI.SETTYPES types (R93). -/
def execAiSettypes (types : Oct Half) (s : State) : Host.Outcome State Fault Refusal :=
  startCommand (.aiSettypes types) (planAiSettypes types s) s

/-- AI.GETTYPES (R94). -/
def execAiGettypes (s : State) : Host.Outcome State Fault Refusal :=
  startCommand .aiGettypes (planAiGettypes s) s

/-- AI.RDCH channel (R95). -/
def execAiRdch (channel : Byte) (s : State) : Host.Outcome State Fault Refusal :=
  startCommand (.aiRdch channel) (planAiRdch channel s) s

/-- AI.RDCHS (R96). -/
def execAiRdchs (s : State) : Host.Outcome State Fault Refusal :=
  startCommand .aiRdchs (planAiRdchs s) s

end Sys2Proof.Machine
end

