-- ==== Sys2Proof/Machine/AnalogOutput.lean ====
section
/-! DEFINITION. The analog output family: AO.SETCH, AO.SETCHS, AO.GETVALS (R97 to R100). -/

namespace Sys2Proof.Machine

/-- AO.SETCH: the channel check, then the conversion, then one HOLDING write of the raw value; a value outside the
domain of `to_raw` is refused (R97, R100, R107). -/
def planAoSetch (channel : Byte) (value : EngValue) (s : State) : Plan :=
  withChannel channel
    (match toRaw (numOf s.built.num) value with
      | none => .refuse .valueOutsideScalerDomain
      | some raw =>
        oneCall (memWriteHolding (mapAddr s.built.ao.outputsBase.addr channel.toNat) (raw.setWidth 32) s) .none)

/-- AO.SETCHS: all eight conversions before the one write of eight registers; refused if any value is outside the
domain (R98, R100). -/
def planAoSetchs (values : Oct EngValue) (s : State) : Plan :=
  match rawValues (numOf s.built.num) values with
  | none => .refuse .valueOutsideScalerDomain
  | some raws => oneCall (memWriteHoldings (mapAddr s.built.ao.outputsBase.addr 0) raws s) .none

/-- AO.GETVALS: one read of eight registers, each divided by 1000 (R99). -/
def planAoGetvals (s : State) : Plan :=
  oneCall (memRead .holding (mapAddr s.built.ao.outputsBase.addr 0) 8 s) .values

/-- AO.SETCH channel, value (R97). -/
def execAoSetch (channel : Byte) (value : EngValue) (s : State) : Host.Outcome State Fault Refusal :=
  startCommand (.aoSetch channel value) (planAoSetch channel value s) s

/-- AO.SETCHS values (R98). -/
def execAoSetchs (values : Oct EngValue) (s : State) : Host.Outcome State Fault Refusal :=
  startCommand (.aoSetchs values) (planAoSetchs values s) s

/-- AO.GETVALS (R99). -/
def execAoGetvals (s : State) : Host.Outcome State Fault Refusal :=
  startCommand .aoGetvals (planAoGetvals s) s

end Sys2Proof.Machine
end

