-- ==== Sys2Proof/Machine/Common.lean ====
section
/-! DEFINITION. The commands common to all families: CONNECT, SETTAG, SETADDR, SETUART, RDVER (R73 to R78). -/

namespace Sys2Proof.Machine

/-- CONNECT: one `Connect` call (R74). -/
def planConnect (_ : State) : Plan := oneCall .connect .none

/-- SETTAG: B is 1 to 255 or InvalidDeviceAddress; TAG becomes B[7:0]; no call (R75). -/
def planSettag (tag : Half) (_ : State) : Plan :=
  if deviceAddressOk tag.toNat then .setTag (tag.extractLsb' 0 8) else .raise .invalidDeviceAddress

/-- SETADDR: B is at most 255 or InvalidDeviceAddress; the address is written to the device, TAG is not changed
(R76). -/
def planSetaddr (address : Half) (s : State) : Plan :=
  if address.toNat ≤ 255 then
    oneCall (memWriteHolding (mapAddr (deviceAddressBase s.built) 0) (address.setWidth 32) s) .none
  else .raise .invalidDeviceAddress

/-- SETUART: the 32-bit UART word, whole, in one write (R59, R77). -/
def planSetuart (baud : Half) (parity : Byte) (s : State) : Plan :=
  oneCall (memWriteHolding (mapAddr (uartParametersBase s.built) 0) (uartWord baud parity) s) .none

/-- RDVER: one holding register, returned raw (R78). -/
def planRdver (s : State) : Plan :=
  oneCall (memRead .holding (mapAddr (softwareVersionBase s.built) 0) 1 s) .register

/-- CONNECT (R74). -/
def execConnect (s : State) : Host.Outcome State Fault Refusal :=
  startCommand .connect (planConnect s) s

/-- SETTAG tag (R75). -/
def execSettag (tag : Half) (s : State) : Host.Outcome State Fault Refusal :=
  startCommand (.settag tag) (planSettag tag s) s

/-- SETADDR address (R76). -/
def execSetaddr (address : Half) (s : State) : Host.Outcome State Fault Refusal :=
  startCommand (.setaddr address) (planSetaddr address s) s

/-- SETUART baud, parity (R77). -/
def execSetuart (baud : Half) (parity : Byte) (s : State) : Host.Outcome State Fault Refusal :=
  startCommand (.setuart baud parity) (planSetuart baud parity s) s

/-- RDVER (R78). -/
def execRdver (s : State) : Host.Outcome State Fault Refusal :=
  startCommand .rdver (planRdver s) s

end Sys2Proof.Machine
end

