-- ==== Sys2Proof/Machine/DigitalIo.lean ====
section
/-! DEFINITION. The digital I/O family: DIO.SETCH, DIO.SETCHS, DIO.SETMODE, DIO.RDCHS, DIO.RDOUT (R79 to R84). -/

namespace Sys2Proof.Machine

/-- DIO.SETCH: one coil write at OutputChannelBase + channel, On or Off (R79). -/
def planDioSetch (channel : Byte) (on : Bool) (s : State) : Plan :=
  withChannel channel
    (oneCall (memWriteCoil (mapAddr s.built.dio.outputChannelBase.addr channel.toNat) (actionOfBool on) s) .none)

/-- DIO.SETCHS: the whole-batch check, then one coil write per element (R80). -/
def planDioSetchs (start : Byte) (actions : List Action) (s : State) : Plan :=
  withBatch start actions.length
    (.calls (batchWrites s.built.dio.outputChannelBase.addr s start.toNat actions) .none)

/-- DIO.SETMODE: a HOLDING write at the number of the output coil, not at ControlModeBase (R34, R81). -/
def planDioSetmode (channel : Byte) (mode : Half) (s : State) : Plan :=
  withChannel channel
    (oneCall (memWriteHolding (mapAddr s.built.dio.outputChannelBase.addr channel.toNat) (mode.setWidth 32) s) .none)

/-- DIO.RDCHS: eight discrete inputs as a bank record (R83). -/
def planDioRdchs (s : State) : Plan :=
  oneCall (memRead .discrete (mapAddr s.built.dio.inputChannelsBase.addr 0) 8 s) .bank

/-- DIO.RDOUT: eight coils as a bank record (R84). -/
def planDioRdout (s : State) : Plan :=
  oneCall (memRead .coil (mapAddr s.built.dio.outputChannelBase.addr 0) 8 s) .bank

/-- DIO.SETCH channel, on (R79). -/
def execDioSetch (channel : Byte) (on : Bool) (s : State) : Host.Outcome State Fault Refusal :=
  startCommand (.dioSetch channel on) (planDioSetch channel on s) s

/-- DIO.SETCHS start, actions (R80). -/
def execDioSetchs (start : Byte) (actions : List Action) (s : State) : Host.Outcome State Fault Refusal :=
  startCommand (.dioSetchs start actions) (planDioSetchs start actions s) s

/-- DIO.SETMODE channel, mode (R81). -/
def execDioSetmode (channel : Byte) (mode : Half) (s : State) : Host.Outcome State Fault Refusal :=
  startCommand (.dioSetmode channel mode) (planDioSetmode channel mode s) s

/-- DIO.RDCHS (R83). -/
def execDioRdchs (s : State) : Host.Outcome State Fault Refusal :=
  startCommand .dioRdchs (planDioRdchs s) s

/-- DIO.RDOUT (R84). -/
def execDioRdout (s : State) : Host.Outcome State Fault Refusal :=
  startCommand .dioRdout (planDioRdout s) s

end Sys2Proof.Machine
end

