-- ==== Sys2Proof/Machine/Relay.lean ====
section
/-! DEFINITION. The relay family: RLY.SETCH, RLY.SETCHS, RLY.RDCHS, RLY.OPEN, RLY.CLOSE (R85 to R90). -/

namespace Sys2Proof.Machine

/-- RLY.SETCH: one coil write at OutputChannelBase + channel, On or Off (R86). -/
def planRlySetch (channel : Byte) (on : Bool) (s : State) : Plan :=
  withChannel channel
    (oneCall (memWriteCoil (mapAddr s.built.rly.outputChannelBase.addr channel.toNat) (actionOfBool on) s) .none)

/-- RLY.SETCHS: the whole-batch check, then one coil write per element (R87). -/
def planRlySetchs (start : Byte) (actions : List Action) (s : State) : Plan :=
  withBatch start actions.length
    (.calls (batchWrites s.built.rly.outputChannelBase.addr s start.toNat actions) .none)

/-- RLY.RDCHS: eight coils, from the output base, as a bank record (R85, R88). -/
def planRlyRdchs (s : State) : Plan :=
  oneCall (memRead .coil (mapAddr s.built.rly.outputChannelBase.addr 0) 8 s) .bank

/-- RLY.OPEN: one coil write of Off (R89). -/
def planRlyOpen (channel : Byte) (s : State) : Plan :=
  withChannel channel
    (oneCall (memWriteCoil (mapAddr s.built.rly.outputChannelBase.addr channel.toNat) (actionPattern .off) s) .none)

/-- RLY.CLOSE: one coil write of On (R90). -/
def planRlyClose (channel : Byte) (s : State) : Plan :=
  withChannel channel
    (oneCall (memWriteCoil (mapAddr s.built.rly.outputChannelBase.addr channel.toNat) (actionPattern .on) s) .none)

/-- RLY.SETCH channel, on (R86). -/
def execRlySetch (channel : Byte) (on : Bool) (s : State) : Host.Outcome State Fault Refusal :=
  startCommand (.rlySetch channel on) (planRlySetch channel on s) s

/-- RLY.SETCHS start, actions (R87). -/
def execRlySetchs (start : Byte) (actions : List Action) (s : State) : Host.Outcome State Fault Refusal :=
  startCommand (.rlySetchs start actions) (planRlySetchs start actions s) s

/-- RLY.RDCHS (R88). -/
def execRlyRdchs (s : State) : Host.Outcome State Fault Refusal :=
  startCommand .rlyRdchs (planRlyRdchs s) s

/-- RLY.OPEN channel (R89). -/
def execRlyOpen (channel : Byte) (s : State) : Host.Outcome State Fault Refusal :=
  startCommand (.rlyOpen channel) (planRlyOpen channel s) s

/-- RLY.CLOSE channel (R90). -/
def execRlyClose (channel : Byte) (s : State) : Host.Outcome State Fault Refusal :=
  startCommand (.rlyClose channel) (planRlyClose channel s) s

end Sys2Proof.Machine
end

