-- ==== Sys2Proof/Machine/Dispatch.lean ====
section
/-! DEFINITION. One arm per command of R46. -/

namespace Sys2Proof.Machine

def exec (i : Instr) (s : State) : Host.Outcome State Fault Refusal :=
  match i with
  | .connect => Sys2Proof.Machine.execConnect s
  | .settag tag => Sys2Proof.Machine.execSettag tag s
  | .setaddr address => Sys2Proof.Machine.execSetaddr address s
  | .setuart baud parity => Sys2Proof.Machine.execSetuart baud parity s
  | .rdver => Sys2Proof.Machine.execRdver s
  | .dioSetch channel on => Sys2Proof.Machine.execDioSetch channel on s
  | .dioSetchs start actions => Sys2Proof.Machine.execDioSetchs start actions s
  | .dioSetmode channel mode => Sys2Proof.Machine.execDioSetmode channel mode s
  | .dioRdchs => Sys2Proof.Machine.execDioRdchs s
  | .dioRdout => Sys2Proof.Machine.execDioRdout s
  | .rlySetch channel on => Sys2Proof.Machine.execRlySetch channel on s
  | .rlySetchs start actions => Sys2Proof.Machine.execRlySetchs start actions s
  | .rlyRdchs => Sys2Proof.Machine.execRlyRdchs s
  | .rlyOpen channel => Sys2Proof.Machine.execRlyOpen channel s
  | .rlyClose channel => Sys2Proof.Machine.execRlyClose channel s
  | .aiSettype channel type => Sys2Proof.Machine.execAiSettype channel type s
  | .aiSettypes types => Sys2Proof.Machine.execAiSettypes types s
  | .aiGettypes => Sys2Proof.Machine.execAiGettypes s
  | .aiRdch channel => Sys2Proof.Machine.execAiRdch channel s
  | .aiRdchs => Sys2Proof.Machine.execAiRdchs s
  | .aoSetch channel value => Sys2Proof.Machine.execAoSetch channel value s
  | .aoSetchs values => Sys2Proof.Machine.execAoSetchs values s
  | .aoGetvals => Sys2Proof.Machine.execAoGetvals s

end Sys2Proof.Machine
end

