-- ==== Sys2Proof/Machine/Plans.lean ====
section
/-! DEFINITION. What the command in flight still has to do: SEQ remembers the command and its operands (R17), and this
gives back its plan when it goes on. -/

namespace Sys2Proof.Machine

/-- The plan of a command (R74 to R100). -/
def planOf (i : Instr) (s : State) : Plan :=
  match i with
  | .connect => planConnect s
  | .settag tag => planSettag tag s
  | .setaddr address => planSetaddr address s
  | .setuart baud parity => planSetuart baud parity s
  | .rdver => planRdver s
  | .dioSetch channel on => planDioSetch channel on s
  | .dioSetchs start actions => planDioSetchs start actions s
  | .dioSetmode channel mode => planDioSetmode channel mode s
  | .dioRdchs => planDioRdchs s
  | .dioRdout => planDioRdout s
  | .rlySetch channel on => planRlySetch channel on s
  | .rlySetchs start actions => planRlySetchs start actions s
  | .rlyRdchs => planRlyRdchs s
  | .rlyOpen channel => planRlyOpen channel s
  | .rlyClose channel => planRlyClose channel s
  | .aiSettype channel type => planAiSettype channel type s
  | .aiSettypes types => planAiSettypes types s
  | .aiGettypes => planAiGettypes s
  | .aiRdch channel => planAiRdch channel s
  | .aiRdchs => planAiRdchs s
  | .aoSetch channel value => planAoSetch channel value s
  | .aoSetchs values => planAoSetchs values s
  | .aoGetvals => planAoGetvals s

/-- The plan of what SEQ holds; words that are no command are answered IllegalCommand (R106). -/
def planOfHeld (d : Decoded) (s : State) : Plan :=
  match d with
  | .legal i => planOf i s
  | .illegal _ => .raise .illegalCommand

/-- The command in flight makes one step of R21. -/
def resumeOnce (f : InFlight) (s : State) : Host.Outcome State Fault Refusal :=
  heldStep (planOfHeld f.cmd s) f s

/-- The command in flight goes on as far as the answers reach (R27, R35). -/
def resume (f : InFlight) (s : State) : Host.Outcome State Fault Refusal :=
  proceed (planOfHeld f.cmd s) f s

end Sys2Proof.Machine
end

