-- ==== Sys2Proof/Machine/Run.lean ====
section
/-! DEFINITION. The steps of a run: the requester hands a command over, an instance issues a call, a call is answered, a
response is delivered, an instance is reset (R21, R117); and the same steps joined, as far as a command goes without
waiting (R16, R35). -/

namespace Sys2Proof.Machine

/-- The state in which a command's words have left the requester's port (R16). -/
def State.take (h : Word) (payload rest : List Word) (s : State) : State :=
  { s with cmdIn := rest, trace := s.trace ++ [.taken h payload] }

/-- The requester hands a command to the idle instance: SEQ holds it, and nothing else is done (R16, R17, R21). -/
def handOver (h : Word) (payload rest : List Word) (s : State) : State :=
  { s.take h payload rest with seq := some (freshRecord (decode s.built.num s.built.family h payload)) }

/-- Take a command and carry it on as far as the answers reach, or answer IllegalCommand (R54, R106). -/
def runWhole (h : Word) (payload rest : List Word) (s : State) : Host.Outcome State Fault Refusal :=
  match decode s.built.num s.built.family h payload with
  | .legal i => exec i (s.take h payload rest)
  | .illegal _ => .next (raise .illegalCommand 0 (s.take h payload rest))

/-- What can happen next. A pending reset comes first. An instance in flight goes on with its command, as `going` says,
and takes no other (R16). An idle one takes the next command, as `taking` says; with no complete command presented it
waits. -/
def nextStep (going : InFlight → State → Host.Outcome State Fault Refusal)
    (taking : Word → List Word → List Word → State → Host.Outcome State Fault Refusal) (s : State) :
    Host.Outcome State Fault Refusal :=
  match s.resetIn with
  | some r => resetInstance r s
  | none =>
    match s.seq with
    | some f => going f s
    | none =>
      match fetchCommand s.built.num s.cmdIn with
      | none => .next s
      | some (h, payload, rest) => taking h payload rest s

/-- One step of a run, as R21 counts them. -/
def advance (s : State) : Host.Outcome State Fault Refusal :=
  nextStep resumeOnce (fun h payload rest s => .next (handOver h payload rest s)) s

/-- All the steps `advance` makes until the command ends or the instance waits. -/
def advanceWhole (s : State) : Host.Outcome State Fault Refusal := nextStep resume runWhole s

/-- The owner of an instance may discard it at any time it is idle, whatever is presented to it (R121). -/
def mayDiscard (s : State) : Bool := s.seq.isNone

/-- A run is over for an instance when it is idle and the requester has no further command for it (R17, R121). -/
def runOver (s : State) : Bool := s.seq.isNone && s.cmdIn.isEmpty

end Sys2Proof.Machine
end

