-- ==== Sys2Proof/Machine/Step.lean ====
section
/-! DEFINITION. One step of an instance, and the state whose next step runs a given word. -/

namespace Sys2Proof.Machine

/-- One step: one of R21, or all of them that follow without waiting. -/
def step (s : State) : Host.Outcome State Fault Refusal :=
  match s.grain with
  | .event => advance s
  | .command => advanceWhole s

/-- `s` with the command of a table word presented to the idle instance, ahead of what the requester has presented, and
the steps joined, so that the very next one runs it. A command runs only on an instance strapped to its FAM (R51), so
the strap is set to the word's FAM; the table's lengths are those of binary64 (R49), so that is the NUM. -/
def State.withFetchWord (s : State) (nbits w : Nat) : State :=
  let c := tableWords nbits w
  { s with
    built := { s.built with family := (headerOf c.1).fam, num := .binary64 }
    seq := none
    resetIn := none
    cmdIn := c.1 :: c.2 ++ s.cmdIn
    grain := .command }

end Sys2Proof.Machine
end

