-- ==== Sys2Proof/Machine/Assembly.lean ====
section
/-! DEFINITION. The assembler of R55 and R56 on lines that are cut into a mnemonic and operands: the order in which a
command's operands are written, and the words it stands for. -/

namespace Sys2Proof.Machine

/-- A written operand (R55): a number, the spelling `true` or `false` (R56), a sequence of Actions (`on`, `off`,
`flip`), a sequence of numbers, an engineering value, a sequence of engineering values. -/
inductive AsmOperand where
  | num (n : Nat)
  | flag (b : Bool)
  | acts (l : List Action)
  | nums (l : List Nat)
  | val (v : EngValue)
  | vals (l : List EngValue)
deriving DecidableEq, Repr

/-- A line: the mnemonic and its operands. -/
structure AsmLine where
  mnemonic : String
  operands : List AsmOperand
deriving DecidableEq, Repr

/-- The mnemonic as R46 has it. -/
def mnemonicUpper : Opcode → String
  | .connect => "CONNECT"
  | .settag => "SETTAG"
  | .setaddr => "SETADDR"
  | .setuart => "SETUART"
  | .rdver => "RDVER"
  | .dioSetch => "DIO.SETCH"
  | .dioSetchs => "DIO.SETCHS"
  | .dioSetmode => "DIO.SETMODE"
  | .dioRdchs => "DIO.RDCHS"
  | .dioRdout => "DIO.RDOUT"
  | .rlySetch => "RLY.SETCH"
  | .rlySetchs => "RLY.SETCHS"
  | .rlyRdchs => "RLY.RDCHS"
  | .rlyOpen => "RLY.OPEN"
  | .rlyClose => "RLY.CLOSE"
  | .aiSettype => "AI.SETTYPE"
  | .aiSettypes => "AI.SETTYPES"
  | .aiGettypes => "AI.GETTYPES"
  | .aiRdch => "AI.RDCH"
  | .aiRdchs => "AI.RDCHS"
  | .aoSetch => "AO.SETCH"
  | .aoSetchs => "AO.SETCHS"
  | .aoGetvals => "AO.GETVALS"

/-- The mnemonic in lower case, as R55 has it. -/
def mnemonicLower : Opcode → String
  | .connect => "connect"
  | .settag => "settag"
  | .setaddr => "setaddr"
  | .setuart => "setuart"
  | .rdver => "rdver"
  | .dioSetch => "dio.setch"
  | .dioSetchs => "dio.setchs"
  | .dioSetmode => "dio.setmode"
  | .dioRdchs => "dio.rdchs"
  | .dioRdout => "dio.rdout"
  | .rlySetch => "rly.setch"
  | .rlySetchs => "rly.setchs"
  | .rlyRdchs => "rly.rdchs"
  | .rlyOpen => "rly.open"
  | .rlyClose => "rly.close"
  | .aiSettype => "ai.settype"
  | .aiSettypes => "ai.settypes"
  | .aiGettypes => "ai.gettypes"
  | .aiRdch => "ai.rdch"
  | .aiRdchs => "ai.rdchs"
  | .aoSetch => "ao.setch"
  | .aoSetchs => "ao.setchs"
  | .aoGetvals => "ao.getvals"

/-- All rows of R46, in its order. -/
def allOpcodes : List Opcode :=
  [.connect, .settag, .setaddr, .setuart, .rdver, .dioSetch, .dioSetchs, .dioSetmode, .dioRdchs, .dioRdout,
   .rlySetch, .rlySetchs, .rlyRdchs, .rlyOpen, .rlyClose, .aiSettype, .aiSettypes, .aiGettypes, .aiRdch, .aiRdchs,
   .aoSetch, .aoSetchs, .aoGetvals]

/-- The row of a mnemonic in lower or upper case (R55). -/
def opcodeOfMnemonic (m : String) : Option Opcode :=
  allOpcodes.find? (fun r => m == mnemonicLower r || m == mnemonicUpper r)

/-- A command as it is written: operands in the order A, B, payload; SETUART alone is written baud, parity, that is
B then A (R55). -/
def asmOf : Instr → AsmLine
  | .connect => ⟨mnemonicLower .connect, []⟩
  | .settag tag => ⟨mnemonicLower .settag, [.num tag.toNat]⟩
  | .setaddr address => ⟨mnemonicLower .setaddr, [.num address.toNat]⟩
  | .setuart baud parity => ⟨mnemonicLower .setuart, [.num baud.toNat, .num parity.toNat]⟩
  | .rdver => ⟨mnemonicLower .rdver, []⟩
  | .dioSetch channel on => ⟨mnemonicLower .dioSetch, [.num channel.toNat, .num on.toNat]⟩
  | .dioSetchs start actions => ⟨mnemonicLower .dioSetchs, [.num start.toNat, .acts actions]⟩
  | .dioSetmode channel mode => ⟨mnemonicLower .dioSetmode, [.num channel.toNat, .num mode.toNat]⟩
  | .dioRdchs => ⟨mnemonicLower .dioRdchs, []⟩
  | .dioRdout => ⟨mnemonicLower .dioRdout, []⟩
  | .rlySetch channel on => ⟨mnemonicLower .rlySetch, [.num channel.toNat, .num on.toNat]⟩
  | .rlySetchs start actions => ⟨mnemonicLower .rlySetchs, [.num start.toNat, .acts actions]⟩
  | .rlyRdchs => ⟨mnemonicLower .rlyRdchs, []⟩
  | .rlyOpen channel => ⟨mnemonicLower .rlyOpen, [.num channel.toNat]⟩
  | .rlyClose channel => ⟨mnemonicLower .rlyClose, [.num channel.toNat]⟩
  | .aiSettype channel type => ⟨mnemonicLower .aiSettype, [.num channel.toNat, .num type.toNat]⟩
  | .aiSettypes types => ⟨mnemonicLower .aiSettypes, [.nums (types.toList.map BitVec.toNat)]⟩
  | .aiGettypes => ⟨mnemonicLower .aiGettypes, []⟩
  | .aiRdch channel => ⟨mnemonicLower .aiRdch, [.num channel.toNat]⟩
  | .aiRdchs => ⟨mnemonicLower .aiRdchs, []⟩
  | .aoSetch channel value => ⟨mnemonicLower .aoSetch, [.num channel.toNat, .val value]⟩
  | .aoSetchs values => ⟨mnemonicLower .aoSetchs, [.vals values.toList]⟩
  | .aoGetvals => ⟨mnemonicLower .aoGetvals, []⟩

/-- A number that fits field A (R45). -/
def asmByte (n : Nat) : Option Byte := if n < 256 then some (BitVec.ofNat 8 n) else none

/-- A number that fits field B (R45). -/
def asmHalf (n : Nat) : Option Half := if n < 65536 then some (BitVec.ofNat 16 n) else none

/-- Numbers that fit 16 bits each. -/
def asmHalves : List Nat → Option (List Half)
  | [] => some []
  | n :: ns =>
    match asmHalf n, asmHalves ns with
    | some h, some hs => some (h :: hs)
    | _, _ => none

/-- The flag of SETCH: 0, 1, false or true (R55, R56). -/
def asmFlag : AsmOperand → Option Bool
  | .num 0 => some false
  | .num 1 => some true
  | .flag b => some b
  | _ => none

/-- A batch of at most 255 Actions from a start channel (R47). -/
def asmBatch (make : Byte → List Action → Instr) (start : Nat) (actions : List Action) : Option Instr :=
  if actions.length ≤ 255 then (asmByte start).map (fun s => make s actions) else none

/-- A channel and a flag. -/
def asmSetch (make : Byte → Bool → Instr) (channel : Nat) (on : AsmOperand) : Option Instr :=
  match asmByte channel, asmFlag on with
  | some c, some b => some (make c b)
  | _, _ => none

/-- A field A and a field B. -/
def asmPair (make : Byte → Half → Instr) (a b : Nat) : Option Instr :=
  match asmByte a, asmHalf b with
  | some x, some y => some (make x y)
  | _, _ => none

/-- The command of a row with these operands; none if their number, kind or range is not the row's. -/
def assembleRow (r : Opcode) (operands : List AsmOperand) : Option Instr :=
  match r, operands with
  | .connect, [] => some .connect
  | .settag, [.num t] => (asmHalf t).map .settag
  | .setaddr, [.num a] => (asmHalf a).map .setaddr
  | .setuart, [.num baud, .num parity] => asmPair (fun p b => .setuart b p) parity baud
  | .rdver, [] => some .rdver
  | .dioSetch, [.num c, on] => asmSetch .dioSetch c on
  | .dioSetchs, [.num s, .acts l] => asmBatch .dioSetchs s l
  | .dioSetmode, [.num c, .num m] => asmPair .dioSetmode c m
  | .dioRdchs, [] => some .dioRdchs
  | .dioRdout, [] => some .dioRdout
  | .rlySetch, [.num c, on] => asmSetch .rlySetch c on
  | .rlySetchs, [.num s, .acts l] => asmBatch .rlySetchs s l
  | .rlyRdchs, [] => some .rlyRdchs
  | .rlyOpen, [.num c] => (asmByte c).map .rlyOpen
  | .rlyClose, [.num c] => (asmByte c).map .rlyClose
  | .aiSettype, [.num c, .num t] => asmPair .aiSettype c t
  | .aiSettypes, [.nums l] => ((asmHalves l).bind octOfList?).map .aiSettypes
  | .aiGettypes, [] => some .aiGettypes
  | .aiRdch, [.num c] => (asmByte c).map .aiRdch
  | .aiRdchs, [] => some .aiRdchs
  | .aoSetch, [.num c, .val v] => (asmByte c).map (fun x => .aoSetch x v)
  | .aoSetchs, [.vals l] => (octOfList? l).map .aoSetchs
  | .aoGetvals, [] => some .aoGetvals
  | _, _ => none

/-- The command a line stands for (R55, R56). -/
def assembleLine (l : AsmLine) : Option Instr :=
  match opcodeOfMnemonic l.mnemonic with
  | none => none
  | some r => assembleRow r l.operands

end Sys2Proof.Machine
end

