-- ==== Sys2Proof/Machine/Flags.lean ====
section
/-! DEFINITION. WSIO-MAP has no flags and no condition codes: the outcome of a command is the status of its response,
an output (R15). This file holds the codes of that output: the 3-bit status codes (R57, R101) and the words a response
payload is written in where the spec says so (R49, R57). -/

namespace Sys2Proof.Machine

/-- The 3-bit code of a status; codes 5 to 7 never occur (R57, R101). -/
def statusCode : Status → BitVec 3
  | .ok => 0
  | .invalidChannel => 1
  | .invalidDeviceAddress => 2
  | .transportFailure => 3
  | .illegalCommand => 4

/-- The statuses that are raised before any transport call (R108). -/
def isValidationError : Status → Bool
  | .ok => false
  | .invalidChannel => true
  | .invalidDeviceAddress => true
  | .transportFailure => false
  | .illegalCommand => true

/-- A bank record of a response as bits: one 8-bit word with channel `i` at bit `i` (R57). -/
def bankWord (r : Bank) : Byte := encodeBank r

/-- The engineering values of a response as words, each as in a command (R49, R57); other payloads have none. -/
def engineeringWords (num : Numerics) : Payload → List Word
  | .none => []
  | .register _ => []
  | .codes _ => []
  | .bank _ => []
  | .value v => wordsOfValue num v
  | .values vs => vs.toList.flatMap (wordsOfValue num)

end Sys2Proof.Machine
end

