-- ==== Sys2Proof/Safety.lean ====
section
/-! DEFINITION. What a run of an instance must look like on its ports: the protocol of R16, R35, R57, R101, R104, R105,
R108, R109 and R116 as an automaton over the recorded events, and the invariants of a state. -/

namespace Sys2Proof.Machine

/-- Where an instance is in its protocol. -/
inductive Phase where
  /-- No command. -/
  | idle
  /-- A command was taken, `done` of its calls are completed and none is outstanding. -/
  | running (done : Nat)
  /-- The call `c` is outstanding. -/
  | waiting (done : Nat) (c : Call)
  /-- The transport failed a call after `done` completed ones. -/
  | failed (done : Nat)
deriving DecidableEq, Repr

/-- A response that may end a command none of whose calls failed: `done` is its count of completed calls (R116); OK,
or an error that was raised before any call, without payload (R57, R108). -/
def mayEnd (done : Nat) (r : Response) : Bool :=
  r.done == done &&
    match r.status with
    | .ok => true
    | .transportFailure => false
    | _ => done == 0 && r.payload == .none

/-- One event. A command is taken only when idle; a call is issued only when none is outstanding; an answer comes only
to an outstanding call; after a failed call nothing but the one TransportFailure response with the count of completed
calls; a reset abandons the command (R16, R35, R57, R105, R109, R116, R117). -/
def phaseStep (p : Phase) (e : Event) : Option Phase :=
  match p, e with
  | _, .reset => some .idle
  | .idle, .taken _ _ => some (.running 0)
  | .running k, .call c => some (.waiting k c)
  | .waiting k c, .answer a => if (accept c a).isSome then some (.running (k + 1)) else some (.failed k)
  | .running k, .response r => if mayEnd k r then some .idle else none
  | .failed k, .response r => if r = ⟨.transportFailure, k, .none⟩ then some .idle else none
  | _, _ => none

/-- The phase after a sequence of events; none if the protocol does not allow it. -/
def phaseAfter (p : Phase) : List Event → Option Phase
  | [] => some p
  | e :: es =>
    match phaseStep p e with
    | none => none
    | some q => phaseAfter q es

/-- SEQ says that the call number `done` of its command is outstanding, or that its last call failed, or that `done` of
its calls are completed and its next call or its response is to come. -/
def InFlight.inPhase (f : InFlight) (p : Plan) (phase : Phase) : Prop :=
  match f.failed, f.outstanding with
  | false, true => ∃ cs reply c, p = .calls cs reply ∧ cs[f.done]? = some c ∧ phase = .waiting f.done c
  | true, false => phase = .failed f.done
  | false, false =>
    phase = .running f.done ∧ (f.done = 0 ∨ ∃ cs reply, p = .calls cs reply ∧ f.done ≤ cs.length)
  | true, true => False

/-- The record follows the protocol, and SEQ says where in it the instance is (R17). -/
def State.followsProtocol (s : State) : Prop :=
  match s.seq with
  | none => phaseAfter .idle s.trace = some .idle
  | some f => ∃ phase, phaseAfter .idle s.trace = some phase ∧ f.inPhase (planOfHeld f.cmd s) phase

/-- `n` steps of R21, stopping at a refusal. -/
def advanceTimes : Nat → State → Host.Outcome State Fault Refusal
  | 0, s => .next s
  | n + 1, s =>
    match advance s with
    | .next t => advanceTimes n t
    | .fault r => .fault r
    | .refused r => .refused r

/-- TAG is never 0 (R11); above 255 it cannot be, by its width. -/
def State.tagLegal (s : State) : Prop := s.tag ≠ 0

/-- The events a later state records beyond an earlier one. -/
def eventsSince (s t : State) : List Event := t.trace.drop s.trace.length

/-- The calls among some events, in order. -/
def callsIn : List Event → List Call
  | [] => []
  | .call c :: es => c :: callsIn es
  | .taken _ _ :: es => callsIn es
  | .answer _ :: es => callsIn es
  | .response _ :: es => callsIn es
  | .reset :: es => callsIn es

/-- The responses among some events, in order. -/
def responsesIn : List Event → List Response
  | [] => []
  | .response r :: es => r :: responsesIn es
  | .taken _ _ :: es => responsesIn es
  | .call _ :: es => responsesIn es
  | .answer _ :: es => responsesIn es
  | .reset :: es => responsesIn es

/-- The state after a command that made no call: idle, its response delivered, everything else as before. -/
def State.afterNoCall (s : State) (r : Response) : State :=
  { s with seq := none, trace := s.trace ++ [.response r] }

/-- The state after a command that made one call `c`, answered `a`: idle, everything else as before. -/
def State.afterCall (s : State) (c : Call) (a : Answer) (rest : List Answer) (r : Response) : State :=
  { s with seq := none, ansIn := rest, trace := s.trace ++ [.call c, .answer a, .response r] }

/-- The state in which the first call `c` of the command `i` is outstanding, everything else as before (R17, R27). -/
def State.awaiting (s : State) (i : Instr) (c : Call) : State :=
  { s with seq := some ⟨.legal i, 0, ⟨[], []⟩, true, false⟩, trace := s.trace ++ [.call c] }

/-- The address `base + offset`, summed in the natural numbers (R30). -/
def addressAt (base : ChannelBase) (offset : Nat) : Addr := BitVec.ofNat 16 (base.val + offset)

/-- The calls of a batch of Actions written from channel `start`, each answered "done" (R80, R87). -/
def coilEvents (base : ChannelBase) (tag : Byte) (start : Nat) (actions : List Action) : List Event :=
  actions.zipIdx.flatMap (fun p =>
    [.call (.writeCoil (addressAt base (start + p.2)) (actionPattern p.1) tag), .answer .done])

/-- The reads of AI.RDCHS for channels 0, 1, …, each answered with one of the raw values (R96). -/
def inputEvents (base : ChannelBase) (tag : Byte) (raws : List Half) : List Event :=
  raws.zipIdx.flatMap (fun p => [.call (.readInputs (addressAt base p.2) 1 tag), .answer (.words [p.1])])

/-- The row of R23 for a command: the primitive, the space, the address and the units of every call it may make. -/
def allowedCall (i : Instr) (b : Build) (c : Call) : Prop :=
  match i with
  | .connect => c = .connect
  | .settag _ => False
  | .setaddr _ => ∃ v t, c = .writeHolding (deviceAddressBase b) v t
  | .setuart _ _ => ∃ v t, c = .writeHolding (uartParametersBase b) v t
  | .rdver => ∃ t, c = .readHoldings (softwareVersionBase b) 1 t
  | .dioSetch ch _ => ∃ v t, c = .writeCoil (addressAt b.dio.outputChannelBase ch.toNat) v t
  | .dioSetchs st as => ∃ k v t, k < as.length ∧ c = .writeCoil (addressAt b.dio.outputChannelBase (st.toNat + k)) v t
  | .dioSetmode ch _ => ∃ v t, c = .writeHolding (addressAt b.dio.outputChannelBase ch.toNat) v t
  | .dioRdchs => ∃ t, c = .readDiscretes (addressAt b.dio.inputChannelsBase 0) 8 t
  | .dioRdout => ∃ t, c = .readCoils (addressAt b.dio.outputChannelBase 0) 8 t
  | .rlySetch ch _ => ∃ v t, c = .writeCoil (addressAt b.rly.outputChannelBase ch.toNat) v t
  | .rlySetchs st as => ∃ k v t, k < as.length ∧ c = .writeCoil (addressAt b.rly.outputChannelBase (st.toNat + k)) v t
  | .rlyRdchs => ∃ t, c = .readCoils (addressAt b.rly.outputChannelBase 0) 8 t
  | .rlyOpen ch => ∃ v t, c = .writeCoil (addressAt b.rly.outputChannelBase ch.toNat) v t
  | .rlyClose ch => ∃ v t, c = .writeCoil (addressAt b.rly.outputChannelBase ch.toNat) v t
  | .aiSettype ch _ => ∃ v t, c = .writeHolding (addressAt b.ai.channelTypesBase ch.toNat) v t
  | .aiSettypes _ => ∃ v t, c = .writeHoldings (addressAt b.ai.channelTypesBase 0) v t
  | .aiGettypes => ∃ t, c = .readHoldings (addressAt b.ai.channelTypesBase 0) 8 t
  | .aiRdch ch => ∃ t, c = .readInputs (addressAt b.ai.inputChannelsBase ch.toNat) 1 t
  | .aiRdchs => ∃ k t, k < 8 ∧ c = .readInputs (addressAt b.ai.inputChannelsBase k) 1 t
  | .aoSetch ch _ => ∃ v t, c = .writeHolding (addressAt b.ao.outputsBase ch.toNat) v t
  | .aoSetchs _ => ∃ v t, c = .writeHoldings (addressAt b.ao.outputsBase 0) v t
  | .aoGetvals => ∃ t, c = .readHoldings (addressAt b.ao.outputsBase 0) 8 t

/-- The number of calls of a command that is OK: 0 for SETTAG, n for SETCHS, 8 for AI.RDCHS, 1 for every other (R128). -/
def callCount : Instr → Nat
  | .settag _ => 0
  | .dioSetchs _ actions => actions.length
  | .rlySetchs _ actions => actions.length
  | .aiRdchs => 8
  | _ => 1

/-- The form of the payload of a command that is OK (R57). -/
def payloadFits (i : Instr) (p : Payload) : Prop :=
  match i with
  | .rdver => ∃ v, p = .register v
  | .dioRdchs => ∃ r, p = .bank r
  | .dioRdout => ∃ r, p = .bank r
  | .rlyRdchs => ∃ r, p = .bank r
  | .aiGettypes => ∃ v, p = .codes v
  | .aiRdch _ => ∃ v, p = .value v
  | .aiRdchs => ∃ v, p = .values v
  | .aoGetvals => ∃ v, p = .values v
  | _ => p = .none

end Sys2Proof.Machine
end

