-- ==== Sys2Proof/Machine/System.lean ====
section
/-! DEFINITION. Several instances on one transport (R41, R114, R126): each has its own TAG, strap, descriptors and SEQ;
what is shared is the line, on which the transport takes the calls one at a time. A run goes by the steps of R21. -/

namespace Sys2Proof.Machine

/-- Instances, each under its number, none where it is discarded (R121), and the calls the shared transport has taken,
in order. -/
structure System where
  instances : List (Option State)
  line : List (Nat × Call)
deriving DecidableEq, Repr

/-- What can happen next, to instance `k` (R21, R117, R121). -/
inductive Stimulus where
  /-- The requester has more words for the instance. -/
  | present (k : Nat) (words : List Word)
  /-- A step of R21 on the instance's side: it is handed its next command, issues its next call, or delivers its
  response. -/
  | run (k : Nat)
  /-- The transport answers the outstanding call. -/
  | answer (k : Nat) (a : Answer)
  /-- The instance is reset. -/
  | reset (k : Nat) (given : Option Nat)
  /-- The owner discards the instance. -/
  | discard (k : Nat)
deriving DecidableEq, Repr

/-- The instance an event concerns. -/
def stimulusTarget : Stimulus → Nat
  | .present k _ => k
  | .run k => k
  | .answer k _ => k
  | .reset k _ => k
  | .discard k => k

/-- The instance is kept. -/
def keep (o : Host.Outcome State Fault Refusal) : Host.Outcome (Option State) Fault Refusal :=
  match o with
  | .next t => .next (some t)
  | .fault r => .fault r
  | .refused r => .refused r

/-- The transport's answer: it comes only to an outstanding call, and that call is answered by it (R27). -/
def answerOutstanding (a : Answer) (s : State) : Host.Outcome State Fault Refusal :=
  match s.seq with
  | some f => if f.outstanding then resumeOnce f { s with ansIn := a :: s.ansIn } else .next s
  | none => .next s

/-- What an event makes of its instance; none if it is discarded, which only an idle one can be (R121). -/
def stimulate (e : Stimulus) (s : State) : Host.Outcome (Option State) Fault Refusal :=
  match e with
  | .present _ words => .next (some { s with cmdIn := s.cmdIn ++ words })
  | .run _ => keep (advance s)
  | .answer _ a => keep (answerOutstanding a s)
  | .reset _ given => keep (resetInstance ⟨given⟩ s)
  | .discard _ => .next (if mayDiscard s then none else some s)

/-- The calls an instance has issued since `s`. -/
def newCalls (s : State) : Option State → List Call
  | some t => callsIn (eventsSince s t)
  | none => []

/-- Apply one event. A call goes onto the shared line when it is issued, so that calls of different instances
interleave at the grain of one call (R114). A discarded instance makes no call (R121). -/
def applyStimulus (e : Stimulus) (y : System) : Host.Outcome System Fault Refusal :=
  let k := stimulusTarget e
  match y.instances[k]? with
  | some (some s) =>
    match stimulate e s with
    | .next t => .next ⟨y.instances.set k t, y.line ++ (newCalls s t).map (fun c => (k, c))⟩
    | .fault r => .fault r
    | .refused r => .refused r
  | _ => .next y

/-- The calls of instance `k` on the shared line, in the order the transport took them. -/
def lineOf (k : Nat) (y : System) : List Call :=
  (y.line.filter (fun p => p.1 == k)).map (fun p => p.2)

/-- The shared line holds, for every instance, exactly the calls it has issued, in its own order (R35, R41, R114). -/
def System.lineKeepsOrder (y : System) : Prop :=
  ∀ k s, y.instances[k]? = some (some s) → lineOf k y = callsIn s.trace

/-- The run is over: every instance that is not discarded is idle and the requester has no further command (R121). -/
def System.over (y : System) : Bool :=
  y.instances.all (fun o =>
    match o with
    | some s => runOver s
    | none => true)

end Sys2Proof.Machine
end

