-- ==== Sys2Proof/Certificates/Slice0/Obligations.lean ====
section
/-! DEFINITION. The statements for the provers. The words used in them, the state after a command with no call or with
one call, the state in which a call is outstanding, the events of a batch, the table of R23, are defined in Safety.lean. -/

open Sys2Proof Sys2Proof.Machine

/-! ## Codecs and scaler -/

/-- R64: the laws of the bit-bank codec. -/
def Obligations.BankCodecLaws : Prop :=
  (∀ r : Bank, decodeBank (encodeBank r) = r) ∧
  (∀ w : Byte, encodeBank (decodeBank w) = w) ∧
  (∀ w : Byte, packBits (unpackBits w) = w) ∧
  (∀ s : List Bool, s.length = 8 → unpackBits (packBits s) = s) ∧
  (∀ s : List Bool, s.length = 8 → encodeBank (decodeBank (packBits s)) = packBits s) ∧
  Function.Bijective decodeBank ∧ Function.Bijective encodeBank ∧
  (∀ w1 w2 : Byte, decodeBank (w1 ||| w2) =
    ⟨(decodeBank w1).ch0 || (decodeBank w2).ch0, (decodeBank w1).ch1 || (decodeBank w2).ch1,
     (decodeBank w1).ch2 || (decodeBank w2).ch2, (decodeBank w1).ch3 || (decodeBank w2).ch3,
     (decodeBank w1).ch4 || (decodeBank w2).ch4, (decodeBank w1).ch5 || (decodeBank w2).ch5,
     (decodeBank w1).ch6 || (decodeBank w2).ch6, (decodeBank w1).ch7 || (decodeBank w2).ch7⟩)

/-- R59: the field view of the UART word, and its value. -/
def Obligations.UartWordFields : Prop :=
  ∀ (baud : Half) (parity : Byte),
    (uartWord baud parity).extractLsb' 0 16 = baud ∧
    (uartWord baud parity).extractLsb' 16 8 = parity ∧
    (uartWord baud parity).extractLsb' 24 8 = 0 ∧
    (uartWord baud parity).toNat = parity.toNat * 65536 + baud.toNat

/-- R30 and R31: the mapper on a channel base does not wrap, and two channels never map to one address. -/
def Obligations.MapperInjectiveWithoutWrap : Prop :=
  ∀ (base : ChannelBase) (k m : Nat), k ≤ 7 → m ≤ 7 →
    mapAddr base.addr k = addressAt base k ∧ base.val + k ≤ 0xFFFF ∧
    (mapAddr base.addr k = mapAddr base.addr m → k = m)

/-- The rounding used by both scaler operations gives the nearest integer to n / d, and the even one on a tie (R70). -/
def Obligations.RoundNearestEvenIsNearest : Prop :=
  ∀ n d : Nat, 0 < d →
    2 * n ≤ (2 * roundNearestEven n d + 1) * d ∧ 2 * roundNearestEven n d * d ≤ 2 * n + d ∧
    (2 * n = (2 * roundNearestEven n d + 1) * d → roundNearestEven n d % 2 = 0) ∧
    (2 * n + d = 2 * roundNearestEven n d * d → roundNearestEven n d % 2 = 0)

/-- `div1000` of the binary64 instance is the finite binary64 value nearest to raw / 1000 (R70). -/
def Obligations.Div1000CorrectlyRounded : Prop :=
  ∀ raw : Half, binary64Finite (binary64Div1000 raw) = true ∧
    ∀ y : Binary64, binary64Finite y = true →
      |binary64ToRat (binary64Div1000 raw) - (raw.toNat : Rat) / 1000| ≤
        |binary64ToRat y - (raw.toNat : Rat) / 1000|

/-- P1 and P2 of R69 in the binary64 instance. -/
def Obligations.ScalerBinary64RoundTripWithinOne : Prop :=
  ∀ v : Half, ∃ r : Half, toRaw binary64 (toEngineering binary64 v) = some r ∧
    v.toNat ≤ r.toNat + 1 ∧ r.toNat ≤ v.toNat

/-- P1, P2 and P3 of R69 in the exact instance, alone and as the NUM an instance is built with (R65): AI.RDCH
then returns raw / 1000 exactly, and AO.SETCH of that value writes the raw value back. -/
def Obligations.ScalerExactRoundTrip : Prop :=
  (∀ v : Half, toRaw exactRational (toEngineering exactRational v) = some v) ∧
  (∀ (w : Nat) (v : Half), toEngineering (numOf (.exact w)) v = .rational ((v.toNat : Rat) / 1000)) ∧
  (∀ (w : Nat) (ch : Byte) (v : Half) (s : State), s.built.num = .exact w → ch.toNat ≤ 7 →
    (s.ansIn = [.words [v]] → exec (.aiRdch ch) s =
      .next (s.afterCall (.readInputs (addressAt s.built.ai.inputChannelsBase ch.toNat) 1 s.tag) (.words [v]) []
        ⟨.ok, 1, .value (.rational ((v.toNat : Rat) / 1000))⟩)) ∧
    (s.ansIn = [.done] → exec (.aoSetch ch (.rational ((v.toNat : Rat) / 1000))) s =
      .next (s.afterCall (.writeHolding (addressAt s.built.ao.outputsBase ch.toNat) (BitVec.ofNat 32 v.toNat) s.tag)
        .done [] ⟨.ok, 1, .none⟩)))

/-- P3 of R69 fails in the binary64 instance: the smallest value that does not come back is 1001, the largest 65526,
and each comes back one lower. -/
def Obligations.ScalerBinary64FirstAndLastLoss : Prop :=
  toRaw binary64 (toEngineering binary64 1001) = some 1000 ∧
  toRaw binary64 (toEngineering binary64 65526) = some 65525 ∧
  (∀ n : Nat, n < 1001 →
    toRaw binary64 (toEngineering binary64 (BitVec.ofNat 16 n)) = some (BitVec.ofNat 16 n)) ∧
  (∀ n : Nat, 65526 < n → n < 65536 →
    toRaw binary64 (toEngineering binary64 (BitVec.ofNat 16 n)) = some (BitVec.ofNat 16 n))

/-- P4 of R69 in the binary64 instance: 1000 k reads as exactly k, and that value is written as 1000 k. -/
def Obligations.ScalerBinary64ExactOnThousands : Prop :=
  ∀ k : Nat, k ≤ 65 →
    binary64ToRat (toEngineering binary64 (BitVec.ofNat 16 (1000 * k))) = (k : Rat) ∧
    toRaw binary64 (toEngineering binary64 (BitVec.ofNat 16 (1000 * k))) = some (BitVec.ofNat 16 (1000 * k))

/-- P5 of R69 in the binary64 instance: `to_raw` is monotone on its domain. -/
def Obligations.ScalerBinary64Monotone : Prop :=
  ∀ (x y : Binary64) (a b : Half), binary64ToRat x ≤ binary64ToRat y →
    toRaw binary64 x = some a → toRaw binary64 y = some b → a.toNat ≤ b.toNat

/-- P5 and P6 of R69 in the exact instance: monotone, and truncation toward zero. -/
def Obligations.ScalerExactTruncates : Prop :=
  (∀ (x y : Rat) (a b : Half), x ≤ y → toRaw exactRational x = some a → toRaw exactRational y = some b →
    a.toNat ≤ b.toNat) ∧
  (∀ (x : Rat) (a : Half), 0 ≤ x → toRaw exactRational x = some a →
    (a.toNat : Rat) ≤ 1000 * x ∧ 1000 * x < (a.toNat : Rat) + 1)

/-- R67 and P6 of R69: at one binary64 number the binary64 instance gives what the exact one gives or one more, never
less. -/
def Obligations.ScalerBinary64AtMostOneAbove : Prop :=
  ∀ (x : Binary64) (a b : Half), toRaw binary64 x = some a →
    toRaw exactRational (binary64ToRat x) = some b → a.toNat = b.toNat ∨ a.toNat = b.toNat + 1

/-- R58, R101, R57, R49: the Action patterns, the status codes and the words of a response. -/
def Obligations.OutputCodes : Prop :=
  actionPattern .on = 0xFF00 ∧ actionPattern .off = 0x0000 ∧ actionPattern .flip = 0x5500 ∧
  (∀ b : Bool, actionOfBool b = actionPattern (if b then .on else .off)) ∧
  statusCode .ok = 0 ∧ statusCode .invalidChannel = 1 ∧ statusCode .invalidDeviceAddress = 2 ∧
  statusCode .transportFailure = 3 ∧ statusCode .illegalCommand = 4 ∧
  (∀ w : Byte, bankWord (decodeBank w) = w) ∧
  (∀ (lo hi : Word), engineeringWords .binary64 (.value (.float (binary64OfWords lo hi))) = [lo, hi])

/-! ## Encoding -/

/-- Decoding the encoding of a well-formed command gives it back, with every operand (R43, R45, R46, R47, R49, R54), in
every NUM. How a value of another NUM than binary64 stands in words is the model's choice (log 7, DESIGN CHOICE). -/
def Obligations.DecodeOfEncode : Prop :=
  ∀ (num : Numerics) (strap : Family) (i : Instr), i.wellFormed num strap = true →
    ∃ h payload, encode num strap i = h :: payload ∧ payload.length = paylen num h ∧
      decode num strap h payload = .legal i

/-- A header and payload that decode to a command are its encoding, and the command is well-formed: no legal encoding
has a second meaning, and no bit is ignored (R46, R50, R53, R54), in every NUM. How a value of another NUM than binary64
stands in words is the model's choice (log 7, DESIGN CHOICE). -/
def Obligations.EncodeOfDecode : Prop :=
  ∀ (num : Numerics) (strap : Family) (h : Word) (payload : List Word) (i : Instr),
    decode num strap h payload = .legal i → encode num strap i = h :: payload ∧ i.wellFormed num strap = true

/-- A stream of commands stays in step: whatever follows, the decoder cuts exactly the command's words (R43, R48). With
another NUM the payload of AO.SETCH is the words of one value of F, that of AO.SETCHS eight times as many, and no other
length changes (R49); how many words a value then has is the model's choice (log 7, DESIGN CHOICE). -/
def Obligations.FetchCutsOneCommand : Prop :=
  (∀ (num : Numerics) (strap : Family) (i : Instr) (rest : List Word), i.wellFormed num strap = true →
    ∃ h payload, encode num strap i = h :: payload ∧
      fetchCommand num (encode num strap i ++ rest) = some (h, payload, rest)) ∧
  (∀ (num : Numerics) (h : Header),
    paylen num (headerWord h) =
      if h.fam = .ao ∧ h.op = 0x10 then valueWords num
      else if h.fam = .ao ∧ h.op = 0x11 then 8 * valueWords num
      else paylen .binary64 (headerWord h))

/-- R48, in the decided NUM: the number of payload words is a function of FAM, OP and, for SETCHS, B[7:0]. -/
def Obligations.PayloadLengthTable : Prop :=
  ∀ h : Header,
    paylen .binary64 (headerWord h) =
      if h.op = 0x11 ∧ (h.fam = .dio ∨ h.fam = .rly) then h.b.toNat % 256
      else if h.op = 0x11 ∧ h.fam = .ai then 8
      else if h.op = 0x10 ∧ h.fam = .ao then 2
      else if h.op = 0x11 ∧ h.fam = .ao then 16
      else 0

/-- R46: a header has match and mask of a row iff its FAM and OP are that row's and its reserved fields are zero; so
the rows are disjoint. -/
def Obligations.HeaderSelectsOneRow : Prop :=
  (∀ (h : Word) (r : Opcode), selectsRow h r = true ↔
    opcodeOf (headerOf h).fam (headerOf h).op = some r ∧
      reservedClear r (headerOf h).a (headerOf h).b = true) ∧
  (∀ (h : Word) (r q : Opcode), selectsRow h r = true → selectsRow h q = true → r = q)

/-- R51: a header whose FAM differs from the strap is illegal, whatever its OP. -/
def Obligations.FamilyMismatchIsIllegal : Prop :=
  ∀ (num : Numerics) (strap : Family) (h : Word) (payload : List Word), payload.length = paylen num h →
    (headerOf h).fam ≠ strap → decode num strap h payload = .illegal .familyMismatch

/-- R52: the undefined OP numbers of each family, that no other OP is undefined, and that a header with one is illegal
on the instance of its own family, whatever its fields and payload. -/
def Obligations.UndefinedOpcodesAreIllegal : Prop :=
  (∀ (num : Numerics) (h : Word) (payload : List Word), payload.length = paylen num h →
    opcodeOf (headerOf h).fam (headerOf h).op = none →
    decode num (headerOf h).fam h payload = .illegal .undefinedOpcode) ∧
  (∀ (fam : Family) (op : BitVec 6),
    opcodeOf fam op = none ↔
      (0x05 ≤ op.toNat ∧ op.toNat ≤ 0x0F) ∨ 0x17 ≤ op.toNat ∨
      (match fam with
        | .dio => op.toNat = 0x15 ∨ op.toNat = 0x16
        | .rly => op.toNat = 0x12 ∨ op.toNat = 0x14
        | .ai => op.toNat = 0x15 ∨ op.toNat = 0x16
        | .ao => 0x13 ≤ op.toNat ∧ op.toNat ≤ 0x16))

/-- R50 and R53 for the batch commands: with a legal header on its own family, the payload is illegal as soon as one of
its words has a bit in 31:16 or no Action in 15:0. -/
def Obligations.BatchPayloadWordsMustBeActions : Prop :=
  ∀ (num : Numerics) (fam : Family) (start : Byte) (payload : List Word) (w : Word),
    (fam = .dio ∨ fam = .rly) → payload.length ≤ 255 → w ∈ payload →
    (payloadHigh w ≠ 0 ∨ (payloadLow w ≠ 0xFF00 ∧ payloadLow w ≠ 0x0000 ∧ payloadLow w ≠ 0x5500)) →
    ∃ why, (why = .reservedPayloadBits ∨ why = .notAnAction) ∧
      decode num fam (headerWord ⟨fam, 0x11, start, BitVec.ofNat 16 payload.length⟩) payload = .illegal why

/-- One word of each family, written out from R43 and R46, decodes to the command it stands for (95_test_vectors.md
section 2.6). -/
def Obligations.KnownWordsDecode : Prop :=
  decode .binary64 .ai 0x83020005 [] = .legal (.setuart 5 2) ∧
  decode .binary64 .dio 0x10030001 [] = .legal (.dioSetch 3 true) ∧
  decode .binary64 .dio 0x11060002 [0x0000FF00, 0x00005500] = .legal (.dioSetchs 6 [.on, .flip]) ∧
  decode .binary64 .rly 0x55040000 [] = .legal (.rlyOpen 4) ∧
  decode .binary64 .ai 0x90050003 [] = .legal (.aiSettype 5 3) ∧
  decode .binary64 .ao 0xD0020000 [0x00000000, 0x3FF80000] = .legal (.aoSetch 2 (.float 0x3FF8000000000000))

/-- The assembler gives back every command from the line it is written as (R55, R56). -/
def Obligations.AssembleOfAsm : Prop :=
  ∀ i : Instr, i.batchFits = true → assembleLine (asmOf i) = some i

/-! ## The step -/

/-- A step of an idle instance runs the decoded command (R16, R21, R54): with a command the strap accepts at the head
of the presented words, the joined step is `exec` of it in the state in which its words are taken, and nothing else;
the single step only hands it over, and SEQ then holds it with no call completed and none outstanding. That a step may
be joined is the model's choice (log 1). -/
def Obligations.StepRunsDecodedCommand : Prop :=
  ∀ (i : Instr) (s : State) (rest : List Word),
    s.resetIn = none → s.seq = none → i.wellFormed s.built.num s.built.family = true →
    s.cmdIn = encode s.built.num s.built.family i ++ rest →
    ∃ h payload, encode s.built.num s.built.family i = h :: payload ∧
      (s.grain = .command →
        step s = exec i { s with cmdIn := rest, trace := s.trace ++ [.taken h payload] }) ∧
      (s.grain = .event →
        step s = .next { s with
          cmdIn := rest, seq := some ⟨.legal i, 0, ⟨[], []⟩, false, false⟩,
          trace := s.trace ++ [.taken h payload] })

/-- R106, R104: an illegal command is taken whole and answered IllegalCommand, with no call and no state change: in one
joined step (log 1), or, by the steps of R21, handed over in one step and answered in the next. That SEQ holds between
the two that the words are no command, and why, is the model's deduction (log 21, DEDUCED). -/
def Obligations.IllegalCommandIsAnswered : Prop :=
  (∀ (s : State) (h : Word) (payload rest : List Word) (why : Illegal),
    s.resetIn = none → s.seq = none → s.cmdIn = h :: (payload ++ rest) →
    payload.length = paylen s.built.num h →
    decode s.built.num s.built.family h payload = .illegal why →
    (s.grain = .command →
      step s = .next { s with
        cmdIn := rest, trace := s.trace ++ [.taken h payload, .response ⟨.illegalCommand, 0, .none⟩] }) ∧
    (s.grain = .event →
      step s = .next { s with
        cmdIn := rest, seq := some ⟨.illegal why, 0, ⟨[], []⟩, false, false⟩,
        trace := s.trace ++ [.taken h payload] })) ∧
  (∀ (s : State) (why : Illegal), s.resetIn = none → s.seq = some ⟨.illegal why, 0, ⟨[], []⟩, false, false⟩ →
    step s = .next { s with seq := none, trace := s.trace ++ [.response ⟨.illegalCommand, 0, .none⟩] })

/-- An idle instance with no complete command presented waits, and so does an instance in flight whose call is not
answered: the run is not over (R16, R27, R120, R121). That a waiting instance makes a step that answers the same state
is the model's choice (log 12), and so is that a command presented only in part is waited for (log 5). Where the run is
over for an instance nothing more happens to it (R121). -/
def Obligations.InstanceWaits : Prop :=
  (∀ s : State, s.resetIn = none → s.seq = none → fetchCommand s.built.num s.cmdIn = none → step s = .next s) ∧
  (∀ (s : State) (f : InFlight), s.resetIn = none → s.seq = some f → s.followsProtocol → f.outstanding = true →
    s.ansIn = [] → step s = .next s ∧ runOver s = false) ∧
  (∀ s : State, s.resetIn = none → runOver s = true → step s = .next s)

/-- R16: while a command is in flight no other is taken. -/
def Obligations.CommandInFlightHoldsOffTheNext : Prop :=
  ∀ (s t : State) (f : InFlight), s.resetIn = none → s.seq = some f → step s = .next t →
    t.cmdIn = s.cmdIn ∧ ∀ h payload, Event.taken h payload ∉ eventsSince s t

/-- R117 and R118: what a reset does, in every state, and when it is refused. -/
def Obligations.ResetRestoresTagAndSeq : Prop :=
  ∀ (s : State) (given : Option Nat), s.resetIn = some ⟨given⟩ →
    (1 ≤ given.getD s.built.defaultTag.val.toNat ∧ given.getD s.built.defaultTag.val.toNat ≤ 255 →
      step s = .next { s with
        tag := BitVec.ofNat 8 (given.getD s.built.defaultTag.val.toNat), seq := none, resetIn := none,
        trace := s.trace ++ [.reset] }) ∧
    (given.getD s.built.defaultTag.val.toNat = 0 ∨ 255 < given.getD s.built.defaultTag.val.toNat →
      step s = .refused .deviceAddressNotLegal)

/-- R20 and R117: the state after reset, and that construction gives it. That the ports are empty, and
that the steps are single, is the model's choice (logs 1, 2, 5 and 9). -/
def Obligations.ResetState : Prop :=
  State.reset.tag = 1 ∧ State.reset.seq = none ∧ State.reset.built.defaultTag.val = 1 ∧
  State.reset.built.baudCfg = 9600 ∧ State.reset.trace = [] ∧ construct Config.built none = some State.reset ∧
  State.reset.followsProtocol ∧ State.reset.tagLegal

/-! ## Invariants and rules over all commands -/

/-- Every step keeps the protocol: one command at a time, one call at a time, each call answered before the next, one
response per command with the count of completed calls, nothing but TransportFailure after a failed call. -/
def Obligations.StepKeepsProtocol : Prop :=
  ∀ s t : State, s.followsProtocol → step s = .next t → t.followsProtocol

/-- What a command records follows the protocol from the moment it is taken, in every state. -/
def Obligations.ExecFollowsProtocol : Prop :=
  ∀ (i : Instr) (s t : State), exec i s = .next t →
    ∃ es, t.trace = s.trace ++ es ∧
      match t.seq with
      | none => phaseAfter (.running 0) es = some .idle
      | some f =>
        f.cmd = .legal i ∧ f.outstanding = true ∧ f.failed = false ∧
          ∃ c, phaseAfter (.running 0) es = some (.waiting f.done c)

/-- R11: TAG is never 0, whatever step is made. -/
def Obligations.StepKeepsTagLegal : Prop :=
  ∀ s t : State, s.tagLegal → step s = .next t → t.tagLegal

/-- R12, R13, R14, R117: no step changes the strap, a descriptor, DEFAULT_TAG, BAUD_CFG or NUM. -/
def Obligations.StepKeepsParameters : Prop :=
  ∀ s t : State, step s = .next t → t.built = s.built

/-- R11, R117, R122: TAG changes only by a reset, which may come at any time, or by a SETTAG, taken when the
instance is idle or held with no call completed and none outstanding, and that command is then at its end. -/
def Obligations.TagChangesOnlyByResetOrSettag : Prop :=
  ∀ s t : State, s.followsProtocol → step s = .next t → t.tag ≠ s.tag →
    (∃ r, s.resetIn = some r) ∨
    (s.seq = none ∧ ∃ h payload rest tag, fetchCommand s.built.num s.cmdIn = some (h, payload, rest) ∧
      decode s.built.num s.built.family h payload = .legal (.settag tag) ∧ t.tag = tag.extractLsb' 0 8 ∧ t.seq = none) ∨
    (∃ f tag, s.seq = some f ∧ f.cmd = .legal (.settag tag) ∧ f.done = 0 ∧ f.outstanding = false ∧
      t.tag = tag.extractLsb' 0 8 ∧ t.seq = none)

/-- R25: every call a step issues, but Connect, carries the TAG of the instance; and a step after which a command is
in flight leaves TAG as it was, so that every call of one command carries the same tag. -/
def Obligations.CallsCarryTheTag : Prop :=
  ∀ s t : State, step s = .next t →
    (∀ c ∈ callsIn (eventsSince s t), c = .connect ∨ callTag c = some s.tag) ∧
    (t.seq ≠ none → t.tag = s.tag)

/-- R23: every call of a command is in its row of the table; nothing else is ever addressed. -/
def Obligations.CallsStayInTheirTableRow : Prop :=
  ∀ (i : Instr) (s t : State), exec i s = .next t → ∀ c ∈ callsIn (eventsSince s t), allowedCall i s.built c

/-- R22, R24, R42: every call a step issues moves 1 or 8 units, or is Connect; only writable spaces are written; and no
call to a channel bank passes the end of the address space: the first address and the units of a call of 8, or of a
coil or input call, fit in 16 bits. -/
def Obligations.CallsFitTheirSpaces : Prop :=
  ∀ s t : State, step s = .next t → ∀ c ∈ callsIn (eventsSince s t),
    (c = .connect ∨ callUnits c = 1 ∨ callUnits c = 8) ∧
    (callWrites c = true → ∃ sp, callSpace c = some sp ∧ spaceWritable sp = true) ∧
    (∀ a, callAddr c = some a → a.toNat + callUnits c ≤ 0x10000)

/-- R57, R116, R128: an OK response counts exactly the calls of its command and carries the payload of its row; every
other response carries none. -/
def Obligations.ResponseFollowsTable : Prop :=
  ∀ (i : Instr) (s t : State), exec i s = .next t → ∀ r ∈ responsesIn (eventsSince s t),
    (r.status = .ok → r.done = callCount i ∧ payloadFits i r.payload) ∧
    (r.status ≠ .ok → r.payload = .none)

/-- R108: a command that ends with a validation error leaves everything as it was but for its response; no call was
issued. The first two parts are InvalidChannel and InvalidDeviceAddress, by `exec` and in the step of an instance to
which the command was handed over. The last two are IllegalCommand, in a joined step (log 1) and in the step of an
instance to which the words were handed over; that SEQ then holds that they are no command is the model's deduction
(log 21, DEDUCED). -/
def Obligations.ValidationErrorsHaveNoEffect : Prop :=
  (∀ (i : Instr) (s t : State) (r : Response), exec i s = .next t → r ∈ responsesIn (eventsSince s t) →
    isValidationError r.status = true → t = s.afterNoCall ⟨r.status, 0, .none⟩) ∧
  (∀ (i : Instr) (s t : State) (r : Response), s.resetIn = none → s.seq = some (freshRecord (.legal i)) →
    step s = .next t → r ∈ responsesIn (eventsSince s t) → isValidationError r.status = true →
    t = s.afterNoCall ⟨r.status, 0, .none⟩) ∧
  (∀ (s : State) (h : Word) (payload rest : List Word) (why : Illegal),
    s.grain = .command → s.resetIn = none → s.seq = none → fetchCommand s.built.num s.cmdIn = some (h, payload, rest) →
    decode s.built.num s.built.family h payload = .illegal why →
    step s = .next ((s.take h payload rest).afterNoCall ⟨.illegalCommand, 0, .none⟩)) ∧
  (∀ (s : State) (why : Illegal), s.resetIn = none → s.seq = some (freshRecord (.illegal why)) →
    step s = .next (s.afterNoCall ⟨.illegalCommand, 0, .none⟩))

/-- R107, R100, R68: a command is refused exactly for a value outside the domain of `to_raw`, in the instance's NUM,
whichever it is (R65), whose channel check, if it has one, passed; nothing else is ever refused. That an operand that is
no value of the instance's F, which the decoder never gives, counts as outside the domain and is refused too is the
model's choice (log 7, DESIGN CHOICE). -/
def Obligations.RefusedExactlyOutsideScalerDomain : Prop :=
  ∀ (i : Instr) (s : State) (q : Refusal), exec i s = .refused q ↔
    q = .valueOutsideScalerDomain ∧
      ((∃ ch v, i = .aoSetch ch v ∧ ch.toNat ≤ 7 ∧ toRaw (numOf s.built.num) v = none) ∨
       (∃ vs, i = .aoSetchs vs ∧ ∃ v ∈ vs.toList, toRaw (numOf s.built.num) v = none))

/-- R17, R21, R27, R35: how the steps are counted changes nothing, and waiting for answers changes nothing. A command
that stopped in flight for want of answers, given the missing ones, makes the joined step that leads where the command
would have gone with all answers at hand. Every step is a number of the steps of R21, one after another. A single step
records at most one event: a command taken, a call, an answer, a response or a reset. That one step may join several of
R21 is the model's choice (log 1). -/
def Obligations.ResumeEqualsUninterrupted : Prop :=
  (∀ (i : Instr) (s t : State) (early late : List Answer), s.grain = .command → s.resetIn = none →
    exec i { s with ansIn := early } = .next t → t.seq ≠ none →
    step { t with ansIn := late } = exec i { s with ansIn := early ++ late }) ∧
  (∀ s : State, ∃ n, step s = advanceTimes n s) ∧
  (∀ s t : State, s.grain = .event → step s = .next t → (eventsSince s t).length ≤ 1)

/-! ## The common commands -/

/-- R74: one `Connect` call. That every answer other than done is a TransportFailure is R27 and R105, and log 11
(DEDUCED) where it is of the wrong kind. -/
def Obligations.ConnectMakesOneConnect : Prop :=
  ∀ s : State,
    (∀ rest, s.ansIn = .done :: rest →
      exec .connect s = .next (s.afterCall .connect .done rest ⟨.ok, 1, .none⟩)) ∧
    (∀ a rest, s.ansIn = a :: rest → a ≠ .done →
      exec .connect s = .next (s.afterCall .connect a rest ⟨.transportFailure, 0, .none⟩)) ∧
    (s.ansIn = [] → exec .connect s = .next (s.awaiting .connect .connect))

/-- R75: TAG is written for an operand of 1 to 255, and the command ends InvalidDeviceAddress for any other. -/
def Obligations.SettagWritesTag : Prop :=
  ∀ (tag : Half) (s : State),
    (1 ≤ tag.toNat → tag.toNat ≤ 255 →
      exec (.settag tag) s = .next { s with
        tag := BitVec.ofNat 8 tag.toNat, seq := none, trace := s.trace ++ [.response ⟨.ok, 0, .none⟩] }) ∧
    (tag.toNat = 0 ∨ 255 < tag.toNat →
      exec (.settag tag) s = .next (s.afterNoCall ⟨.invalidDeviceAddress, 0, .none⟩))

/-- R76: the device's register is written, TAG is not; the base is that of the instance's own family. That every
answer other than done is a TransportFailure is R27 and R105, and log 11 (DEDUCED) where it is of the wrong kind. -/
def Obligations.SetaddrWritesDeviceRegister : Prop :=
  ∀ (address : Half) (s : State) (base : Addr),
    base = (match s.built.family with
      | .dio => s.built.dio.deviceAddressBase
      | .rly => s.built.rly.deviceAddressBase
      | .ai => s.built.ai.deviceAddressBase
      | .ao => s.built.ao.deviceAddressBase) →
    (address.toNat ≤ 255 →
      (∀ rest, s.ansIn = .done :: rest → exec (.setaddr address) s =
        .next (s.afterCall (.writeHolding base (BitVec.ofNat 32 address.toNat) s.tag) .done rest ⟨.ok, 1, .none⟩)) ∧
      (∀ a rest, s.ansIn = a :: rest → a ≠ .done → exec (.setaddr address) s =
        .next (s.afterCall (.writeHolding base (BitVec.ofNat 32 address.toNat) s.tag) a rest
          ⟨.transportFailure, 0, .none⟩)) ∧
      (s.ansIn = [] → exec (.setaddr address) s =
        .next (s.awaiting (.setaddr address) (.writeHolding base (BitVec.ofNat 32 address.toNat) s.tag)))) ∧
    (255 < address.toNat →
      exec (.setaddr address) s = .next (s.afterNoCall ⟨.invalidDeviceAddress, 0, .none⟩))

/-- R77: one write of the whole 32-bit word (parity << 16) | baud, at the base of the instance's own family. That
every answer other than done is a TransportFailure is R27 and R105, and log 11 (DEDUCED) where it is of the wrong
kind. -/
def Obligations.SetuartHandsOverWholeWord : Prop :=
  ∀ (baud : Half) (parity : Byte) (s : State) (c : Call),
    c = .writeHolding (match s.built.family with
      | .dio => s.built.dio.uartParametersBase
      | .rly => s.built.rly.uartParametersBase
      | .ai => s.built.ai.uartParametersBase
      | .ao => s.built.ao.uartParametersBase) (BitVec.ofNat 32 (parity.toNat * 65536 + baud.toNat)) s.tag →
    (∀ rest, s.ansIn = .done :: rest →
      exec (.setuart baud parity) s = .next (s.afterCall c .done rest ⟨.ok, 1, .none⟩)) ∧
    (∀ a rest, s.ansIn = a :: rest → a ≠ .done →
      exec (.setuart baud parity) s = .next (s.afterCall c a rest ⟨.transportFailure, 0, .none⟩)) ∧
    (s.ansIn = [] → exec (.setuart baud parity) s = .next (s.awaiting (.setuart baud parity) c))

/-- R78: the register is returned raw. That every other answer is a TransportFailure is R27, R29 and R105, and log 11
(DEDUCED) where it is of the wrong kind. -/
def Obligations.RdverReturnsRawRegister : Prop :=
  ∀ (s : State) (c : Call),
    c = .readHoldings (match s.built.family with
      | .dio => s.built.dio.softwareVersionBase
      | .rly => s.built.rly.softwareVersionBase
      | .ai => s.built.ai.softwareVersionBase
      | .ao => s.built.ao.softwareVersionBase) 1 s.tag →
    (∀ v rest, s.ansIn = .words [v] :: rest →
      exec .rdver s = .next (s.afterCall c (.words [v]) rest ⟨.ok, 1, .register v⟩)) ∧
    (∀ a rest, s.ansIn = a :: rest → (∀ v, a ≠ .words [v]) →
      exec .rdver s = .next (s.afterCall c a rest ⟨.transportFailure, 0, .none⟩)) ∧
    (s.ansIn = [] → exec .rdver s = .next (s.awaiting .rdver c))

/-! ## Digital I/O and relay -/

/-- R79: one coil write of On or Off at OutputChannelBase + channel; InvalidChannel above 7. That every answer
other than done is a TransportFailure is R27 and R105, and log 11 (DEDUCED) where it is of the wrong kind. -/
def Obligations.DioSetchWritesOneCoil : Prop :=
  ∀ (ch : Byte) (on : Bool) (s : State) (c : Call),
    c = .writeCoil (addressAt s.built.dio.outputChannelBase ch.toNat) (if on then 0xFF00 else 0x0000) s.tag →
    (ch.toNat ≤ 7 →
      (∀ rest, s.ansIn = .done :: rest →
        exec (.dioSetch ch on) s = .next (s.afterCall c .done rest ⟨.ok, 1, .none⟩)) ∧
      (∀ a rest, s.ansIn = a :: rest → a ≠ .done →
        exec (.dioSetch ch on) s = .next (s.afterCall c a rest ⟨.transportFailure, 0, .none⟩)) ∧
      (s.ansIn = [] → exec (.dioSetch ch on) s = .next (s.awaiting (.dioSetch ch on) c))) ∧
    (7 < ch.toNat → exec (.dioSetch ch on) s = .next (s.afterNoCall ⟨.invalidChannel, 0, .none⟩))

/-- R81, R34: one HOLDING write at the number of the output coil; InvalidChannel above 7. That every answer
other than done is a TransportFailure is R27 and R105, and log 11 (DEDUCED) where it is of the wrong kind. -/
def Obligations.DioSetmodeWritesHoldingAtCoilNumber : Prop :=
  ∀ (ch : Byte) (mode : Half) (s : State) (c : Call),
    c = .writeHolding (addressAt s.built.dio.outputChannelBase ch.toNat) (BitVec.ofNat 32 mode.toNat) s.tag →
    (ch.toNat ≤ 7 →
      (∀ rest, s.ansIn = .done :: rest →
        exec (.dioSetmode ch mode) s = .next (s.afterCall c .done rest ⟨.ok, 1, .none⟩)) ∧
      (∀ a rest, s.ansIn = a :: rest → a ≠ .done →
        exec (.dioSetmode ch mode) s = .next (s.afterCall c a rest ⟨.transportFailure, 0, .none⟩)) ∧
      (s.ansIn = [] → exec (.dioSetmode ch mode) s = .next (s.awaiting (.dioSetmode ch mode) c))) ∧
    (7 < ch.toNat → exec (.dioSetmode ch mode) s = .next (s.afterNoCall ⟨.invalidChannel, 0, .none⟩))

/-- R83, R84, R88: the three bank reads, each one call of 8 units from its base; channel `i` of the record is element
`i` of the answer. That an answer that is not 8 bits is a TransportFailure is R27, R29 and R105, and log 11 (DEDUCED)
where it is of the wrong kind. -/
def Obligations.BankReadsReturnTheBits : Prop :=
  ∀ (s : State) (i : Instr) (c : Call),
    (i = .dioRdchs ∧ c = .readDiscretes (addressAt s.built.dio.inputChannelsBase 0) 8 s.tag) ∨
    (i = .dioRdout ∧ c = .readCoils (addressAt s.built.dio.outputChannelBase 0) 8 s.tag) ∨
    (i = .rlyRdchs ∧ c = .readCoils (addressAt s.built.rly.outputChannelBase 0) 8 s.tag) →
    (∀ (b : Bank) (rest : List Answer), s.ansIn = .bits b.toList :: rest →
      exec i s = .next (s.afterCall c (.bits b.toList) rest ⟨.ok, 1, .bank b⟩)) ∧
    (∀ a rest, s.ansIn = a :: rest → (∀ b : Bank, a ≠ .bits b.toList) →
      exec i s = .next (s.afterCall c a rest ⟨.transportFailure, 0, .none⟩)) ∧
    (s.ansIn = [] → exec i s = .next (s.awaiting i c))

/-- R86, R89, R90: the single-coil writes of the relay; OPEN writes Off and CLOSE writes On. That every answer
other than done is a TransportFailure is R27 and R105, and log 11 (DEDUCED) where it is of the wrong kind. -/
def Obligations.RelayWritesOneCoil : Prop :=
  ∀ (ch : Byte) (s : State) (i : Instr) (v : Half) (c : Call),
    (i = .rlySetch ch false ∧ v = 0x0000) ∨ (i = .rlySetch ch true ∧ v = 0xFF00) ∨
    (i = .rlyOpen ch ∧ v = 0x0000) ∨ (i = .rlyClose ch ∧ v = 0xFF00) →
    c = .writeCoil (addressAt s.built.rly.outputChannelBase ch.toNat) v s.tag →
    (ch.toNat ≤ 7 →
      (∀ rest, s.ansIn = .done :: rest → exec i s = .next (s.afterCall c .done rest ⟨.ok, 1, .none⟩)) ∧
      (∀ a rest, s.ansIn = a :: rest → a ≠ .done →
        exec i s = .next (s.afterCall c a rest ⟨.transportFailure, 0, .none⟩)) ∧
      (s.ansIn = [] → exec i s = .next (s.awaiting i c))) ∧
    (7 < ch.toNat → exec i s = .next (s.afterNoCall ⟨.invalidChannel, 0, .none⟩))

/-- R80, R87, R33, R35, R109: the batch writes of both families. The whole batch is checked first; then one coil write
per element in ascending order, each after the answer of the one before; a failure at element `k` leaves `k` completed
calls and issues no other; without an answer the instance is in flight with `k` calls completed. That one `exec`
serves several answers is the model's choice (log 1). That every answer other than done is a TransportFailure is R27
and R105, and log 11 (DEDUCED) where it is of the wrong kind. -/
def Obligations.BatchWritesInOrder : Prop :=
  ∀ (start : Byte) (actions : List Action) (s : State) (i : Instr) (base : ChannelBase),
    (i = .dioSetchs start actions ∧ base = s.built.dio.outputChannelBase) ∨
    (i = .rlySetchs start actions ∧ base = s.built.rly.outputChannelBase) →
    ((∀ k, k < actions.length → start.toNat + k ≤ 7) →
      (∀ rest, s.ansIn = List.replicate actions.length .done ++ rest →
        exec i s = .next { s with
          seq := none, ansIn := rest,
          trace := s.trace ++ coilEvents base s.tag start.toNat actions ++
            [.response ⟨.ok, actions.length, .none⟩] }) ∧
      (∀ k x a rest, actions[k]? = some x → a ≠ .done → s.ansIn = List.replicate k .done ++ a :: rest →
        exec i s = .next { s with
          seq := none, ansIn := rest,
          trace := s.trace ++ coilEvents base s.tag start.toNat (actions.take k) ++
            [.call (.writeCoil (addressAt base (start.toNat + k)) (actionPattern x) s.tag), .answer a,
             .response ⟨.transportFailure, k, .none⟩] }) ∧
      (∀ k x, actions[k]? = some x → s.ansIn = List.replicate k .done →
        exec i s = .next { s with
          seq := some ⟨.legal i, k, ⟨[], []⟩, true, false⟩, ansIn := [],
          trace := s.trace ++ coilEvents base s.tag start.toNat (actions.take k) ++
            [.call (.writeCoil (addressAt base (start.toNat + k)) (actionPattern x) s.tag)] })) ∧
    ((∃ k, k < actions.length ∧ 7 < start.toNat + k) →
      exec i s = .next (s.afterNoCall ⟨.invalidChannel, 0, .none⟩))

/-! ## Analog input -/

/-- R92: one HOLDING write at ChannelTypesBase + channel, the code unchecked; InvalidChannel above 7. That
every answer other than done is a TransportFailure is R27 and R105, and log 11 (DEDUCED) where it is of the wrong
kind. -/
def Obligations.AiSettypeWritesOneTypeRegister : Prop :=
  ∀ (ch : Byte) (type : Half) (s : State) (c : Call),
    c = .writeHolding (addressAt s.built.ai.channelTypesBase ch.toNat) (BitVec.ofNat 32 type.toNat) s.tag →
    (ch.toNat ≤ 7 →
      (∀ rest, s.ansIn = .done :: rest →
        exec (.aiSettype ch type) s = .next (s.afterCall c .done rest ⟨.ok, 1, .none⟩)) ∧
      (∀ a rest, s.ansIn = a :: rest → a ≠ .done →
        exec (.aiSettype ch type) s = .next (s.afterCall c a rest ⟨.transportFailure, 0, .none⟩)) ∧
      (s.ansIn = [] → exec (.aiSettype ch type) s = .next (s.awaiting (.aiSettype ch type) c))) ∧
    (7 < ch.toNat → exec (.aiSettype ch type) s = .next (s.afterNoCall ⟨.invalidChannel, 0, .none⟩))

/-- R93 and R94: the type table is written in one call of 8 registers, and read in one, the codes as they stand. That
every other answer is a TransportFailure is R27, R29 and R105, and log 11 (DEDUCED) where it is of the wrong kind. -/
def Obligations.AiTypeTableInOneCall : Prop :=
  ∀ (types : Oct Half) (s : State) (cw cr : Call),
    cw = .writeHoldings (addressAt s.built.ai.channelTypesBase 0) types s.tag →
    cr = .readHoldings (addressAt s.built.ai.channelTypesBase 0) 8 s.tag →
    (∀ rest, s.ansIn = .done :: rest →
      exec (.aiSettypes types) s = .next (s.afterCall cw .done rest ⟨.ok, 1, .none⟩)) ∧
    (∀ a rest, s.ansIn = a :: rest → a ≠ .done →
      exec (.aiSettypes types) s = .next (s.afterCall cw a rest ⟨.transportFailure, 0, .none⟩)) ∧
    (s.ansIn = [] → exec (.aiSettypes types) s = .next (s.awaiting (.aiSettypes types) cw)) ∧
    (∀ (r : Oct Half) (rest : List Answer), s.ansIn = .words r.toList :: rest →
      exec .aiGettypes s = .next (s.afterCall cr (.words r.toList) rest ⟨.ok, 1, .codes r⟩)) ∧
    (∀ a rest, s.ansIn = a :: rest → (∀ r : Oct Half, a ≠ .words r.toList) →
      exec .aiGettypes s = .next (s.afterCall cr a rest ⟨.transportFailure, 0, .none⟩)) ∧
    (s.ansIn = [] → exec .aiGettypes s = .next (s.awaiting .aiGettypes cr))

/-- R95: one input register, divided by 1000 in the instance's NUM, whichever it is (R65); InvalidChannel above 7. That
every other answer is a TransportFailure is R27, R29 and R105, and log 11 (DEDUCED) where it is of the wrong kind. -/
def Obligations.AiRdchReturnsEngineeringValue : Prop :=
  ∀ (ch : Byte) (s : State) (c : Call),
    c = .readInputs (addressAt s.built.ai.inputChannelsBase ch.toNat) 1 s.tag →
    (ch.toNat ≤ 7 →
      (∀ v rest, s.ansIn = .words [v] :: rest →
        exec (.aiRdch ch) s =
          .next (s.afterCall c (.words [v]) rest ⟨.ok, 1, .value (toEngineering (numOf s.built.num) v)⟩)) ∧
      (∀ a rest, s.ansIn = a :: rest → (∀ v, a ≠ .words [v]) →
        exec (.aiRdch ch) s = .next (s.afterCall c a rest ⟨.transportFailure, 0, .none⟩)) ∧
      (s.ansIn = [] → exec (.aiRdch ch) s = .next (s.awaiting (.aiRdch ch) c))) ∧
    (7 < ch.toNat → exec (.aiRdch ch) s = .next (s.afterNoCall ⟨.invalidChannel, 0, .none⟩))

/-- R96: eight reads of one register, channels ascending; eight values, or on a failure at channel `k` none and the
count `k`; without an answer in flight with the values read so far. The values are those of the instance's NUM,
whichever it is (R65). That one `exec` serves several answers, and that SEQ holds the values as raw words, is the
model's choice (logs 1 and 10). That every other answer is a TransportFailure is R27, R29 and R105, and log 11 (DEDUCED)
where it is of the wrong kind. -/
def Obligations.AiRdchsReadsOneByOne : Prop :=
  ∀ (s : State) (base : ChannelBase), base = s.built.ai.inputChannelsBase →
    (∀ (r : Oct Half) (rest : List Answer),
      s.ansIn = r.toList.map (fun v => .words [v]) ++ rest →
      exec .aiRdchs s = .next { s with
        seq := none, ansIn := rest,
        trace := s.trace ++ inputEvents base s.tag r.toList ++
          [.response ⟨.ok, 8, .values (r.map (toEngineering (numOf s.built.num)))⟩] }) ∧
    (∀ (vs : List Half) (a : Answer) (rest : List Answer), vs.length < 8 → (∀ v, a ≠ .words [v]) →
      s.ansIn = vs.map (fun v => .words [v]) ++ a :: rest →
      exec .aiRdchs s = .next { s with
        seq := none, ansIn := rest,
        trace := s.trace ++ inputEvents base s.tag vs ++
          [.call (.readInputs (addressAt base vs.length) 1 s.tag), .answer a,
           .response ⟨.transportFailure, vs.length, .none⟩] }) ∧
    (∀ vs : List Half, vs.length < 8 → s.ansIn = vs.map (fun v => .words [v]) →
      exec .aiRdchs s = .next { s with
        seq := some ⟨.legal .aiRdchs, vs.length, ⟨[], vs⟩, true, false⟩, ansIn := [],
        trace := s.trace ++ inputEvents base s.tag vs ++
          [.call (.readInputs (addressAt base vs.length) 1 s.tag)] })

/-! ## Analog output -/

/-- R97, R107: the channel check comes first; a value in the domain is written as its raw value in one HOLDING write.
The conversion is that of the instance's NUM, whichever it is (R65). That every answer other than done is a
TransportFailure is R27 and R105, and log 11 (DEDUCED) where it is of the wrong kind. -/
def Obligations.AoSetchWritesRawValue : Prop :=
  ∀ (ch : Byte) (value : EngValue) (s : State),
    (∀ (raw : Half) (c : Call), ch.toNat ≤ 7 → toRaw (numOf s.built.num) value = some raw →
      c = .writeHolding (addressAt s.built.ao.outputsBase ch.toNat) (BitVec.ofNat 32 raw.toNat) s.tag →
      (∀ rest, s.ansIn = .done :: rest →
        exec (.aoSetch ch value) s = .next (s.afterCall c .done rest ⟨.ok, 1, .none⟩)) ∧
      (∀ a rest, s.ansIn = a :: rest → a ≠ .done →
        exec (.aoSetch ch value) s = .next (s.afterCall c a rest ⟨.transportFailure, 0, .none⟩)) ∧
      (s.ansIn = [] → exec (.aoSetch ch value) s = .next (s.awaiting (.aoSetch ch value) c))) ∧
    (7 < ch.toNat → exec (.aoSetch ch value) s = .next (s.afterNoCall ⟨.invalidChannel, 0, .none⟩))

/-- R98: all eight values converted, then one write of eight registers, channel `j` at OutputsBase + `j`. The
conversion is that of the instance's NUM, whichever it is (R65). That every answer other than done is a
TransportFailure is R27 and R105, and log 11 (DEDUCED) where it is of the wrong kind. -/
def Obligations.AoSetchsWritesEightRegisters : Prop :=
  ∀ (values : Oct EngValue) (raws : Oct Half) (s : State) (c : Call),
    values.map (toRaw (numOf s.built.num)) = raws.map some →
    c = .writeHoldings (addressAt s.built.ao.outputsBase 0) raws s.tag →
    (∀ rest, s.ansIn = .done :: rest →
      exec (.aoSetchs values) s = .next (s.afterCall c .done rest ⟨.ok, 1, .none⟩)) ∧
    (∀ a rest, s.ansIn = a :: rest → a ≠ .done →
      exec (.aoSetchs values) s = .next (s.afterCall c a rest ⟨.transportFailure, 0, .none⟩)) ∧
    (s.ansIn = [] → exec (.aoSetchs values) s = .next (s.awaiting (.aoSetchs values) c))

/-- R99: one read of eight registers, each divided by 1000 in the instance's NUM, whichever it is (R65). That every
other answer is a TransportFailure is R27, R29 and R105, and log 11 (DEDUCED) where it is of the wrong kind. -/
def Obligations.AoGetvalsReturnsEightValues : Prop :=
  ∀ (s : State) (c : Call), c = .readHoldings (addressAt s.built.ao.outputsBase 0) 8 s.tag →
    (∀ (r : Oct Half) (rest : List Answer), s.ansIn = .words r.toList :: rest →
      exec .aoGetvals s = .next (s.afterCall c (.words r.toList) rest
        ⟨.ok, 1, .values (r.map (toEngineering (numOf s.built.num)))⟩)) ∧
    (∀ a rest, s.ansIn = a :: rest → (∀ r : Oct Half, a ≠ .words r.toList) →
      exec .aoGetvals s = .next (s.afterCall c a rest ⟨.transportFailure, 0, .none⟩)) ∧
    (s.ansIn = [] → exec .aoGetvals s = .next (s.awaiting .aoGetvals c))

/-! ## Several instances -/

/-- R41, R114, R35: whatever happens next, the shared line goes on holding, for every instance, exactly the calls it has
issued, in its own order; and instances after reset on a line that has taken nothing begin so. -/
def Obligations.SharedLineKeepsEveryOrder : Prop :=
  (∀ (e : Stimulus) (y z : System), y.lineKeepsOrder → applyStimulus e y = .next z → z.lineKeepsOrder) ∧
  ∀ n : Nat, (⟨List.replicate n (some State.reset), []⟩ : System).lineKeepsOrder

/-- R114: nothing of the block's state is shared: what happens to one instance changes no other. R121: an idle instance
can be discarded, and nothing is called or written then. That nothing happens on the attempt to discard one in flight
is the model's choice (log 20). -/
def Obligations.OtherInstancesUntouched : Prop :=
  (∀ (e : Stimulus) (y z : System) (k : Nat), applyStimulus e y = .next z → k ≠ stimulusTarget e →
    z.instances[k]? = y.instances[k]?) ∧
  (∀ (y : System) (k : Nat) (s : State), y.instances[k]? = some (some s) →
    (s.seq = none → applyStimulus (.discard k) y = .next ⟨y.instances.set k none, y.line⟩) ∧
    (s.seq ≠ none → applyStimulus (.discard k) y = .next y))
end

