-- ==== Sys2Proof/Laws/Config.lean ====
section
/-! SUPPORT. The enumeration codes are pairwise different (R82, R91), and nothing more is fixed about them. -/

namespace Sys2Proof

theorem ControlMode.index_injective : Function.Injective ControlMode.index := by
  intro m n h
  cases m <;> cases n <;> simp_all [ControlMode.index]

theorem ChannelType.index_injective : Function.Injective ChannelType.index := by
  intro m n h
  cases m <;> cases n <;> simp_all [ChannelType.index]

/-- MODE_CODE_* are pairwise different (R82). -/
theorem Config.modeCode_differ : Config.modeCodesDiffer :=
  fun _ _ h => ControlMode.index_injective (Config.modeCodes.injective h)

/-- TYPE_CODE_* are pairwise different (R91). -/
theorem Config.typeCode_differ : Config.typeCodesDiffer :=
  fun _ _ h => ChannelType.index_injective (Config.typeCodes.injective h)

/-- Any two lists of different codes are carried into each other by an arrangement of all codes. -/
theorem exists_arrangement {α : Type} {f g : α → Half} (hf : Function.Injective f) (hg : Function.Injective g) :
    ∃ p : Equiv.Perm Half, ∀ a, p (f a) = g a := by
  classical
  let e : Set.range f ≃ Set.range g := (Equiv.ofInjective f hf).symm.trans (Equiv.ofInjective g hg)
  have : Fintype Half := Fintype.ofEquiv _ (BitVec.equivFin (m := 16)).symm.toEquiv
  refine ⟨e.extendSubtype, fun a => ?_⟩
  rw [Equiv.extendSubtype_apply_of_mem e (f a) ⟨a, rfl⟩]
  simp [e]

/-- Every three different codes are the MODE_CODE_* of some arrangement: the model fixes no more than R82 does. -/
theorem ControlMode.codes_arbitrary (f : ControlMode → Half) (hf : Function.Injective f) :
    ∃ p : Equiv.Perm Half, ∀ m, p m.index = f m :=
  exists_arrangement ControlMode.index_injective hf

/-- Every five different codes are the TYPE_CODE_* of some arrangement: the model fixes no more than R91 does. -/
theorem ChannelType.codes_arbitrary (f : ChannelType → Half) (hf : Function.Injective f) :
    ∃ p : Equiv.Perm Half, ∀ t, p t.index = f t :=
  exists_arrangement ChannelType.index_injective hf

end Sys2Proof
end

