-- ==== Sys2Proof/Laws/Operands.lean ====
section
/-! SUPPORT. What the operand functions are, said once: bounds, mapper, sequences of eight, Actions. -/

namespace Sys2Proof.Machine

@[simp] theorem familyOfCode_familyCode (f : Family) : familyOfCode (familyCode f) = f := by
  cases f <;> rfl

@[simp] theorem familyCode_familyOfCode (c : BitVec 2) : familyCode (familyOfCode c) = c := by
  revert c; decide

@[simp] theorem actionOfPattern_actionPattern (a : Action) : actionOfPattern (actionPattern a) = some a := by
  cases a <;> decide

theorem actionPattern_of_actionOfPattern {p : Half} {a : Action} (h : actionOfPattern p = some a) :
    actionPattern a = p := by
  unfold actionOfPattern at h
  split at h
  · cases h; simp_all [actionPattern]
  · split at h
    · cases h; simp_all [actionPattern]
    · split at h
      · cases h; simp_all [actionPattern]
      · cases h

theorem actionOfBool_eq (b : Bool) : actionOfBool b = actionPattern (if b then .on else .off) := by
  cases b <;> rfl

theorem channelOk_iff (c : Byte) : channelOk c = true ↔ c.toNat ≤ 7 := by
  simp [channelOk]

theorem batchOk_iff (s : Byte) (n : Nat) : batchOk s n = true ↔ ∀ k, k < n → s.toNat + k ≤ 7 := by
  simp [batchOk, List.all_eq_true]

/-- The sum of a channel base and a channel does not wrap (R31). -/
theorem mapAddr_toNat (b : ChannelBase) {offset : Nat} (h : offset ≤ 7) :
    (mapAddr b.addr offset).toNat = b.val + offset := by
  have hb := b.isLt
  simp only [mapAddr, ChannelBase.addr, BitVec.toNat_add, BitVec.toNat_ofNat]
  omega

@[simp] theorem octOfList_toList {α : Type} (d : α) (o : Oct α) : octOfList d o.toList = o := rfl

@[simp] theorem octOfList?_toList {α : Type} (o : Oct α) : octOfList? o.toList = some o := rfl

@[simp] theorem toList_length {α : Type} (o : Oct α) : o.toList.length = 8 := rfl

theorem toList_of_octOfList? {α : Type} {l : List α} {o : Oct α} (h : octOfList? l = some o) : o.toList = l := by
  unfold octOfList? at h
  split at h
  · cases h; rfl
  · cases h

@[simp] theorem binary64OfWords_words (v : Binary64) :
    binary64OfWords (v.extractLsb' 0 32) (v.extractLsb' 32 32) = v := by
  unfold binary64OfWords
  ext i hi
  simp only [BitVec.getElem_append, BitVec.getElem_extractLsb']
  split
  · simp [BitVec.getLsbD_eq_getElem, hi]
  · rw [show 32 + (i - 32) = i by omega]
    exact BitVec.getLsbD_eq_getElem (by omega)

theorem binary64OfWords_low (lo hi : Word) : (binary64OfWords lo hi).extractLsb' 0 32 = lo := by
  apply BitVec.eq_of_toNat_eq
  have h : (hi ++ lo : BitVec (32 + 32)).toNat = hi.toNat <<< 32 ||| lo.toNat := BitVec.toNat_append hi lo
  have hl := lo.isLt
  rw [BitVec.extractLsb'_toNat]
  change ((hi ++ lo : BitVec (32 + 32)).toNat >>> 0) % 2 ^ 32 = lo.toNat
  rw [h, ← Nat.shiftLeft_add_eq_or_of_lt hl, Nat.shiftLeft_eq]
  simp only [Nat.shiftRight_zero]
  omega

theorem binary64OfWords_high (lo hi : Word) : (binary64OfWords lo hi).extractLsb' 32 32 = hi := by
  apply BitVec.eq_of_toNat_eq
  have h : (hi ++ lo : BitVec (32 + 32)).toNat = hi.toNat <<< 32 ||| lo.toNat := BitVec.toNat_append hi lo
  have hl := lo.isLt
  have hh := hi.isLt
  rw [BitVec.extractLsb'_toNat]
  change ((hi ++ lo : BitVec (32 + 32)).toNat >>> 32) % 2 ^ 32 = hi.toNat
  rw [h, ← Nat.shiftLeft_add_eq_or_of_lt hl, Nat.shiftLeft_eq, Nat.shiftRight_eq_div_pow]
  omega

@[simp] theorem words_binary64OfWords (lo hi : Word) : wordsOfBinary64 (binary64OfWords lo hi) = [lo, hi] := by
  simp [wordsOfBinary64, binary64OfWords_low, binary64OfWords_high]

@[simp] theorem wordsOfNat_length (w n : Nat) : (wordsOfNat w n).length = w := by
  induction w generalizing n with
  | zero => rfl
  | succ w ih => simp [wordsOfNat, ih]

/-- A number that fits `w` words is the number of its words. -/
theorem natOfWords_wordsOfNat {w n : Nat} (h : n < 2 ^ (32 * w)) : natOfWords (wordsOfNat w n) = n := by
  induction w generalizing n with
  | zero => simp at h; simp [wordsOfNat, natOfWords, h]
  | succ w ih =>
    have hn : n / 2 ^ 32 < 2 ^ (32 * w) := by
      rw [Nat.div_lt_iff_lt_mul (by decide), ← Nat.pow_add]
      exact h
    simp only [wordsOfNat, natOfWords, ih hn, BitVec.toNat_ofNat]
    omega

theorem natOfWords_lt (ws : List Word) : natOfWords ws < 2 ^ (32 * ws.length) := by
  induction ws with
  | nil => simp [natOfWords]
  | cons x xs ih =>
    have hx := x.isLt
    rw [List.length_cons, Nat.mul_add, Nat.pow_add, natOfWords]
    omega

/-- Words are the words of their number. -/
theorem wordsOfNat_natOfWords (ws : List Word) : wordsOfNat ws.length (natOfWords ws) = ws := by
  induction ws with
  | nil => rfl
  | cons x xs ih =>
    have hx := x.isLt
    have hd : (x.toNat + 2 ^ 32 * natOfWords xs) / 2 ^ 32 = natOfWords xs := by omega
    simp only [List.length_cons, wordsOfNat, natOfWords, hd, ih, List.cons.injEq, and_true]
    apply BitVec.eq_of_toNat_eq
    rw [BitVec.toNat_ofNat]
    omega

/-- Everything `rationalOfParts` can do. -/
theorem rationalOfParts_eq_some {n : Int} {d : Nat} {q : Rat} :
    rationalOfParts n d = some q ↔ q.num = n ∧ q.den = d := by
  unfold rationalOfParts
  constructor
  · intro h
    split at h
    · cases h; exact ⟨rfl, rfl⟩
    · cases h
  · rintro ⟨rfl, rfl⟩
    rw [dif_pos ⟨q.den_nz, q.reduced⟩]

/-- The words of a value that fits are as many as its NUM has (R48, R49). -/
theorem wordsOfValue_length {num : Numerics} {v : EngValue} (h : valueFits num v = true) :
    (wordsOfValue num v).length = valueWords num := by
  cases num <;> cases v <;> simp_all [valueFits, wordsOfValue, valueWords, wordsOfBinary64]
  omega

/-- The words of a value that fits carry it (R49). -/
theorem valueOfWords_wordsOfValue {num : Numerics} {v : EngValue} (h : valueFits num v = true) :
    valueOfWords num (wordsOfValue num v) = some v := by
  match num, v, h with
  | .binary64, .float p, _ => simp [wordsOfValue, wordsOfBinary64, valueOfWords]
  | .exact w, .rational q, h =>
    simp only [valueFits, Bool.and_eq_true, beq_iff_eq, decide_eq_true_eq] at h
    simp only [valueOfWords, wordsOfValue, List.take_left' (wordsOfNat_length w _),
      List.drop_left' (wordsOfNat_length w _), natOfWords_wordsOfNat (BitVec.isLt _), natOfWords_wordsOfNat h.2,
      BitVec.ofNat_toNat, BitVec.setWidth_eq, h.1, rationalOfParts_eq_some.mpr ⟨rfl, rfl⟩, Option.map_some]
  | .record w _ _, .code n, h =>
    simp [valueOfWords, wordsOfValue, natOfWords_wordsOfNat (of_decide_eq_true h)]

/-- What words carry fits them, and its words are they (R49). -/
theorem wordsOfValue_valueOfWords {num : Numerics} {v : EngValue} {ws : List Word}
    (hl : ws.length = valueWords num) (h : valueOfWords num ws = some v) :
    valueFits num v = true ∧ wordsOfValue num v = ws := by
  cases num with
  | binary64 =>
    simp only [valueOfWords] at h
    split at h
    · cases h; exact ⟨rfl, by simp [wordsOfValue]⟩
    · cases h
  | exact w =>
    simp only [valueWords] at hl
    simp only [valueOfWords, Option.map_eq_some_iff] at h
    obtain ⟨q, hq, rfl⟩ := h
    obtain ⟨hn, hd⟩ := rationalOfParts_eq_some.mp hq
    have ht : (ws.take w).length = w := by simp; omega
    have hdl : (ws.drop w).length = w := by simp; omega
    have h1 := natOfWords_lt (ws.take w)
    have h2 := natOfWords_lt (ws.drop w)
    rw [ht] at h1
    rw [hdl] at h2
    refine ⟨by simp [valueFits, hn, hd, h2], ?_⟩
    have e1 := wordsOfNat_natOfWords (ws.take w)
    have e2 := wordsOfNat_natOfWords (ws.drop w)
    rw [ht] at e1
    rw [hdl] at e2
    simp only [wordsOfValue, hn, hd, BitVec.ofInt_toInt, BitVec.toNat_ofNat, Nat.mod_eq_of_lt h1, e1, e2,
      List.take_append_drop]
  | record w div trunc =>
    simp only [valueWords] at hl
    simp only [valueOfWords, Option.some.injEq] at h
    subst h
    have h1 := natOfWords_lt ws
    have e1 := wordsOfNat_natOfWords ws
    rw [hl] at h1 e1
    exact ⟨by simp [valueFits, h1], by simp [wordsOfValue, e1]⟩

/-- In the decided instance the scaler is that of binary64 (R65, R70). -/
@[simp] theorem toEngineering_binary64 (raw : Half) :
    toEngineering (numOf .binary64) raw = .float (toEngineering binary64 raw) := rfl

@[simp] theorem toRaw_binary64 (p : Binary64) : toRaw (numOf .binary64) (.float p) = toRaw binary64 p := rfl

/-- In the exact instance it is that of the rationals (R65). -/
@[simp] theorem toEngineering_exact (w : Nat) (raw : Half) :
    toEngineering (numOf (.exact w)) raw = .rational (toEngineering exactRational raw) := rfl

@[simp] theorem toRaw_exact (w : Nat) (q : Rat) :
    toRaw (numOf (.exact w)) (.rational q) = toRaw exactRational q := rfl

@[simp] theorem withChannel_legal {c : Byte} (h : c.toNat ≤ 7) (p : Plan) : withChannel c p = p := by
  simp [withChannel, channelOk, h]

@[simp] theorem withChannel_illegal {c : Byte} (h : 7 < c.toNat) (p : Plan) :
    withChannel c p = .raise .invalidChannel := by
  simp [withChannel, channelOk, Nat.not_le.mpr h]

end Sys2Proof.Machine
end

