-- ==== Sys2Proof/Laws/Decode.lean ====
section
/-! SUPPORT. The header fields and the header word determine each other, and the payload parts of encoder and decoder
invert each other. -/

namespace Sys2Proof

open Sys2Proof.Machine

theorem headerWord_fam (h : Header) : (headerWord h).extractLsb' 30 2 = familyCode h.fam := by
  ext i hi
  simp only [headerWord, BitVec.getElem_extractLsb', BitVec.getLsbD_append]
  rw [if_neg (by omega), if_neg (by omega), if_neg (by omega), show 30 + i - 16 - 8 - 6 = i by omega]
  exact BitVec.getLsbD_eq_getElem hi

theorem headerWord_op (h : Header) : (headerWord h).extractLsb' 24 6 = h.op := by
  ext i hi
  simp only [headerWord, BitVec.getElem_extractLsb', BitVec.getLsbD_append]
  rw [if_neg (by omega), if_neg (by omega), if_pos (by omega), show 24 + i - 16 - 8 = i by omega]
  exact BitVec.getLsbD_eq_getElem hi

theorem headerWord_a (h : Header) : (headerWord h).extractLsb' 16 8 = h.a := by
  ext i hi
  simp only [headerWord, BitVec.getElem_extractLsb', BitVec.getLsbD_append]
  rw [if_neg (by omega), if_pos (by omega), show 16 + i - 16 = i by omega]
  exact BitVec.getLsbD_eq_getElem hi

theorem headerWord_b (h : Header) : (headerWord h).extractLsb' 0 16 = h.b := by
  ext i hi
  simp only [headerWord, BitVec.getElem_extractLsb', BitVec.getLsbD_append]
  rw [if_pos (by omega), Nat.zero_add]
  exact BitVec.getLsbD_eq_getElem hi

/-- The fields of a header word are the fields it was made of. -/
@[simp] theorem headerOf_headerWord (h : Header) : headerOf (headerWord h) = h := by
  cases h
  simp [headerOf, headerWord_fam, headerWord_op, headerWord_a, headerWord_b]

/-- Every word is the header word of its fields. -/
@[simp] theorem headerWord_headerOf (w : Word) : headerWord (headerOf w) = w := by
  ext i hi
  simp only [headerWord, headerOf, familyCode_familyOfCode]
  rw [← BitVec.getLsbD_eq_getElem]
  simp only [BitVec.getLsbD_append, BitVec.getLsbD_extractLsb']
  by_cases h1 : i < 16
  · simp [h1, BitVec.getLsbD_eq_getElem hi]
  · by_cases h2 : i - 16 < 8
    · simp [h1, h2, show 16 + (i - 16) = i by omega, BitVec.getLsbD_eq_getElem hi]
    · by_cases h3 : i - 16 - 8 < 6
      · simp [h1, h2, h3, show 24 + (i - 16 - 8) = i by omega, BitVec.getLsbD_eq_getElem hi]
      · simp [h1, h2, h3, show 30 + (i - 16 - 8 - 6) = i by omega, show i - 16 - 8 - 6 < 2 by omega,
          BitVec.getLsbD_eq_getElem hi]

@[simp] theorem payloadHigh_setWidth (x : Half) : payloadHigh (x.setWidth 32) = 0 := by
  ext i hi
  simp [payloadHigh]

@[simp] theorem payloadLow_setWidth (x : Half) : payloadLow (x.setWidth 32) = x := by
  ext i hi
  simp only [payloadLow, BitVec.getElem_extractLsb', BitVec.getLsbD_setWidth, Nat.zero_add]
  rw [BitVec.getLsbD_eq_getElem hi]
  simp [show i < 32 by omega]

/-- A payload word with bits 31:16 zero is its bits 15:0. -/
theorem setWidth_payloadLow {w : Word} (h : payloadHigh w = 0) : (payloadLow w).setWidth 32 = w := by
  ext i hi
  by_cases h1 : i < 16
  · simp [payloadLow, h1, BitVec.getLsbD_eq_getElem hi]
  · have h2 : (payloadHigh w).getLsbD (i - 16) = false := by rw [h]; simp
    simp only [payloadHigh, BitVec.getLsbD_extractLsb', show 16 + (i - 16) = i by omega,
      BitVec.getLsbD_eq_getElem hi, show i - 16 < 16 by omega] at h2
    simp [payloadLow, h1]
    simpa using h2.symm

@[simp] theorem actionsOfPayload_map (as : List Action) : actionsOfPayload (as.map actionWord) = .ok as := by
  induction as with
  | nil => rfl
  | cons a as ih => simp [actionsOfPayload, actionWord, ih]

@[simp] theorem typesOfPayload_map (ts : List Half) :
    typesOfPayload (ts.map (BitVec.setWidth 32)) = .ok ts := by
  induction ts with
  | nil => rfl
  | cons t ts ih => simp [typesOfPayload, ih]

theorem valuesOfPayload_flatMap {num : Numerics} {vs : List EngValue} (h : vs.all (valueFits num) = true) :
    valuesOfPayload num vs.length (vs.flatMap (wordsOfValue num)) = .ok vs := by
  induction vs with
  | nil => rfl
  | cons v vs ih =>
    simp only [List.all_cons, Bool.and_eq_true] at h
    have hl := wordsOfValue_length h.1
    simp [valuesOfPayload, List.take_left' hl, List.drop_left' hl, valueOfWords_wordsOfValue h.1, ih h.2]

/-- The payload of values that fit is the words of so many values (R47, R49). -/
theorem flatMap_wordsOfValue_length {num : Numerics} {vs : List EngValue} (h : vs.all (valueFits num) = true) :
    (vs.flatMap (wordsOfValue num)).length = vs.length * valueWords num := by
  induction vs with
  | nil => simp
  | cons v vs ih =>
    simp only [List.all_cons, Bool.and_eq_true] at h
    simp [wordsOfValue_length h.1, ih h.2, Nat.add_mul, Nat.add_comm]

end Sys2Proof
end

