-- ==== Sys2Proof/Laws/State.lean ====
section
/-! SUPPORT. One lemma per field per update of State. -/

namespace Sys2Proof.Machine

variable (e : Status) (k : Nat) (p : Payload) (s : State) (i : Decoded) (c : Call) (v : Values) (a : Answer)
  (rest : List Answer)

@[simp] theorem respond_built : (respond e k p s).built = s.built := rfl
@[simp] theorem respond_tag : (respond e k p s).tag = s.tag := rfl
@[simp] theorem respond_seq : (respond e k p s).seq = none := rfl
@[simp] theorem respond_resetIn : (respond e k p s).resetIn = s.resetIn := rfl
@[simp] theorem respond_cmdIn : (respond e k p s).cmdIn = s.cmdIn := rfl
@[simp] theorem respond_grain : (respond e k p s).grain = s.grain := rfl
@[simp] theorem respond_ansIn : (respond e k p s).ansIn = s.ansIn := rfl
@[simp] theorem respond_trace : (respond e k p s).trace = s.trace ++ [.response ⟨e, k, p⟩] := rfl

@[simp] theorem raise_built : (raise e k s).built = s.built := rfl
@[simp] theorem raise_tag : (raise e k s).tag = s.tag := rfl
@[simp] theorem raise_seq : (raise e k s).seq = none := rfl
@[simp] theorem raise_resetIn : (raise e k s).resetIn = s.resetIn := rfl
@[simp] theorem raise_cmdIn : (raise e k s).cmdIn = s.cmdIn := rfl
@[simp] theorem raise_grain : (raise e k s).grain = s.grain := rfl
@[simp] theorem raise_ansIn : (raise e k s).ansIn = s.ansIn := rfl
@[simp] theorem raise_trace : (raise e k s).trace = s.trace ++ [.response ⟨e, k, .none⟩] := rfl

@[simp] theorem issue_built : (issue i c k v s).built = s.built := rfl
@[simp] theorem issue_tag : (issue i c k v s).tag = s.tag := rfl
@[simp] theorem issue_seq : (issue i c k v s).seq = some ⟨i, k, v, true, false⟩ := rfl
@[simp] theorem issue_resetIn : (issue i c k v s).resetIn = s.resetIn := rfl
@[simp] theorem issue_cmdIn : (issue i c k v s).cmdIn = s.cmdIn := rfl
@[simp] theorem issue_grain : (issue i c k v s).grain = s.grain := rfl
@[simp] theorem issue_ansIn : (issue i c k v s).ansIn = s.ansIn := rfl
@[simp] theorem issue_trace : (issue i c k v s).trace = s.trace ++ [.call c] := rfl

@[simp] theorem receive_built : (receive a rest s).built = s.built := rfl
@[simp] theorem receive_tag : (receive a rest s).tag = s.tag := rfl
@[simp] theorem receive_seq : (receive a rest s).seq = s.seq := rfl
@[simp] theorem receive_resetIn : (receive a rest s).resetIn = s.resetIn := rfl
@[simp] theorem receive_cmdIn : (receive a rest s).cmdIn = s.cmdIn := rfl
@[simp] theorem receive_grain : (receive a rest s).grain = s.grain := rfl
@[simp] theorem receive_ansIn : (receive a rest s).ansIn = rest := rfl
@[simp] theorem receive_trace : (receive a rest s).trace = s.trace ++ [.answer a] := rfl

variable (h : Word) (payload words : List Word)

@[simp] theorem take_built : (s.take h payload words).built = s.built := rfl
@[simp] theorem take_tag : (s.take h payload words).tag = s.tag := rfl
@[simp] theorem take_seq : (s.take h payload words).seq = s.seq := rfl
@[simp] theorem take_resetIn : (s.take h payload words).resetIn = s.resetIn := rfl
@[simp] theorem take_cmdIn : (s.take h payload words).cmdIn = words := rfl
@[simp] theorem take_grain : (s.take h payload words).grain = s.grain := rfl
@[simp] theorem take_ansIn : (s.take h payload words).ansIn = s.ansIn := rfl
@[simp] theorem take_trace : (s.take h payload words).trace = s.trace ++ [.taken h payload] := rfl

@[simp] theorem handOver_built : (handOver h payload words s).built = s.built := rfl
@[simp] theorem handOver_tag : (handOver h payload words s).tag = s.tag := rfl
@[simp] theorem handOver_seq :
    (handOver h payload words s).seq = some (freshRecord (decode s.built.num s.built.family h payload)) := rfl
@[simp] theorem handOver_resetIn : (handOver h payload words s).resetIn = s.resetIn := rfl
@[simp] theorem handOver_cmdIn : (handOver h payload words s).cmdIn = words := rfl
@[simp] theorem handOver_ansIn : (handOver h payload words s).ansIn = s.ansIn := rfl
@[simp] theorem handOver_trace : (handOver h payload words s).trace = s.trace ++ [.taken h payload] := rfl
@[simp] theorem handOver_grain : (handOver h payload words s).grain = s.grain := rfl

@[simp] theorem reset_grain : State.reset.grain = .event := rfl
@[simp] theorem reset_tag : State.reset.tag = 1 := rfl
@[simp] theorem reset_seq : State.reset.seq = none := rfl
@[simp] theorem reset_resetIn : State.reset.resetIn = none := rfl
@[simp] theorem reset_cmdIn : State.reset.cmdIn = [] := rfl
@[simp] theorem reset_ansIn : State.reset.ansIn = [] := rfl
@[simp] theorem reset_trace : State.reset.trace = [] := rfl
@[simp] theorem reset_built : State.reset.built = Config.built := rfl

end Sys2Proof.Machine
end

