-- ==== Sys2Proof/Laws/Ops.lean ====
section
/-! SUPPORT. What the shared operations can do, said once, for proofs to cite instead of unfolding them. -/

namespace Sys2Proof.Machine

variable {i : Instr} {d : Decoded} {reply : Reply} {out : Bool} {c : Call} {cs : List Call} {k : Nat} {v w : Values}
  {s : State} {a : Answer} {rest : List Answer} {f : InFlight} {p : Plan}

/-- The state in which the first call of the list is outstanding. -/
def withOutstanding (d : Decoded) (out : Bool) (c : Call) (k : Nat) (v : Values) (s : State) : State :=
  if out then s else issue d c k v s

theorem serve_nil : serve d reply out [] k v s = respond .ok k (replyPayload (numOf s.built.num) reply v) s := by
  cases out <;> rfl

@[simp] theorem withOutstanding_ansIn : (withOutstanding d out c k v s).ansIn = s.ansIn := by
  cases out <;> rfl

@[simp] theorem withOutstanding_built : (withOutstanding d out c k v s).built = s.built := by
  cases out <;> rfl

@[simp] theorem withOutstanding_tag : (withOutstanding d out c k v s).tag = s.tag := by
  cases out <;> rfl

@[simp] theorem withOutstanding_cmdIn : (withOutstanding d out c k v s).cmdIn = s.cmdIn := by
  cases out <;> rfl

@[simp] theorem withOutstanding_resetIn : (withOutstanding d out c k v s).resetIn = s.resetIn := by
  cases out <;> rfl

@[simp] theorem withOutstanding_grain : (withOutstanding d out c k v s).grain = s.grain := by
  cases out <;> rfl

/-- Without an answer the call stays outstanding (R27). -/
theorem serve_waits (h : s.ansIn = []) :
    serve d reply out (c :: cs) k v s = withOutstanding d out c k v s := by
  have h1 : (withOutstanding d out c k v s).ansIn = [] := by simp [h]
  rw [serve]
  simp only [withOutstanding] at h1 ⊢
  rw [h1]

/-- A failed answer ends the command (R105). -/
theorem serve_fails (h : s.ansIn = a :: rest) (hc : accept c a = none) :
    serve d reply out (c :: cs) k v s =
      raise .transportFailure k (receive a rest (withOutstanding d out c k v s)) := by
  have h1 : (withOutstanding d out c k v s).ansIn = a :: rest := by simp [h]
  rw [serve]
  simp only [withOutstanding] at h1 ⊢
  rw [h1]
  simp only [hc]

/-- A good answer completes the call and the next is issued (R35). -/
theorem serve_goes_on (h : s.ansIn = a :: rest) (hc : accept c a = some w) :
    serve d reply out (c :: cs) k v s =
      serve d reply false cs (k + 1) (appendValues v w) (receive a rest (withOutstanding d out c k v s)) := by
  have h1 : (withOutstanding d out c k v s).ansIn = a :: rest := by simp [h]
  rw [serve]
  simp only [withOutstanding] at h1 ⊢
  rw [h1]
  simp only [hc]

/-- Everything serving can do to the fields no call touches: the parameters, TAG, the requester's words, a pending
reset and the grain stay as they are. -/
theorem serve_frame (cs : List Call) : ∀ (out : Bool) (k : Nat) (v : Values) (s : State),
    (serve d reply out cs k v s).built = s.built ∧ (serve d reply out cs k v s).tag = s.tag ∧
      (serve d reply out cs k v s).cmdIn = s.cmdIn ∧ (serve d reply out cs k v s).resetIn = s.resetIn ∧
      (serve d reply out cs k v s).grain = s.grain := by
  induction cs with
  | nil => intro out k v s; simp [serve_nil]
  | cons c cs ih =>
    intro out k v s
    cases h : s.ansIn with
    | nil => simp [serve_waits h]
    | cons a rest =>
      cases hc : accept c a with
      | none => simp [serve_fails h hc]
      | some w =>
        rw [serve_goes_on h hc]
        simpa using ih false (k + 1) (appendValues v w) (receive a rest (withOutstanding d out c k v s))

/-- A serving that starts with a call still to issue, or with SEQ recording the outstanding one, ends idle or with SEQ
recording the outstanding call of the same command, and then no answer is left. -/
theorem serve_seq (cs : List Call) : ∀ (out : Bool) (k : Nat) (v : Values) (s : State),
    (out = true → s.seq = some ⟨d, k, v, true, false⟩) →
      (serve d reply out cs k v s).seq = none ∨
        ∃ n u, k ≤ n ∧ n < k + cs.length ∧ (serve d reply out cs k v s).seq = some ⟨d, n, u, true, false⟩ ∧
          (serve d reply out cs k v s).ansIn = [] := by
  induction cs with
  | nil => intro out k v s _; exact .inl (by simp [serve_nil])
  | cons c cs ih =>
    intro out k v s hs
    cases h : s.ansIn with
    | nil =>
      refine .inr ⟨k, v, Nat.le_refl _, by simp, ?_, ?_⟩
      · rw [serve_waits h]
        cases out with
        | false => rfl
        | true => exact hs rfl
      · rw [serve_waits h]; simpa using h
    | cons a rest =>
      cases hc : accept c a with
      | none => exact .inl (by simp [serve_fails h hc])
      | some w =>
        rw [serve_goes_on h hc]
        rcases ih false (k + 1) (appendValues v w) (receive a rest (withOutstanding d out c k v s)) (by simp) with
          h0 | ⟨n, u, h1, h2, h3⟩
        · exact .inl h0
        · exact .inr ⟨n, u, by omega, by simp; omega, h3⟩

@[simp] theorem startCommand_raise (e : Status) : startCommand i (.raise e) s = .next (raise e 0 s) := rfl

@[simp] theorem startCommand_refuse (r : Refusal) : startCommand i (.refuse r) s = .refused r := rfl

@[simp] theorem startCommand_setTag (t : Byte) :
    startCommand i (.setTag t) s = .next (respond .ok 0 .none { s with tag := t }) := rfl

@[simp] theorem startCommand_calls :
    startCommand i (.calls cs reply) s = .next (serve (.legal i) reply false cs 0 noValues s) := rfl

/-- Everything `followPlan` can do: what it answers next delivers a failure or an operand error, writes TAG, or goes on
with the calls. -/
theorem followPlan_next {serving : List Call → Reply → State} {t : State} (h : followPlan p f s serving = .next t) :
    (f.failed = true ∧ t = raise .transportFailure f.done s) ∨
      (f.failed = false ∧
        ((∃ e, p = .raise e ∧ t = raise e f.done s) ∨
          (∃ b, p = .setTag b ∧ t = respond .ok f.done .none { s with tag := b }) ∨
          ∃ cs reply, p = .calls cs reply ∧ t = serving cs reply)) := by
  unfold followPlan at h
  split at h
  · exact .inl ⟨‹_›, by simpa using h.symm⟩
  · refine .inr ⟨Bool.eq_false_iff.mpr ‹¬f.failed = true›, ?_⟩
    split at h
    · exact .inl ⟨_, rfl, by simpa using h.symm⟩
    · cases h
    · exact .inr (.inl ⟨_, rfl, by simpa using h.symm⟩)
    · exact .inr (.inr ⟨_, _, rfl, by simpa using h.symm⟩)

/-- All calls are completed: the response is delivered. -/
theorem serveOnce_done (h : cs[f.done]? = none) :
    serveOnce f s cs reply = respond .ok f.done (replyPayload (numOf s.built.num) reply f.values) s := by
  simp [serveOnce, h]

/-- The next call is issued. -/
theorem serveOnce_issues (h : cs[f.done]? = some c) (ho : f.outstanding = false) :
    serveOnce f s cs reply = issue f.cmd c f.done f.values s := by
  simp [serveOnce, h, ho]

/-- Without an answer the instance waits (R27). -/
theorem serveOnce_waits (h : cs[f.done]? = some c) (ho : f.outstanding = true) (ha : s.ansIn = []) :
    serveOnce f s cs reply = s := by
  simp [serveOnce, h, ho, ha]

/-- The outstanding call is answered. -/
theorem serveOnce_receives (h : cs[f.done]? = some c) (ho : f.outstanding = true) (ha : s.ansIn = a :: rest) :
    serveOnce f s cs reply = { receive a rest s with seq := some (recordAnswer f c a) } := by
  simp [serveOnce, h, ho, ha]

theorem recordAnswer_accepted (h : accept c a = some w) :
    recordAnswer f c a = { f with done := f.done + 1, values := appendValues f.values w, outstanding := false } := by
  simp [recordAnswer, h]

theorem recordAnswer_failed (h : accept c a = none) :
    recordAnswer f c a = { f with outstanding := false, failed := true } := by
  simp [recordAnswer, h]

/-- Everything a reset can do. -/
theorem resetInstance_next {r : ResetRequest} {t : State} (h : resetInstance r s = .next t) :
    deviceAddressOk (initialAddress r.given s.built) = true ∧
      t = { s with
        tag := BitVec.ofNat 8 (initialAddress r.given s.built), seq := none, resetIn := none,
        trace := s.trace ++ [.reset] } := by
  unfold resetInstance at h
  split at h
  · exact ⟨‹_›, by simpa using h.symm⟩
  · cases h

end Sys2Proof.Machine
end

