-- ==== Sys2Proof/Laws/PerInstr.lean ====
section
/-! SUPPORT. Facts about every command as syntax, one lemma per constructor. -/

namespace Sys2Proof.Laws

open Sys2Proof Sys2Proof.Machine

/-- The encoding of a well-formed command is a header with the FAM of the strap,
followed by exactly the payload words its header announces (R43, R48). -/
def EncodeLength.Statement (i : Instr) : Prop :=
  ∀ (num : Numerics) (strap : Family), i.wellFormed num strap = true →
    ∃ h payload, encode num strap i = h :: payload ∧ payload.length = paylen num h ∧ (headerOf h).fam = strap

/-- A command that is a header alone. -/
theorem encodeLength_headerOnly {i : Instr} {num : Numerics} {strap : Family} {f : Header}
    (he : encode num strap i = [headerWord f]) (hf : f.fam = strap) (hp : paylen num (headerWord f) = 0) :
    ∃ h payload, encode num strap i = h :: payload ∧ payload.length = paylen num h ∧ (headerOf h).fam = strap :=
  ⟨headerWord f, [], he, hp.symm, by simp [hf]⟩

/-- The strap of a well-formed command of a family is that family. -/
theorem strap_of_wellFormed {i : Instr} {num : Numerics} {strap f : Family} (h : i.wellFormed num strap = true) (hi : i.family = some f) :
    f = strap := by
  simp only [Instr.wellFormed, Instr.familyMatches, hi, Bool.and_eq_true, beq_iff_eq] at h
  exact h.1.1

theorem EncodeLength.connect : EncodeLength.Statement .connect := by
  intro num strap _
  exact encodeLength_headerOnly rfl rfl (by simp [paylen])

theorem EncodeLength.settag (tag : Half) : EncodeLength.Statement (.settag tag) := by
  intro num strap _
  exact encodeLength_headerOnly rfl rfl (by simp [paylen])

theorem EncodeLength.setaddr (address : Half) : EncodeLength.Statement (.setaddr address) := by
  intro num strap _
  exact encodeLength_headerOnly rfl rfl (by simp [paylen])

theorem EncodeLength.setuart (baud : Half) (parity : Byte) : EncodeLength.Statement (.setuart baud parity) := by
  intro num strap _
  exact encodeLength_headerOnly rfl rfl (by simp [paylen])

theorem EncodeLength.rdver : EncodeLength.Statement .rdver := by
  intro num strap _
  exact encodeLength_headerOnly rfl rfl (by simp [paylen])

theorem EncodeLength.dioSetch (channel : Byte) (on : Bool) : EncodeLength.Statement (.dioSetch channel on) := by
  intro num strap h
  exact encodeLength_headerOnly rfl (strap_of_wellFormed h rfl) (by simp [paylen])

/-- The element count of a batch is read back from B[7:0]. -/
theorem batch_count {n : Nat} (h : n ≤ 255) : ((BitVec.ofNat 16 n).extractLsb' 0 8).toNat = n := by
  simp [BitVec.extractLsb'_toNat]
  omega

theorem EncodeLength.dioSetchs (start : Byte) (actions : List Action) :
    EncodeLength.Statement (.dioSetchs start actions) := by
  intro num strap h
  have hs := strap_of_wellFormed h (f := .dio) rfl
  have hn : actions.length ≤ 255 := by
    simpa [Instr.wellFormed, Instr.batchFits, Instr.valuesFit, Instr.familyMatches, Instr.family, ← hs] using h
  refine ⟨_, _, rfl, ?_, by simp [hs]⟩
  simp [paylen, batch_count hn]

theorem EncodeLength.dioSetmode (channel : Byte) (mode : Half) :
    EncodeLength.Statement (.dioSetmode channel mode) := by
  intro num strap h
  exact encodeLength_headerOnly rfl (strap_of_wellFormed h rfl) (by simp [paylen])

theorem EncodeLength.dioRdchs : EncodeLength.Statement .dioRdchs := by
  intro num strap h
  exact encodeLength_headerOnly rfl (strap_of_wellFormed h rfl) (by simp [paylen])

theorem EncodeLength.dioRdout : EncodeLength.Statement .dioRdout := by
  intro num strap h
  exact encodeLength_headerOnly rfl (strap_of_wellFormed h rfl) (by simp [paylen])

theorem EncodeLength.rlySetch (channel : Byte) (on : Bool) : EncodeLength.Statement (.rlySetch channel on) := by
  intro num strap h
  exact encodeLength_headerOnly rfl (strap_of_wellFormed h rfl) (by simp [paylen])

theorem EncodeLength.rlySetchs (start : Byte) (actions : List Action) :
    EncodeLength.Statement (.rlySetchs start actions) := by
  intro num strap h
  have hs := strap_of_wellFormed h (f := .rly) rfl
  have hn : actions.length ≤ 255 := by
    simpa [Instr.wellFormed, Instr.batchFits, Instr.valuesFit, Instr.familyMatches, Instr.family, ← hs] using h
  refine ⟨_, _, rfl, ?_, by simp [hs]⟩
  simp [paylen, batch_count hn]

theorem EncodeLength.rlyRdchs : EncodeLength.Statement .rlyRdchs := by
  intro num strap h
  exact encodeLength_headerOnly rfl (strap_of_wellFormed h rfl) (by simp [paylen])

theorem EncodeLength.rlyOpen (channel : Byte) : EncodeLength.Statement (.rlyOpen channel) := by
  intro num strap h
  exact encodeLength_headerOnly rfl (strap_of_wellFormed h rfl) (by simp [paylen])

theorem EncodeLength.rlyClose (channel : Byte) : EncodeLength.Statement (.rlyClose channel) := by
  intro num strap h
  exact encodeLength_headerOnly rfl (strap_of_wellFormed h rfl) (by simp [paylen])

theorem EncodeLength.aiSettype (channel : Byte) (type : Half) :
    EncodeLength.Statement (.aiSettype channel type) := by
  intro num strap h
  exact encodeLength_headerOnly rfl (strap_of_wellFormed h rfl) (by simp [paylen])

theorem EncodeLength.aiSettypes (types : Oct Half) : EncodeLength.Statement (.aiSettypes types) := by
  intro num strap h
  exact ⟨_, _, rfl, by simp [paylen], by simp [strap_of_wellFormed h (f := .ai) rfl]⟩

theorem EncodeLength.aiGettypes : EncodeLength.Statement .aiGettypes := by
  intro num strap h
  exact encodeLength_headerOnly rfl (strap_of_wellFormed h rfl) (by simp [paylen])

theorem EncodeLength.aiRdch (channel : Byte) : EncodeLength.Statement (.aiRdch channel) := by
  intro num strap h
  exact encodeLength_headerOnly rfl (strap_of_wellFormed h rfl) (by simp [paylen])

theorem EncodeLength.aiRdchs : EncodeLength.Statement .aiRdchs := by
  intro num strap h
  exact encodeLength_headerOnly rfl (strap_of_wellFormed h rfl) (by simp [paylen])

theorem EncodeLength.aoSetch (channel : Byte) (value : EngValue) :
    EncodeLength.Statement (.aoSetch channel value) := by
  intro num strap h
  have hs := strap_of_wellFormed h (f := .ao) rfl
  have hv : valueFits num value = true := by
    simpa [Instr.wellFormed, Instr.batchFits, Instr.valuesFit, Instr.familyMatches, Instr.family, ← hs] using h
  exact ⟨_, _, rfl, by simp [paylen, wordsOfValue_length hv], by simp [hs]⟩

theorem EncodeLength.aoSetchs (values : Oct EngValue) : EncodeLength.Statement (.aoSetchs values) := by
  intro num strap h
  have hs := strap_of_wellFormed h (f := .ao) rfl
  have hv : values.toList.all (valueFits num) = true := by
    simp only [Instr.wellFormed, Instr.valuesFit, Bool.and_eq_true] at h
    exact h.2
  exact ⟨_, _, rfl, by simp [paylen, flatMap_wordsOfValue_length hv], by simp [hs]⟩

theorem EncodeLength.aoGetvals : EncodeLength.Statement .aoGetvals := by
  intro num strap h
  exact encodeLength_headerOnly rfl (strap_of_wellFormed h rfl) (by simp [paylen])

end Sys2Proof.Laws
end

