-- ==== Sys2Proof/Machine/AssemblyText.lean ====
section
/-! DEFINITION. The text of an assembler line (R55, R56): its words and brackets, numbers, values of the instance's NUM,
the family prefix of a common command, and the words of the command. -/

namespace Sys2Proof.Machine

/-- The value of a digit in base 10 or 16. -/
def digitValue (base : Nat) (c : Char) : Option Nat :=
  let n := c.toNat
  let v := if 48 ≤ n && n ≤ 57 then some (n - 48)
    else if 97 ≤ n && n ≤ 102 then some (n - 87)
    else if 65 ≤ n && n ≤ 70 then some (n - 55)
    else none
  v.bind (fun d => if d < base then some d else none)

/-- The value of digits read on from `acc`; none if one is no digit. -/
def digitsFrom (base acc : Nat) : List Char → Option Nat
  | [] => some acc
  | c :: cs =>
    match digitValue base c with
    | some d => digitsFrom base (acc * base + d) cs
    | none => none

/-- The value of one digit or more. -/
def digits (base : Nat) (cs : List Char) : Option Nat := if cs.isEmpty then none else digitsFrom base 0 cs

/-- The hexadecimal digits after `0x`. -/
def afterHexPrefix : List Char → Option (List Char)
  | '0' :: 'x' :: cs => some cs
  | _ => none

/-- A number: decimal, or hexadecimal after `0x` (R55). -/
def numberOfText (cs : List Char) : Option Nat :=
  match afterHexPrefix cs with
  | some hs => digits 16 hs
  | none => digits 10 cs

/-- The binary64 magnitude nearest to n / d, ties to even, an infinity above the finite range (R55, R70). With `l` the
position of the top bit of n · 2^1200 / d, the quotient lies in [2^(l−1200), 2^(l−1199)); below l = 178 it is subnormal
and its pattern is n · 2^1074 / d rounded. As in `binary64Div1000` a carry of the rounding runs into the exponent. -/
def binary64OfRatio (n d : Nat) : Binary64 :=
  let q := n * 2 ^ 1200 / d
  let l := Nat.log2 q
  let pattern :=
    if q = 0 then 0
    else if l < 178 then roundNearestEven (n * 2 ^ 1074) d
    else (l - 178) * 2 ^ 52 + roundNearestEven (n * 2 ^ (1252 - l)) (d * 2 ^ (l - 1252))
  BitVec.ofNat 64 (min pattern (2047 * 2 ^ 52))

/-- An unsigned decimal literal, with or without a fraction, as numerator and denominator. -/
def decimalParts (cs : List Char) : Option (Nat × Nat) :=
  let whole := cs.takeWhile (· ≠ '.')
  match cs.dropWhile (· ≠ '.') with
  | [] => (digits 10 whole).map (fun n => (n, 1))
  | _ :: fraction =>
    match digits 10 whole, digits 10 fraction with
    | some _, some _ => (digits 10 (whole ++ fraction)).map (fun n => (n, 10 ^ fraction.length))
    | _, _ => none

/-- A decimal literal, which may be negative, as sign, numerator and denominator. -/
def decimalOfText (cs : List Char) : Option (Bool × Nat × Nat) :=
  match cs with
  | '-' :: rest => (decimalParts rest).map (fun p => (true, p))
  | _ => (decimalParts cs).map (fun p => (false, p))

/-- A bit pattern of `w` words: `0x` with eight hexadecimal digits for each. -/
def patternOfText (w : Nat) (cs : List Char) : Option Nat :=
  match afterHexPrefix cs with
  | some hs => if hs.length = 8 * w then digits 16 hs else none
  | none => none

/-- A binary64 value: a bit pattern of 16 hexadecimal digits, or a decimal literal (R55). -/
def binary64OfText (cs : List Char) : Option Binary64 :=
  match patternOfText 2 cs with
  | some p => some (BitVec.ofNat 64 p)
  | none =>
    (decimalOfText cs).map (fun p => binary64OfRatio p.2.1 p.2.2 ||| (if p.1 then 0x8000000000000000 else 0))

/-- A value of F that a line has: R55 says how for binary64; in the exact instance a decimal literal is the number it
is, in another record a value is written as its bit pattern (DESIGN CHOICE, log 18). -/
def valueOfText (num : Numerics) (cs : List Char) : Option EngValue :=
  match num with
  | .binary64 => (binary64OfText cs).map .float
  | .exact _ =>
    ((decimalOfText cs).map (fun p => .rational (mkRat (if p.1 then -(p.2.1 : Int) else p.2.1) p.2.2))).filter
      (valueFits num)
  | .record w _ _ => (patternOfText w cs).map .code

/-- An Action of a batch: its spelling, or its payload word as a number (R55, R56). -/
def actionOfText (cs : List Char) : Option Action :=
  if cs = ['o', 'n'] then some .on
  else if cs = ['o', 'f', 'f'] then some .off
  else if cs = ['f', 'l', 'i', 'p'] then some .flip
  else (numberOfText cs).bind (fun n => (asmHalf n).bind actionOfPattern)

/-- The pieces of a line: words, commas and brackets. -/
inductive AsmToken where
  | word (cs : List Char)
  | comma
  | opening
  | closing
deriving DecidableEq, Repr

/-- The word read so far, if there is one, then these tokens. -/
def endWord (acc : List Char) (ts : List AsmToken) : List AsmToken :=
  if acc.isEmpty then ts else .word acc :: ts

/-- Cut a line, the word read so far being `acc`: blanks separate, commas and brackets stand for themselves. -/
def cutLine (acc : List Char) : List Char → List AsmToken
  | [] => endWord acc []
  | c :: cs =>
    if c = ' ' then endWord acc (cutLine [] cs)
    else if c = ',' then endWord acc (.comma :: cutLine [] cs)
    else if c = '[' then endWord acc (.opening :: cutLine [] cs)
    else if c = ']' then endWord acc (.closing :: cutLine [] cs)
    else cutLine (acc ++ [c]) cs

/-- An operand as it is written: a word, or words in brackets. -/
inductive Written where
  | one (cs : List Char)
  | seq (l : List (List Char))
deriving DecidableEq, Repr

/-- Where the reader of operands is. -/
inductive Place where
  | start
  | afterOperand
  | afterComma
  | seqStart
  | seqItem (l : List (List Char))
  | seqComma (l : List (List Char))
deriving DecidableEq, Repr

/-- The operands, separated by commas, a sequence in brackets (R55). -/
def readOperands : Place → List AsmToken → Option (List Written)
  | .start, [] => some []
  | .afterOperand, [] => some []
  | .start, .word w :: ts => (readOperands .afterOperand ts).map (fun l => .one w :: l)
  | .afterComma, .word w :: ts => (readOperands .afterOperand ts).map (fun l => .one w :: l)
  | .start, .opening :: ts => readOperands .seqStart ts
  | .afterComma, .opening :: ts => readOperands .seqStart ts
  | .afterOperand, .comma :: ts => readOperands .afterComma ts
  | .seqStart, .closing :: ts => (readOperands .afterOperand ts).map (fun l => .seq [] :: l)
  | .seqStart, .word w :: ts => readOperands (.seqItem [w]) ts
  | .seqComma k, .word w :: ts => readOperands (.seqItem (k ++ [w])) ts
  | .seqItem k, .comma :: ts => readOperands (.seqComma k) ts
  | .seqItem k, .closing :: ts => (readOperands .afterOperand ts).map (fun l => .seq k :: l)
  | _, _ => none

/-- What an operand of a row is read as. -/
inductive OperandKind where
  | number
  | flag
  | actions
  | numbers
  | value
  | values
deriving DecidableEq, Repr

/-- The operands of a row in the order they are written (R55). -/
def operandKinds : Opcode → List OperandKind
  | .connect => []
  | .settag => [.number]
  | .setaddr => [.number]
  | .setuart => [.number, .number]
  | .rdver => []
  | .dioSetch => [.number, .flag]
  | .dioSetchs => [.number, .actions]
  | .dioSetmode => [.number, .number]
  | .dioRdchs => []
  | .dioRdout => []
  | .rlySetch => [.number, .flag]
  | .rlySetchs => [.number, .actions]
  | .rlyRdchs => []
  | .rlyOpen => [.number]
  | .rlyClose => [.number]
  | .aiSettype => [.number, .number]
  | .aiSettypes => [.numbers]
  | .aiGettypes => []
  | .aiRdch => [.number]
  | .aiRdchs => []
  | .aoSetch => [.number, .value]
  | .aoSetchs => [.values]
  | .aoGetvals => []

/-- Read every word of a sequence. -/
def readAll {α : Type} (f : List Char → Option α) : List (List Char) → Option (List α)
  | [] => some []
  | w :: ws =>
    match f w, readAll f ws with
    | some x, some xs => some (x :: xs)
    | _, _ => none

/-- A written operand, read as its kind; `true` and `false` are spellings of a flag (R56). -/
def readOperand (num : Numerics) : OperandKind → Written → Option AsmOperand
  | .number, .one w => (numberOfText w).map .num
  | .flag, .one w =>
    if w = ['t', 'r', 'u', 'e'] then some (.flag true)
    else if w = ['f', 'a', 'l', 's', 'e'] then some (.flag false)
    else (numberOfText w).map .num
  | .actions, .seq l => (readAll actionOfText l).map .acts
  | .numbers, .seq l => (readAll numberOfText l).map .nums
  | .value, .one w => (valueOfText num w).map .val
  | .values, .seq l => (readAll (valueOfText num) l).map .vals
  | _, _ => none

/-- The written operands of a row, each read as its kind; none if there are more or fewer. -/
def readRow (num : Numerics) : List OperandKind → List Written → Option (List AsmOperand)
  | [], [] => some []
  | k :: ks, w :: ws =>
    match readOperand num k w, readRow num ks ws with
    | some o, some os => some (o :: os)
    | _, _ => none
  | _, _ => none

/-- The family a prefix names, in lower or upper case (R55). -/
def familyOfText (cs : List Char) : Option Family :=
  if cs = ['d', 'i', 'o'] ∨ cs = ['D', 'I', 'O'] then some .dio
  else if cs = ['r', 'l', 'y'] ∨ cs = ['R', 'L', 'Y'] then some .rly
  else if cs = ['a', 'i'] ∨ cs = ['A', 'I'] then some .ai
  else if cs = ['a', 'o'] ∨ cs = ['A', 'O'] then some .ao
  else none

/-- The row of a mnemonic given as characters (R55). -/
def opcodeOfText (cs : List Char) : Option Opcode :=
  allOpcodes.find? (fun r => cs == (mnemonicLower r).toList || cs == (mnemonicUpper r).toList)

/-- The five rows that exist in every family (R46). -/
def isCommonRow : Opcode → Bool
  | .connect => true
  | .settag => true
  | .setaddr => true
  | .setuart => true
  | .rdver => true
  | _ => false

/-- The family and the row a line begins with. The family of a common command is that of the instance the line is
addressed to, unless it is written before a colon (R55). -/
def readMnemonic (strap : Family) (cs : List Char) : Option (Family × Opcode) :=
  match cs.dropWhile (· ≠ ':') with
  | [] => (opcodeOfText cs).map (fun r => (strap, r))
  | _ :: name =>
    match familyOfText (cs.takeWhile (· ≠ ':')), opcodeOfText name with
    | some f, some r => if isCommonRow r then some (f, r) else none
    | _, _ => none

/-- The family and the command of a line addressed to an instance strapped `strap` with the numerics `num` (R55,
R56). -/
def assembleText (num : Numerics) (strap : Family) (line : List Char) : Option (Family × Instr) :=
  match cutLine [] line with
  | .word m :: ts =>
    match readMnemonic strap m, readOperands .start ts with
    | some (f, r), some ws => ((readRow num (operandKinds r) ws).bind (assembleRow r)).map (fun i => (f, i))
    | _, _ => none
  | _ => none

/-- The words of a line (R55, R43). -/
def wordsOfText (num : Numerics) (strap : Family) (line : List Char) : Option (List Word) :=
  (assembleText num strap line).map (fun p => encode num p.1 p.2)

end Sys2Proof.Machine
end

