-- ==== Sys2Proof/Tests/Slice0.lean ====
section
/-! SUPPORT. Tests. Expected results are the spec's: the words and responses of 95_test_vectors.md, sections 1 and 2,
on the artificial parameters of its section 3.1. The last part shows, for every statement with hypotheses, a state and
operands that meet them. -/

namespace Sys2Proof.Tests

open Sys2Proof Sys2Proof.Machine

/-- The artificial parameters of 95_test_vectors.md section 3.1. -/
def params (f : Family) : Build :=
  ⟨f, ⟨1, by decide⟩, 9600, ⟨0x0100, 0x0200, 0x0300, 0x0A00, 0x0B00, 0x0C00⟩, ⟨0x1100, 0x1A00, 0x1B00, 0x1C00⟩,
    ⟨0x2200, 0x2300, 0x2A00, 0x2B00, 0x2C00⟩, ⟨0x3100, 0x3A00, 0x3B00, 0x3C00⟩, .binary64⟩

/-- An instance after reset with words presented and answers to come, its steps joined. -/
def fixture (f : Family) (words : List Word) (answers : List Answer) : State :=
  ⟨params f, 1, none, none, words, answers, [], .command⟩

/-- The same with single steps. -/
def single (f : Family) (words : List Word) (answers : List Answer) : State :=
  { fixture f words answers with grain := .event }

/-- One step of it: the calls, the responses, TAG and whether SEQ is idle. -/
def runOne (f : Family) (words : List Word) (answers : List Answer) :
    Option (List Call × List Response × Byte × Bool) :=
  match step (fixture f words answers) with
  | .next t => some (callsIn t.trace, responsesIn t.trace, t.tag, t.seq.isNone)
  | .fault _ => none
  | .refused _ => none

/-! ## WellFormed refuses ill-formed terms -/

theorem test_wf_refuses_command_of_another_family : (Instr.rlyOpen 4).wellFormed .binary64 .dio = false := by decide

theorem test_wf_refuses_batch_of_256 :
    (Instr.dioSetchs 0 (List.replicate 256 .on)).wellFormed .binary64 .dio = false := by decide +kernel

theorem test_wf_accepts_batch_of_255 :
    (Instr.dioSetchs 0 (List.replicate 255 .on)).wellFormed .binary64 .dio = true := by decide +kernel

/-! ## Decoding, one word per command (section 2.6) -/

theorem test_decode_connect : decode .binary64 .ai 0x80000000 [] = .legal .connect := by decide
theorem test_decode_settag : decode .binary64 .dio 0x01000011 [] = .legal (.settag 17) := by decide
theorem test_decode_setaddr : decode .binary64 .ao 0xC20000FF [] = .legal (.setaddr 255) := by decide
theorem test_decode_setuart : decode .binary64 .ai 0x83020005 [] = .legal (.setuart 5 2) := by decide
theorem test_decode_rdver : decode .binary64 .rly 0x44000000 [] = .legal .rdver := by decide
theorem test_decode_dioSetch : decode .binary64 .dio 0x10030001 [] = .legal (.dioSetch 3 true) := by decide
theorem test_decode_dioSetchs :
    decode .binary64 .dio 0x11060002 [0x0000FF00, 0x00005500] = .legal (.dioSetchs 6 [.on, .flip]) := by decide
theorem test_decode_dioSetmode : decode .binary64 .dio 0x12020001 [] = .legal (.dioSetmode 2 1) := by decide
theorem test_decode_dioRdchs : decode .binary64 .dio 0x13000000 [] = .legal .dioRdchs := by decide
theorem test_decode_dioRdout : decode .binary64 .dio 0x14000000 [] = .legal .dioRdout := by decide
theorem test_decode_rlySetch : decode .binary64 .rly 0x50070001 [] = .legal (.rlySetch 7 true) := by decide
theorem test_decode_rlySetchs : decode .binary64 .rly 0x51020001 [0] = .legal (.rlySetchs 2 [.off]) := by decide
theorem test_decode_rlyRdchs : decode .binary64 .rly 0x53000000 [] = .legal .rlyRdchs := by decide
theorem test_decode_rlyOpen : decode .binary64 .rly 0x55040000 [] = .legal (.rlyOpen 4) := by decide
theorem test_decode_rlyClose : decode .binary64 .rly 0x56040000 [] = .legal (.rlyClose 4) := by decide
theorem test_decode_aiSettype : decode .binary64 .ai 0x90050003 [] = .legal (.aiSettype 5 3) := by decide
theorem test_decode_aiSettypes :
    decode .binary64 .ai 0x91000000 [0, 1, 2, 3, 4, 0, 1, 2] = .legal (.aiSettypes ⟨0, 1, 2, 3, 4, 0, 1, 2⟩) := by
  decide
theorem test_decode_aiGettypes : decode .binary64 .ai 0x92000000 [] = .legal .aiGettypes := by decide
theorem test_decode_aiRdch : decode .binary64 .ai 0x93020000 [] = .legal (.aiRdch 2) := by decide
theorem test_decode_aiRdchs : decode .binary64 .ai 0x94000000 [] = .legal .aiRdchs := by decide
theorem test_decode_aoSetch :
    decode .binary64 .ao 0xD0020000 [0x00000000, 0x3FF80000] = .legal (.aoSetch 2 (.float 0x3FF8000000000000)) := by
  decide
theorem test_decode_aoSetchs :
    decode .binary64 .ao 0xD1000000 [0, 0x3FF00000, 0, 0, 0, 0, 0, 0, 0, 0, 0, 0, 0, 0, 0, 0x40200000] =
      .legal (.aoSetchs ⟨.float 0x3FF0000000000000, .float 0, .float 0, .float 0, .float 0, .float 0, .float 0,
        .float 0x4020000000000000⟩) := by decide
theorem test_decode_aoGetvals : decode .binary64 .ao 0xD2000000 [] = .legal .aoGetvals := by decide

/-! ## Illegal words (section 2.6), one per reason -/

theorem test_illegal_family : decode .binary64 .ai 0x02000005 [] = .illegal .familyMismatch := by decide
theorem test_illegal_opcode : decode .binary64 .rly 0x54000000 [] = .illegal .undefinedOpcode := by decide
theorem test_illegal_reserved_field :
    decode .binary64 .dio 0x11000102 [0x0000FF00, 0x0000FF00] = .illegal .reservedHeaderField := by decide
theorem test_illegal_payload_bits :
    decode .binary64 .dio 0x11000001 [0x0001FF00] = .illegal .reservedPayloadBits := by decide
theorem test_illegal_action :
    decode .binary64 .dio 0x11060003 [0x0000FF00, 0x0000FF00, 0x00001234] = .illegal .notAnAction := by decide

/-! ## One step per command (sections 1, 2.7 and 2.8) -/

theorem test_connect_fails :
    runOne .dio [0x00000000] [.failure] = some ([.connect], [⟨.transportFailure, 0, .none⟩], 1, true) := by decide
theorem test_settag_255 : runOne .dio [0x010000FF] [] = some ([], [⟨.ok, 0, .none⟩], 255, true) := by decide
theorem test_settag_256 :
    runOne .dio [0x01000100] [] = some ([], [⟨.invalidDeviceAddress, 0, .none⟩], 1, true) := by decide
theorem test_setaddr_255_on_relay :
    runOne .rly [0x420000FF] [.done] =
      some ([.writeHolding 0x1B00 0x000000FF 1], [⟨.ok, 1, .none⟩], 1, true) := by decide
theorem test_setuart :
    runOne .dio [0x03020005] [.done] =
      some ([.writeHolding 0x0A00 0x00020005 1], [⟨.ok, 1, .none⟩], 1, true) := by decide
theorem test_rdver :
    runOne .rly [0x44000000] [.words [0x0064]] =
      some ([.readHoldings 0x1C00 1 1], [⟨.ok, 1, .register 0x0064⟩], 1, true) := by decide
theorem test_dioSetch :
    runOne .dio [0x10070000] [.done] = some ([.writeCoil 0x0107 0x0000 1], [⟨.ok, 1, .none⟩], 1, true) := by decide
theorem test_dioSetch_channel_8 :
    runOne .dio [0x10080001] [.done] = some ([], [⟨.invalidChannel, 0, .none⟩], 1, true) := by decide
theorem test_dioSetchs_failure_at_2 :
    runOne .dio [0x11020004, 0x0000FF00, 0, 0x0000FF00, 0] [.done, .done, .failure] =
      some ([.writeCoil 0x0102 0xFF00 1, .writeCoil 0x0103 0 1, .writeCoil 0x0104 0xFF00 1],
        [⟨.transportFailure, 2, .none⟩], 1, true) := by decide
theorem test_dioSetchs_whole_batch_check :
    runOne .dio [0x11060003, 0x0000FF00, 0x0000FF00, 0x0000FF00] [] =
      some ([], [⟨.invalidChannel, 0, .none⟩], 1, true) := by decide
theorem test_dioSetmode :
    runOne .dio [0x12070002] [.done] =
      some ([.writeHolding 0x0107 0x00000002 1], [⟨.ok, 1, .none⟩], 1, true) := by decide
theorem test_dioRdchs :
    runOne .dio [0x13000000] [.bits [true, false, true, false, false, false, false, false]] =
      some ([.readDiscretes 0x0200 8 1],
        [⟨.ok, 1, .bank ⟨true, false, true, false, false, false, false, false⟩⟩], 1, true) := by decide
theorem test_dioRdout_short_answer :
    runOne .dio [0x14000000] [.bits [true]] =
      some ([.readCoils 0x0100 8 1], [⟨.transportFailure, 0, .none⟩], 1, true) := by decide
theorem test_rlySetch :
    runOne .rly [0x50070001] [.done] = some ([.writeCoil 0x1107 0xFF00 1], [⟨.ok, 1, .none⟩], 1, true) := by decide
theorem test_rlySetchs_flip :
    runOne .rly [0x51070001, 0x00005500] [.done] =
      some ([.writeCoil 0x1107 0x5500 1], [⟨.ok, 1, .none⟩], 1, true) := by decide
theorem test_rlyRdchs :
    runOne .rly [0x53000000] [.bits [true, true, false, false, false, false, false, false]] =
      some ([.readCoils 0x1100 8 1],
        [⟨.ok, 1, .bank ⟨true, true, false, false, false, false, false, false⟩⟩], 1, true) := by decide
theorem test_rlyOpen :
    runOne .rly [0x55040000] [.done] = some ([.writeCoil 0x1104 0x0000 1], [⟨.ok, 1, .none⟩], 1, true) := by decide
theorem test_rlyClose :
    runOne .rly [0x56040000] [.done] = some ([.writeCoil 0x1104 0xFF00 1], [⟨.ok, 1, .none⟩], 1, true) := by decide
theorem test_aiSettype_unchecked_code :
    runOne .ai [0x9005BEEF] [.done] =
      some ([.writeHolding 0x2305 0x0000BEEF 1], [⟨.ok, 1, .none⟩], 1, true) := by decide
theorem test_aiSettypes :
    runOne .ai [0x91000000, 0, 1, 2, 3, 4, 0, 1, 2] [.done] =
      some ([.writeHoldings 0x2300 ⟨0, 1, 2, 3, 4, 0, 1, 2⟩ 1], [⟨.ok, 1, .none⟩], 1, true) := by decide
theorem test_aiGettypes_unknown_code :
    runOne .ai [0x92000000] [.words [0, 0, 0, 0, 0, 0, 0, 0xFFFF]] =
      some ([.readHoldings 0x2300 8 1], [⟨.ok, 1, .codes ⟨0, 0, 0, 0, 0, 0, 0, 0xFFFF⟩⟩], 1, true) := by decide
theorem test_aiRdch_full_scale :
    runOne .ai [0x93070000] [.words [0xFFFF]] =
      some ([.readInputs 0x2207 1 1], [⟨.ok, 1, .value (.float 0x4050623D70A3D70A)⟩], 1, true) := by decide +kernel
theorem test_aiRdchs_failure_at_1 :
    runOne .ai [0x94000000] [.words [1000], .failure] =
      some ([.readInputs 0x2200 1 1, .readInputs 0x2201 1 1], [⟨.transportFailure, 1, .none⟩], 1, true) := by decide
theorem test_aoSetch_4_35 :
    runOne .ao [0xD0010000, 0x66666666, 0x40116666] [.done] =
      some ([.writeHolding 0x3101 0x000010FE 1], [⟨.ok, 1, .none⟩], 1, true) := by decide +kernel
theorem test_aoSetch_channel_before_value :
    runOne .ao [0xD0090000, 0x00000000, 0x7FF80000] [] =
      some ([], [⟨.invalidChannel, 0, .none⟩], 1, true) := by decide +kernel
theorem test_aoSetchs :
    runOne .ao [0xD1000000, 0, 0, 0xD2F1A9FC, 0x3F50624D, 0, 0x3FE00000, 0x2474538F, 0x3FFFFF97,
        0x66666666, 0x40116666, 0, 0x40240000, 0, 0x40340000, 0x70A3D70A, 0x4050623D] [.done] =
      some ([.writeHoldings 0x3100 ⟨0, 1, 500, 1999, 4350, 10000, 20000, 65535⟩ 1],
        [⟨.ok, 1, .none⟩], 1, true) := by decide +kernel
theorem test_aoGetvals :
    runOne .ao [0xD2000000] [.words [1000, 2000, 3000, 4000, 5000, 6000, 7000, 8000]] =
      some ([.readHoldings 0x3100 8 1],
        [⟨.ok, 1, .values (Oct.map .float ⟨0x3FF0000000000000, 0x4000000000000000, 0x4008000000000000,
          0x4010000000000000, 0x4014000000000000, 0x4018000000000000, 0x401C000000000000, 0x4020000000000000⟩)⟩], 1, true) := by
  decide +kernel

/-! ## The steps of R21, one by one -/

/-- The events of `n` steps of R21, TAG after them and SEQ. -/
def eventsOf (n : Nat) (s : State) : Option (List Event × Byte × Option InFlight) :=
  match advanceTimes n s with
  | .next t => some (t.trace, t.tag, t.seq)
  | .fault _ => none
  | .refused _ => none

theorem test_single_hands_over :
    eventsOf 1 (single .dio [0x10030001] [.done]) =
      some ([.taken 0x10030001 []], 1, some ⟨.legal (.dioSetch 3 true), 0, ⟨[], []⟩, false, false⟩) := by decide

theorem test_single_failure_before_response :
    eventsOf 3 (single .dio [0x10030001] [.failure]) =
      some ([.taken 0x10030001 [], .call (.writeCoil 0x0103 0xFF00 1), .answer .failure], 1,
        some ⟨.legal (.dioSetch 3 true), 0, ⟨[], []⟩, false, true⟩) := by decide

theorem test_single_command_of_four_steps :
    eventsOf 4 (single .ai [0x93020000] [.words [3000]]) =
      some ([.taken 0x93020000 [], .call (.readInputs 0x2202 1 1), .answer (.words [3000]),
        .response ⟨.ok, 1, .value (.float 0x4008000000000000)⟩], 1, none) := by decide +kernel

/-- A reset between the hand-over and the first call abandons the command: no call, no response (R117). -/
theorem test_reset_before_first_call :
    eventsOf 1 { single .dio [] [] with
        resetIn := some ⟨some 9⟩, seq := some (freshRecord (.legal .dioRdchs)), trace := [.taken 0x13000000 []] } =
      some ([.taken 0x13000000 [], .reset], 9, none) := by decide

/-! ## The scaler at its edges (section 2.3) and the assembler -/

theorem test_toRaw_smallest_out_of_domain : toRaw binary64 0x4050624DD2F1A9FC = none := by decide +kernel
theorem test_toRaw_largest_in_domain : toRaw binary64 0x4050624DD2F1A9FB = some 0xFFFF := by decide +kernel
theorem test_toRaw_negative_zero : toRaw binary64 0x8000000000000000 = some 0 := by decide +kernel
theorem test_toRaw_subnormal : toRaw binary64 0x00000000000007E8 = some 0 := by decide +kernel
theorem test_toRaw_minus_one : toRaw binary64 0xBF50624DD2F1A9FC = none := by decide +kernel
theorem test_toRaw_overflow : toRaw binary64 0x7FEFFFFFFFFFFFFF = none := by decide +kernel
/-! ## Other NUMs (R49, R65) -/

/-- A record that counts in whole thousands: F has the codes 0 to 2^32 − 1. -/
def thousands : Numerics :=
  .record 1 ((List.range 65536).map (· / 1000)) ((List.range 66).map (fun k => (k, 1000 * k)))

/-- An instance with another NUM. -/
def withNum (num : Numerics) (s : State) : State := { s with built := { s.built with num := num } }

theorem test_wf_refuses_value_of_another_num :
    (Instr.aoSetch 2 (.float 0x3FF8000000000000)).wellFormed (.exact 1) .ao = false := by decide

theorem test_wf_refuses_value_too_long_for_its_words :
    (Instr.aoSetch 2 (.rational 0x80000000)).wellFormed (.exact 1) .ao = false ∧
      (Instr.aoSetch 2 (.rational (-0x80000000))).wellFormed (.exact 1) .ao = true := by decide +kernel

theorem test_exact_decode :
    decode (.exact 1) .ao 0xD0020000 [0xFFFFFFFD, 0x00000002] = .legal (.aoSetch 2 (.rational (-3 / 2))) ∧
      decode (.exact 1) .ao 0xD0020000 [6, 4] = .illegal .notAValue := by decide +kernel

/-- 4.35, the fraction 87 / 20, is written as 4350. -/
theorem test_exact_aoSetch :
    ((match step (withNum (.exact 1) (fixture .ao [0xD0010000, 87, 20] [.done])) with
      | .next t => callsIn t.trace
      | _ => []) = [.writeHolding 0x3101 0x000010FE 1]) := by decide +kernel

theorem test_exact_aiRdch :
    ((match step (withNum (.exact 1) (fixture .ai [0x93070000] [.words [0xFFFF]])) with
      | .next t => responsesIn t.trace
      | _ => []) = [⟨.ok, 1, .value (.rational (65535 / 1000))⟩]) := by decide +kernel

/-- Another record reads a register by its own `div1000` and writes by its own `mul1000_trunc`. -/
theorem test_record_num :
    replyPayload (numOf thousands) .value ⟨[], [3999]⟩ = .value (.code 3) ∧
      toRaw (numOf thousands) (.code 65) = some 65000 ∧ toRaw (numOf thousands) (.code 66) = none := by decide +kernel

theorem test_asm_setuart_operand_order : asmOf (.setuart 5 2) = ⟨"setuart", [.num 5, .num 2]⟩ := by decide

/-! ## Lines of text (R55, R56, sections 2.6 and 2.7) -/

theorem test_text_setuart : wordsOfText .binary64 .ai "setuart 5, 2".toList = some [0x83020005] := by decide +kernel

theorem test_text_explicit_family :
    wordsOfText .binary64 .rly "dio:setaddr 255".toList = some [0x020000FF] := by decide +kernel

theorem test_text_batch :
    wordsOfText .binary64 .dio "DIO.SETCHS 6, [on, flip]".toList = some [0x11060002, 0x0000FF00, 0x00005500] := by
  decide +kernel

theorem test_text_empty_batch :
    wordsOfText .binary64 .dio "dio.setchs 0, []".toList = some [0x11000000] := by decide +kernel

theorem test_text_hex_operand :
    wordsOfText .binary64 .ai "ai.settype 0, 0xBEEF".toList = some [0x9000BEEF] := by decide +kernel

theorem test_text_decimal_fraction :
    wordsOfText .binary64 .ao "ao.setch 0, 4.35".toList = some [0xD0000000, 0x66666666, 0x40116666] := by decide +kernel

theorem test_text_negative_fraction :
    wordsOfText .binary64 .ao "ao.setch 3, -0.0005".toList = some [0xD0030000, 0xD2F1A9FC, 0xBF40624D] := by
  decide +kernel

theorem test_text_exact_fraction :
    wordsOfText (.exact 1) .ao "ao.setch 1, -4.350".toList = some [0xD0010000, 0xFFFFFFA9, 20] := by decide +kernel

theorem test_text_trailing_comma_is_refused :
    assembleText .binary64 .dio "dio.setch 3, ".toList = none := by decide +kernel

/-! ## Every statement's hypotheses are met by something

One theorem per statement of Certificates/Slice0/Obligations.lean that has hypotheses, named after it; each clause of a
statement with several at a boundary value. -/

/-- An instance that took CONNECT and waits for the answer. -/
def inFlight (answers : List Answer) : State :=
  { fixture .dio [] answers with
    seq := some ⟨.legal .connect, 0, ⟨[], []⟩, true, false⟩, trace := [.taken 0 [], .call .connect] }

/-- An instance with a pending reset. -/
def resetting (given : Option Nat) : State := { inFlight [] with resetIn := some ⟨given⟩ }

theorem witness_inFlight_followsProtocol (answers : List Answer) : (inFlight answers).followsProtocol :=
  ⟨.waiting 0 .connect, rfl, [.connect], .none, .connect, rfl, rfl, rfl⟩

theorem witness_BankCodecLaws : ([true, false, true, false, false, false, false, false] : List Bool).length = 8 := rfl

theorem witness_MapperInjectiveWithoutWrap : (0 : Nat) ≤ 7 ∧ (7 : Nat) ≤ 7 := by decide

theorem witness_RoundNearestEvenIsNearest :
    0 < 1000 ∧ 2 * 500 = (2 * roundNearestEven 500 1000 + 1) * 1000 ∧
      2 * 1500 + 1000 = 2 * roundNearestEven 1500 1000 * 1000 := by decide

theorem witness_Div1000CorrectlyRounded : binary64Finite 0x4050623D70A3D70A = true := by decide

theorem witness_ScalerBinary64FirstAndLastLoss : 1000 < 1001 ∧ 65526 < 65527 ∧ 65535 < 65536 := by decide

theorem witness_ScalerBinary64ExactOnThousands : (0 : Nat) ≤ 65 ∧ (65 : Nat) ≤ 65 := by decide

theorem witness_ScalerBinary64Monotone :
    binary64ToRat 0x3FF8000000000000 ≤ binary64ToRat 0x3FF8000000000000 ∧
      toRaw binary64 0x3FF8000000000000 = some 1500 := ⟨le_refl _, by decide +kernel⟩

theorem witness_ScalerExactRoundTrip :
    (withNum (.exact 1) (fixture .ai [] [.words [4350]])).built.num = .exact 1 ∧ (7 : Byte).toNat ≤ 7 ∧
      (withNum (.exact 1) (fixture .ai [] [.words [4350]])).ansIn = [.words [4350]] ∧
      (withNum (.exact 1) (fixture .ao [] [.done])).ansIn = [.done] := by decide

theorem witness_ScalerExactTruncates : (0 : Rat) ≤ 0 ∧ toRaw exactRational 0 = some 0 := by decide +kernel

theorem witness_ScalerBinary64AtMostOneAbove :
    toRaw binary64 0x4011666666666666 = some 4350 ∧
      toRaw exactRational (binary64ToRat 0x4011666666666666) = some 4349 := by decide +kernel

theorem witness_DecodeOfEncode :
    (Instr.aoSetch 255 (.float 0x7FF8000000000000)).wellFormed .binary64 .ao = true := by decide

theorem witness_DecodeOfEncode_exact : (Instr.aoSetch 0 (.rational (-3 / 2))).wellFormed (.exact 1) .ao = true := by
  decide +kernel

theorem witness_EncodeOfDecode : decode .binary64 .rly 0x55FF0000 [] = .legal (.rlyOpen 255) := by decide

theorem witness_FetchCutsOneCommand : (Instr.dioSetchs 6 [.on, .flip]).wellFormed .binary64 .dio = true := by decide

theorem witness_HeaderSelectsOneRow :
    selectsRow 0xC0000000 .connect = true ∧ selectsRow 0x10FF0001 .dioSetch = true := by
  decide

theorem witness_FamilyMismatchIsIllegal :
    ([0x0000FF00, 0, 0x00005500] : List Word).length = paylen .binary64 0x51000003 ∧
      (headerOf 0x51000003).fam ≠ .dio := by decide

theorem witness_UndefinedOpcodesAreIllegal :
    ([] : List Word).length = paylen .binary64 0xBFFFFFFF ∧
      opcodeOf (headerOf 0xBFFFFFFF).fam (headerOf 0xBFFFFFFF).op = none := by decide

theorem witness_BatchPayloadWordsMustBeActions :
    ([0x0000FF00, 0x00001234] : List Word).length ≤ 255 ∧ (0x00001234 : Word) ∈ [0x0000FF00, (0x00001234 : Word)] ∧
      payloadLow 0x00001234 ≠ 0xFF00 ∧ payloadLow 0x00001234 ≠ 0x0000 ∧ payloadLow 0x00001234 ≠ 0x5500 ∧
      payloadHigh 0x0001FF00 ≠ 0 := by decide

theorem witness_AssembleOfAsm : (Instr.rlySetchs 0 [.flip]).batchFits = true := by decide

theorem witness_StepRunsDecodedCommand :
    (Instr.dioSetch 3 true).wellFormed .binary64 (fixture .dio [0x10030001, 0x13000000] []).built.family = true ∧
      (fixture .dio [0x10030001, 0x13000000] []).cmdIn =
        encode .binary64 (fixture .dio [] []).built.family (.dioSetch 3 true) ++ [0x13000000] ∧
      (fixture .dio [0x10030001, 0x13000000] []).resetIn = none ∧
      (fixture .dio [0x10030001, 0x13000000] []).seq = none ∧
      (fixture .dio [0x10030001, 0x13000000] []).grain = .command ∧
      (single .dio [0x10030001, 0x13000000] []).cmdIn = (fixture .dio [0x10030001, 0x13000000] []).cmdIn ∧
      (single .dio [0x10030001, 0x13000000] []).grain = .event := by decide

/-- An instance that holds words that are no command. -/
def holdsIllegal : State := { single .dio [] [] with seq := some (freshRecord (.illegal .familyMismatch)) }

theorem witness_IllegalCommandIsAnswered :
    (fixture .dio [0x51000001, 0, 0x13000000] []).cmdIn = 0x51000001 :: ([0] ++ [0x13000000]) ∧
      ([0] : List Word).length = paylen .binary64 0x51000001 ∧
      decode .binary64 (fixture .dio [] []).built.family 0x51000001 [0] = .illegal .familyMismatch ∧
      (fixture .dio [0x51000001, 0, 0x13000000] []).grain = .command ∧
      (single .dio [0x51000001, 0, 0x13000000] []).grain = .event ∧ holdsIllegal.resetIn = none ∧
      holdsIllegal.seq = some ⟨.illegal .familyMismatch, 0, ⟨[], []⟩, false, false⟩ := by decide

theorem witness_InstanceWaits :
    fetchCommand .binary64 (fixture .dio [] []).cmdIn = none ∧
      fetchCommand .binary64 (fixture .dio [0x11000001] []).cmdIn = none ∧
      (inFlight []).resetIn = none ∧ (inFlight []).seq = some ⟨.legal .connect, 0, ⟨[], []⟩, true, false⟩ ∧
      (inFlight []).ansIn = [] ∧ runOver (fixture .dio [] []) = true := by decide

theorem witness_CommandInFlightHoldsOffTheNext :
    (inFlight [.done]).seq = some ⟨.legal .connect, 0, ⟨[], []⟩, true, false⟩ ∧ (inFlight [.done]).resetIn = none ∧
      ∃ t, step (inFlight [.done]) = .next t := ⟨rfl, rfl, _, rfl⟩

theorem witness_ResetRestoresTagAndSeq :
    (resetting none).resetIn = some ⟨none⟩ ∧
      (none : Option Nat).getD (resetting none).built.defaultTag.val.toNat = 1 ∧
      (some 255 : Option Nat).getD (resetting none).built.defaultTag.val.toNat = 255 ∧
      (some 0 : Option Nat).getD (resetting none).built.defaultTag.val.toNat = 0 ∧
      (some 256 : Option Nat).getD (resetting none).built.defaultTag.val.toNat = 256 := by decide

theorem witness_StepKeepsProtocol :
    (inFlight [.done]).followsProtocol ∧ (∃ t, step (inFlight [.done]) = .next t) ∧
      (fixture .dio [0x13000000] []).followsProtocol ∧ (∃ t, step (fixture .dio [0x13000000] []) = .next t) ∧
      (single .dio [0x13000000] []).followsProtocol ∧ ∃ t, step (single .dio [0x13000000] []) = .next t :=
  ⟨witness_inFlight_followsProtocol _, ⟨_, rfl⟩, rfl, ⟨_, rfl⟩, rfl, ⟨_, rfl⟩⟩

theorem witness_ExecFollowsProtocol :
    (∃ t, exec (.dioSetchs 6 [.on, .flip]) (fixture .dio [] [.done]) = .next t ∧ t.seq ≠ none) ∧
      ∃ t, exec .connect (fixture .dio [] [.failure]) = .next t ∧ t.seq = none :=
  ⟨⟨_, rfl, by decide⟩, ⟨_, rfl, rfl⟩⟩

theorem witness_StepKeepsTagLegal :
    (resetting (some 255)).tagLegal ∧
      ∃ t, step (resetting (some 255)) = .next t := ⟨by unfold State.tagLegal; decide, _, rfl⟩

theorem witness_StepKeepsParameters : ∃ t, step (resetting (some 1)) = .next t := ⟨_, rfl⟩

/-- An instance to which SETTAG 255 was handed over. -/
def holdsSettag : State :=
  { single .dio [] [] with seq := some (freshRecord (.legal (.settag 255))), trace := [.taken 0x010000FF []] }

theorem witness_TagChangesOnlyByResetOrSettag :
    (fixture .dio [0x010000FF] []).followsProtocol ∧ (∃ t, step (fixture .dio [0x010000FF] []) = .next t ∧ t.tag ≠ 1) ∧
      (∃ t, step (resetting (some 9)) = .next t ∧ t.tag ≠ 1) ∧
      holdsSettag.followsProtocol ∧ ∃ t, step holdsSettag = .next t ∧ t.tag ≠ 1 :=
  ⟨rfl, ⟨_, rfl, by decide⟩, ⟨_, rfl, by decide⟩, ⟨.running 0, rfl, rfl, .inl rfl⟩, ⟨_, rfl, by decide⟩⟩

theorem witness_CallsCarryTheTag :
    ∃ t, step (fixture .ai [0x93020000] []) = .next t ∧
      Call.readInputs 0x2202 1 1 ∈ callsIn (eventsSince (fixture .ai [0x93020000] []) t) ∧ t.seq ≠ none :=
  ⟨_, rfl, by decide, by decide⟩

theorem witness_CallsStayInTheirTableRow :
    ∃ t, exec (.dioSetchs 7 [.flip]) (fixture .dio [] []) = .next t ∧
      Call.writeCoil 0x0107 0x5500 1 ∈ callsIn (eventsSince (fixture .dio [] []) t) := ⟨_, rfl, by decide⟩

theorem witness_CallsFitTheirSpaces :
    ∃ t, step (fixture .ao [0xD2000000] []) = .next t ∧
      Call.readHoldings 0x3100 8 1 ∈ callsIn (eventsSince (fixture .ao [0xD2000000] []) t) := ⟨_, rfl, by decide⟩

theorem witness_ResponseFollowsTable :
    (∃ t, exec .rdver (fixture .dio [] [.words [100]]) = .next t ∧
      (⟨.ok, 1, .register 100⟩ : Response) ∈ responsesIn (eventsSince (fixture .dio [] [.words [100]]) t)) ∧
      ∃ t, exec .rdver (fixture .dio [] [.failure]) = .next t ∧
        (⟨.transportFailure, 0, .none⟩ : Response) ∈ responsesIn (eventsSince (fixture .dio [] [.failure]) t) :=
  ⟨⟨_, rfl, by decide⟩, ⟨_, rfl, by decide⟩⟩

theorem witness_ValidationErrorsHaveNoEffect :
    ∃ t, exec (.rlyClose 8) (fixture .rly [] [.done]) = .next t ∧
      (⟨.invalidChannel, 0, .none⟩ : Response) ∈ responsesIn (eventsSince (fixture .rly [] [.done]) t) ∧
      isValidationError .invalidChannel = true := ⟨_, rfl, by decide, rfl⟩

/-- An instance to which RLY.CLOSE 8 was handed over. -/
def holdsBadChannel : State := { single .rly [] [.done] with seq := some (freshRecord (.legal (.rlyClose 8))) }

theorem witness_ValidationErrorsHaveNoEffect_held :
    holdsBadChannel.resetIn = none ∧
      ∃ t, step holdsBadChannel = .next t ∧
        (⟨.invalidChannel, 0, .none⟩ : Response) ∈ responsesIn (eventsSince holdsBadChannel t) :=
  ⟨rfl, _, rfl, by decide⟩

theorem witness_ValidationErrorsHaveNoEffect_illegal :
    fetchCommand .binary64 (fixture .dio [0x51000001, 0, 0x13000000] []).cmdIn = some (0x51000001, [0], [0x13000000]) ∧
      decode .binary64 (fixture .dio [] []).built.family 0x51000001 [0] = .illegal .familyMismatch ∧
      holdsIllegal.resetIn = none ∧ holdsIllegal.seq = some (freshRecord (.illegal .familyMismatch)) := by decide

theorem witness_RefusedExactlyOutsideScalerDomain :
    toRaw (numOf .binary64) (.float 0x7FF8000000000000) = none ∧ (7 : Byte).toNat ≤ 7 ∧
      EngValue.float 0x7FF8000000000000 ∈
        (Oct.map EngValue.float ⟨0, 0, 0, 0, 0, 0, 0, 0x7FF8000000000000⟩).toList := by
  decide +kernel

theorem witness_ResumeEqualsUninterrupted :
    (fixture .ai [] []).grain = .command ∧ (fixture .ai [] []).resetIn = none ∧
      (∃ t, exec .aiRdchs { fixture .ai [] [] with ansIn := [.words [1000]] } = .next t ∧ t.seq ≠ none) ∧
      (single .ai [0x94000000] []).grain = .event ∧
      ∃ t, step (single .ai [0x94000000] []) = .next t ∧
        eventsSince (single .ai [0x94000000] []) t = [.taken 0x94000000 []] :=
  ⟨rfl, rfl, ⟨_, rfl, by decide⟩, rfl, _, rfl, rfl⟩

theorem witness_ConnectMakesOneConnect :
    (fixture .dio [] [.done]).ansIn = .done :: [] ∧ (fixture .dio [] [.failure]).ansIn = .failure :: [] ∧
      (fixture .dio [] []).ansIn = [] := ⟨rfl, rfl, rfl⟩

theorem witness_SettagWritesTag :
    1 ≤ (1 : Half).toNat ∧ (1 : Half).toNat ≤ 255 ∧ (255 : Half).toNat ≤ 255 ∧ (0 : Half).toNat = 0 ∧
      255 < (256 : Half).toNat := by decide

theorem witness_SetaddrWritesDeviceRegister :
    (0 : Half).toNat ≤ 255 ∧ (255 : Half).toNat ≤ 255 ∧ 255 < (256 : Half).toNat ∧
      (fixture .ao [] [.done]).ansIn = .done :: [] ∧ (fixture .ao [] [.failure]).ansIn = .failure :: [] ∧
      (fixture .ao [] []).ansIn = [] := by decide

theorem witness_SetuartHandsOverWholeWord :
    (fixture .ai [] [.done]).ansIn = .done :: [] ∧ (fixture .ai [] [.failure]).ansIn = .failure :: [] ∧
      (fixture .ai [] []).ansIn = [] := ⟨rfl, rfl, rfl⟩

theorem witness_RdverReturnsRawRegister :
    (fixture .rly [] [.words [100]]).ansIn = .words [100] :: [] ∧
      (fixture .rly [] [.words []]).ansIn = .words [] :: [] ∧ (∀ v, Answer.words [] ≠ .words [v]) ∧
      (fixture .rly [] []).ansIn = [] := ⟨rfl, rfl, by simp, rfl⟩

theorem witness_DioSetchWritesOneCoil :
    (7 : Byte).toNat ≤ 7 ∧ 7 < (8 : Byte).toNat ∧ (fixture .dio [] [.done]).ansIn = .done :: [] ∧
      (fixture .dio [] [.bits []]).ansIn = .bits [] :: [] ∧ (fixture .dio [] []).ansIn = [] := by decide

theorem witness_DioSetmodeWritesHoldingAtCoilNumber :
    (0 : Byte).toNat ≤ 7 ∧ 7 < (255 : Byte).toNat ∧ (fixture .dio [] [.done]).ansIn = .done :: [] ∧
      (fixture .dio [] [.failure]).ansIn = .failure :: [] ∧ (fixture .dio [] []).ansIn = [] := by decide

theorem witness_BankReadsReturnTheBits :
    (fixture .dio [] [.bits (decodeBank 0x05).toList]).ansIn = .bits (decodeBank 0x05).toList :: [] ∧
      (fixture .dio [] [.bits [true]]).ansIn = .bits [true] :: [] ∧
      (∀ b : Bank, Answer.bits [true] ≠ .bits b.toList) ∧ (fixture .dio [] []).ansIn = [] :=
  ⟨rfl, rfl, fun b h => by simp [Oct.toList] at h, rfl⟩

theorem witness_RelayWritesOneCoil :
    (7 : Byte).toNat ≤ 7 ∧ 7 < (8 : Byte).toNat ∧ (fixture .rly [] [.done]).ansIn = .done :: [] ∧
      (fixture .rly [] [.failure]).ansIn = .failure :: [] ∧ (fixture .rly [] []).ansIn = [] := by decide

theorem witness_BatchWritesInOrder :
    (∀ k, k < ([.on, .flip] : List Action).length → (6 : Byte).toNat + k ≤ 7) ∧
      (fixture .dio [] [.done, .done]).ansIn = List.replicate ([.on, .flip] : List Action).length .done ++ [] ∧
      (fixture .dio [] [.done, .failure]).ansIn = List.replicate 1 .done ++ .failure :: [] ∧
      ([.on, .flip] : List Action)[1]? = some .flip ∧
      (fixture .dio [] [.done]).ansIn = List.replicate 1 .done ∧
      (1 < ([.on, .flip] : List Action).length ∧ 7 < (7 : Byte).toNat + 1) := by
  refine ⟨?_, rfl, rfl, rfl, rfl, by decide⟩
  intro k hk
  simp at hk ⊢
  omega

theorem witness_AiSettypeWritesOneTypeRegister :
    (7 : Byte).toNat ≤ 7 ∧ 7 < (8 : Byte).toNat ∧ (fixture .ai [] [.done]).ansIn = .done :: [] ∧
      (fixture .ai [] [.failure]).ansIn = .failure :: [] ∧ (fixture .ai [] []).ansIn = [] := by decide

theorem witness_AiTypeTableInOneCall :
    (fixture .ai [] [.done]).ansIn = .done :: [] ∧ (fixture .ai [] [.failure]).ansIn = .failure :: [] ∧
      (fixture .ai [] []).ansIn = [] ∧
      (fixture .ai [] [.words (Oct.replicate (3 : Half)).toList]).ansIn = .words (Oct.replicate 3).toList :: [] ∧
      (∀ r : Oct Half, Answer.failure ≠ .words r.toList) := ⟨rfl, rfl, rfl, rfl, by simp⟩

theorem witness_AiRdchReturnsEngineeringValue :
    (7 : Byte).toNat ≤ 7 ∧ 7 < (8 : Byte).toNat ∧ (fixture .ai [] [.words [3000]]).ansIn = .words [3000] :: [] ∧
      (fixture .ai [] [.failure]).ansIn = .failure :: [] ∧ (fixture .ai [] []).ansIn = [] ∧
      (∀ v, Answer.failure ≠ .words [v]) := ⟨by decide, by decide, rfl, rfl, rfl, by simp⟩

theorem witness_AiRdchsReadsOneByOne :
    (fixture .ai [] (List.replicate 8 (.words [1000]))).ansIn =
        (Oct.replicate (1000 : Half)).toList.map (fun v => .words [v]) ++ [] ∧
      ([1000] : List Half).length < 8 ∧ (List.replicate 7 (1000 : Half)).length < 8 ∧
      (fixture .ai [] [.words [1000], .failure]).ansIn =
        ([1000] : List Half).map (fun v => .words [v]) ++ .failure :: [] ∧
      (fixture .ai [] [.words [1000]]).ansIn = ([1000] : List Half).map (fun v => .words [v]) :=
  ⟨rfl, by decide, by decide, rfl, rfl⟩

theorem witness_AoSetchWritesRawValue :
    toRaw (numOf (fixture .ao [] []).built.num) (.float 0x3FF8000000000000) = some 1500 ∧ (7 : Byte).toNat ≤ 7 ∧
      7 < (8 : Byte).toNat ∧
      (fixture .ao [] [.done]).ansIn = .done :: [] ∧ (fixture .ao [] [.failure]).ansIn = .failure :: [] ∧
      (fixture .ao [] []).ansIn = [] := ⟨by decide +kernel, by decide, by decide, rfl, rfl, rfl⟩

theorem witness_AoSetchsWritesEightRegisters :
    (Oct.replicate (EngValue.float 0x3FF8000000000000)).map (toRaw (numOf .binary64)) =
        (Oct.replicate (1500 : Half)).map some ∧
      (fixture .ao [] [.done]).ansIn = .done :: [] ∧ (fixture .ao [] [.failure]).ansIn = .failure :: [] ∧
      (fixture .ao [] []).ansIn = [] := ⟨by decide +kernel, rfl, rfl, rfl⟩

theorem witness_AoGetvalsReturnsEightValues :
    (fixture .ao [] [.words (Oct.replicate (1000 : Half)).toList]).ansIn =
        .words (Oct.replicate 1000).toList :: [] ∧
      (fixture .ao [] [.failure]).ansIn = .failure :: [] ∧ (∀ r : Oct Half, Answer.failure ≠ .words r.toList) ∧
      (fixture .ao [] []).ansIn = [] := ⟨rfl, rfl, by simp, rfl⟩

/-- Two instances on one line, the first with a command handed over, and a discarded one. -/
def someInstances : System :=
  ⟨[some { single .ao [] [] with seq := some (freshRecord (.legal .aoGetvals)) }, some (single .ai [] []), none], []⟩

theorem witness_SharedLineKeepsEveryOrder :
    someInstances.lineKeepsOrder ∧ ∃ z, applyStimulus (.run 0) someInstances = .next z ∧ z.line ≠ [] := by
  refine ⟨?_, _, rfl, by decide⟩
  intro k s hs
  match k, hs with
  | 0, hs => cases hs; rfl
  | 1, hs => cases hs; rfl
  | 2, hs => cases hs

theorem witness_OtherInstancesUntouched :
    (∃ z, applyStimulus (.run 0) someInstances = .next z) ∧ 1 ≠ stimulusTarget (.run 0) ∧
      someInstances.instances[1]? = some (some (single .ai [] [])) ∧ (single .ai [] []).seq = none ∧
      (∃ s, someInstances.instances[0]? = some (some s) ∧ s.seq ≠ none) :=
  ⟨⟨_, rfl⟩, by decide, rfl, rfl, _, rfl, by decide⟩

/-- The run is not over while a command is in flight, and is when every instance left is idle with nothing presented
(R121). -/
theorem test_run_is_over :
    someInstances.over = false ∧ System.over ⟨[none, some (single .ai [] [])], []⟩ = true := by decide

end Sys2Proof.Tests
end

section
/-! The state right after reset (R20, R117): construction without an address never fails, and what it gives satisfies
both invariants. -/

namespace Sys2Proof.Machine

theorem deviceAddressOk_iff {t : Nat} : deviceAddressOk t = true ↔ 1 ≤ t ∧ t ≤ 255 := by
  simp [deviceAddressOk]

@[simp] theorem initialAddress_none (b : Build) : initialAddress none b = b.defaultTag.val.toNat := rfl

/-- DEFAULT_TAG passes the check of R118 whatever the parameters are: its type leaves out 0, its width all above 255. -/
theorem deviceAddressOk_defaultTag (b : Build) : deviceAddressOk b.defaultTag.val.toNat = true := by
  have hne : b.defaultTag.val.toNat ≠ 0 := fun h => b.defaultTag.property (BitVec.eq_of_toNat_eq h)
  have hlt : b.defaultTag.val.toNat < 2 ^ 8 := b.defaultTag.val.isLt
  exact deviceAddressOk_iff.mpr ⟨by omega, by omega⟩

/-- Construction without an address never fails, and the instance starts with DEFAULT_TAG (R117). -/
theorem construct_none (b : Build) :
    construct b none = some ⟨b, b.defaultTag.val, none, none, [], [], [], .event⟩ := by
  simp [construct, deviceAddressOk_defaultTag]

theorem followsProtocol_iff_of_idle {s : State} (h : s.seq = none) :
    s.followsProtocol ↔ phaseAfter .idle s.trace = some .idle := by
  simp [State.followsProtocol, h]

/-- An idle instance that has recorded nothing is where the protocol begins. -/
theorem followsProtocol_of_idle_of_trace_nil {s : State} (hseq : s.seq = none) (htrace : s.trace = []) :
    s.followsProtocol := by
  rw [followsProtocol_iff_of_idle hseq, htrace, phaseAfter]

theorem reset_followsProtocol : State.reset.followsProtocol :=
  followsProtocol_of_idle_of_trace_nil reset_seq reset_trace

/-- TAG is legal after reset because DEFAULT_TAG is a device address. -/
theorem reset_tagLegal : State.reset.tagLegal := Config.defaultTag.property

/-- Settles O29: the registers and parameters by the equations of `State.reset`, construction by `construct_none`, and
both invariants by their lemmas above. -/
theorem resetState : Obligations.ResetState :=
  ⟨reset_tag, reset_seq, rfl, rfl, reset_trace, construct_none Config.built, reset_followsProtocol, reset_tagLegal⟩

end Sys2Proof.Machine
end

section
/-! What the plan of a command depends on and what it can be, and `exec` through it. -/

namespace Sys2Proof.Machine

/-- Every command is its plan, started (R74 to R100). -/
theorem exec_eq_startCommand (i : Instr) (s : State) : exec i s = startCommand i (planOf i s) s := by
  cases i <;> rfl

theorem batchWrites_congr {s t : State} (base : Addr) (htag : s.tag = t.tag) (actions : List Action) :
    ∀ offset, batchWrites base s offset actions = batchWrites base t offset actions := by
  induction actions with
  | nil => intro offset; rfl
  | cons a as ih => intro offset; simp [batchWrites, memWriteCoil, htag, ih]

/-- A plan is a function of the parameters and TAG alone: no step of a command in flight changes what is left to do. -/
theorem planOf_congr {s t : State} (hbuilt : s.built = t.built) (htag : s.tag = t.tag) (i : Instr) :
    planOf i s = planOf i t := by
  cases i with
  | dioSetchs start actions => simp [planOf, planDioSetchs, hbuilt, batchWrites_congr _ htag]
  | rlySetchs start actions => simp [planOf, planRlySetchs, hbuilt, batchWrites_congr _ htag]
  | _ =>
    obtain ⟨b, tag⟩ := s
    obtain ⟨b', tag'⟩ := t
    cases hbuilt
    cases htag
    rfl

theorem planOfHeld_congr {s t : State} (hbuilt : s.built = t.built) (htag : s.tag = t.tag) (d : Decoded) :
    planOfHeld d s = planOfHeld d t := by
  cases d with
  | legal i => exact planOf_congr hbuilt htag i
  | illegal why => rfl

/-- What the plan of the held words `d` may be: an operand error is one that is raised before any call (R108), and TAG
is written by a SETTAG with a legal address alone, its low byte (R75). -/
def Plan.fits (d : Decoded) : Plan → Prop
  | .raise e => isValidationError e = true
  | .refuse _ => True
  | .setTag b => ∃ tag : Half, d = .legal (.settag tag) ∧ deviceAddressOk tag.toNat = true ∧ b = tag.extractLsb' 0 8
  | .calls _ _ => True

theorem fits_withChannel {d : Decoded} (c : Byte) {p : Plan} (h : p.fits d) : (withChannel c p).fits d := by
  unfold withChannel
  split
  · exact h
  · rfl

theorem fits_withBatch {d : Decoded} (start : Byte) (n : Nat) {p : Plan} (h : p.fits d) :
    (withBatch start n p).fits d := by
  unfold withBatch
  split
  · exact h
  · rfl

/-- Every command's plan is of that form. -/
theorem planOf_fits (i : Instr) (s : State) : (planOf i s).fits (.legal i) := by
  cases i with
  | settag tag =>
    simp only [planOf, planSettag]
    split
    · exact ⟨tag, rfl, ‹_›, rfl⟩
    · rfl
  | setaddr address =>
    simp only [planOf, planSetaddr]
    split
    · trivial
    · rfl
  | aoSetch channel value =>
    refine fits_withChannel _ ?_
    split <;> trivial
  | aoSetchs values =>
    simp only [planOf, planAoSetchs]
    split <;> trivial
  | dioSetchs | rlySetchs => exact fits_withBatch _ _ trivial
  | dioSetch | dioSetmode | rlySetch | rlyOpen | rlyClose | aiSettype | aiRdch => exact fits_withChannel _ trivial
  | connect | setuart | rdver | dioRdchs | dioRdout | rlyRdchs | aiSettypes | aiGettypes | aiRdchs | aoGetvals =>
    trivial

theorem planOfHeld_fits (d : Decoded) (s : State) : (planOfHeld d s).fits d := by
  cases d with
  | legal i => exact planOf_fits i s
  | illegal why => rfl

/-- SETTAG is the only command that writes TAG (R75, R76). -/
theorem planOfHeld_setTag {d : Decoded} {s : State} {b : Byte} (h : planOfHeld d s = .setTag b) :
    ∃ tag : Half, d = .legal (.settag tag) ∧ deviceAddressOk tag.toNat = true ∧ b = tag.extractLsb' 0 8 := by
  have hfits := planOfHeld_fits d s
  rwa [h] at hfits

/-- No plan raises OK or TransportFailure (R102, R103, R106, R108). -/
theorem planOfHeld_raise {d : Decoded} {s : State} {e : Status} (h : planOfHeld d s = .raise e) :
    isValidationError e = true := by
  have hfits := planOfHeld_fits d s
  rwa [h] at hfits

end Sys2Proof.Machine
end

section
/-! One step of an instance, said once: which equation of `nextStep` applies, and everything a single step of R21 can
do. -/

namespace Sys2Proof.Machine

section Equations

variable {s : State} {f : InFlight} {h : Word} {payload rest : List Word}
  {going : InFlight → State → Host.Outcome State Fault Refusal}
  {taking : Word → List Word → List Word → State → Host.Outcome State Fault Refusal}

theorem nextStep_of_reset {r : ResetRequest} (hreset : s.resetIn = some r) :
    nextStep going taking s = resetInstance r s := by
  simp [nextStep, hreset]

theorem nextStep_of_held (hreset : s.resetIn = none) (hseq : s.seq = some f) :
    nextStep going taking s = going f s := by
  simp [nextStep, hreset, hseq]

theorem nextStep_of_nothing_presented (hreset : s.resetIn = none) (hseq : s.seq = none)
    (hfetch : fetchCommand s.built.num s.cmdIn = none) : nextStep going taking s = .next s := by
  simp [nextStep, hreset, hseq, hfetch]

theorem nextStep_of_presented (hreset : s.resetIn = none) (hseq : s.seq = none)
    (hfetch : fetchCommand s.built.num s.cmdIn = some (h, payload, rest)) :
    nextStep going taking s = taking h payload rest s := by
  simp [nextStep, hreset, hseq, hfetch]

theorem step_of_event (hgrain : s.grain = .event) : step s = advance s := by
  simp [step, hgrain]

theorem step_of_command (hgrain : s.grain = .command) : step s = advanceWhole s := by
  simp [step, hgrain]

/-- An instance in flight, whatever the grain, goes on with its command. -/
theorem step_of_held (hreset : s.resetIn = none) (hseq : s.seq = some f) :
    step s = resumeOnce f s ∨ step s = resume f s := by
  cases hgrain : s.grain with
  | event => exact .inl ((step_of_event hgrain).trans (nextStep_of_held hreset hseq))
  | command => exact .inr ((step_of_command hgrain).trans (nextStep_of_held hreset hseq))

/-- An idle instance with no complete command presented waits, whatever the grain (R16, log 5). -/
theorem step_of_nothing_presented (hreset : s.resetIn = none) (hseq : s.seq = none)
    (hfetch : fetchCommand s.built.num s.cmdIn = none) : step s = .next s := by
  cases hgrain : s.grain with
  | event => exact (step_of_event hgrain).trans (nextStep_of_nothing_presented hreset hseq hfetch)
  | command => exact (step_of_command hgrain).trans (nextStep_of_nothing_presented hreset hseq hfetch)

/-- A header with its payload at the head of the presented words is cut off whole (R43, R48). -/
theorem fetchCommand_append {num : Numerics} (hlength : payload.length = paylen num h) :
    fetchCommand num (h :: (payload ++ rest)) = some (h, payload, rest) := by
  simp [fetchCommand, ← hlength]

end Equations

/-- Everything one step of R21 can lead to: a reset, waiting, a command handed over, one of the four ends of a command,
a call issued, a call answered. -/
inductive SingleStep (s : State) : State → Prop
  | reset (r : ResetRequest) (hreset : s.resetIn = some r)
      (haddress : deviceAddressOk (initialAddress r.given s.built) = true) :
      SingleStep s { s with
        tag := BitVec.ofNat 8 (initialAddress r.given s.built), seq := none, resetIn := none,
        trace := s.trace ++ [.reset] }
  | waits : SingleStep s s
  | taken (h : Word) (payload rest : List Word) (hseq : s.seq = none)
      (hfetch : fetchCommand s.built.num s.cmdIn = some (h, payload, rest)) : SingleStep s (handOver h payload rest s)
  | failureDelivered (f : InFlight) (hseq : s.seq = some f) (hfailed : f.failed = true) :
      SingleStep s (raise .transportFailure f.done s)
  | operandError (f : InFlight) (e : Status) (hseq : s.seq = some f) (hfailed : f.failed = false)
      (hplan : planOfHeld f.cmd s = .raise e) : SingleStep s (raise e f.done s)
  | tagWritten (f : InFlight) (b : Byte) (hseq : s.seq = some f) (hfailed : f.failed = false)
      (hplan : planOfHeld f.cmd s = .setTag b) : SingleStep s (respond .ok f.done .none { s with tag := b })
  | completed (f : InFlight) (cs : List Call) (reply : Reply) (hseq : s.seq = some f) (hfailed : f.failed = false)
      (hplan : planOfHeld f.cmd s = .calls cs reply) (hcall : cs[f.done]? = none) :
      SingleStep s (respond .ok f.done (replyPayload (numOf s.built.num) reply f.values) s)
  | issued (f : InFlight) (cs : List Call) (reply : Reply) (c : Call) (hseq : s.seq = some f)
      (hfailed : f.failed = false) (hplan : planOfHeld f.cmd s = .calls cs reply) (hcall : cs[f.done]? = some c)
      (hout : f.outstanding = false) : SingleStep s (issue f.cmd c f.done f.values s)
  | answered (f : InFlight) (cs : List Call) (reply : Reply) (c : Call) (a : Answer) (rest : List Answer)
      (hseq : s.seq = some f) (hfailed : f.failed = false) (hplan : planOfHeld f.cmd s = .calls cs reply)
      (hcall : cs[f.done]? = some c) (hout : f.outstanding = true) (hans : s.ansIn = a :: rest) :
      SingleStep s { receive a rest s with seq := some (recordAnswer f c a) }

/-- Among its calls a command does one of three things, or waits. -/
theorem singleStep_serveOnce {s : State} {f : InFlight} {cs : List Call} {reply : Reply} (hseq : s.seq = some f)
    (hfailed : f.failed = false) (hplan : planOfHeld f.cmd s = .calls cs reply) :
    SingleStep s (serveOnce f s cs reply) := by
  cases hcall : cs[f.done]? with
  | none =>
    rw [serveOnce_done hcall]
    exact .completed f cs reply hseq hfailed hplan hcall
  | some c =>
    cases hout : f.outstanding with
    | false =>
      rw [serveOnce_issues hcall hout]
      exact .issued f cs reply c hseq hfailed hplan hcall hout
    | true =>
      cases hans : s.ansIn with
      | nil =>
        rw [serveOnce_waits hcall hout hans]
        exact .waits
      | cons a rest =>
        rw [serveOnce_receives hcall hout hans]
        exact .answered f cs reply c a rest hseq hfailed hplan hcall hout hans

theorem singleStep_of_resumeOnce {s t : State} {f : InFlight} (hseq : s.seq = some f)
    (hnext : resumeOnce f s = .next t) : SingleStep s t := by
  rcases followPlan_next hnext with
    ⟨hfailed, rfl⟩ | ⟨hfailed, ⟨e, hplan, rfl⟩ | ⟨b, hplan, rfl⟩ | ⟨cs, reply, hplan, rfl⟩⟩
  · exact .failureDelivered f hseq hfailed
  · exact .operandError f e hseq hfailed hplan
  · exact .tagWritten f b hseq hfailed hplan
  · exact singleStep_serveOnce hseq hfailed hplan

/-- The inversion of a step of R21. -/
theorem singleStep_of_advance {s t : State} (hnext : advance s = .next t) : SingleStep s t := by
  unfold advance at hnext
  cases hreset : s.resetIn with
  | some r =>
    rw [nextStep_of_reset hreset] at hnext
    obtain ⟨haddress, rfl⟩ := resetInstance_next hnext
    exact .reset r hreset haddress
  | none =>
    cases hseq : s.seq with
    | some f =>
      rw [nextStep_of_held hreset hseq] at hnext
      exact singleStep_of_resumeOnce hseq hnext
    | none =>
      cases hfetch : fetchCommand s.built.num s.cmdIn with
      | none =>
        rw [nextStep_of_nothing_presented hreset hseq hfetch] at hnext
        cases hnext
        exact .waits
      | some cut =>
        obtain ⟨h, payload, rest⟩ := cut
        rw [nextStep_of_presented hreset hseq hfetch] at hnext
        cases hnext
        exact .taken h payload rest hseq hfetch

end Sys2Proof.Machine
end

section
/-! A joined step is a number of steps of R21 (R21, log 1), and so keeps whatever each of those keeps. -/

namespace Sys2Proof.Machine

theorem advanceTimes_succ {s t : State} (hnext : advance s = .next t) (n : Nat) :
    advanceTimes (n + 1) s = advanceTimes n t := by
  simp [advanceTimes, hnext]

theorem advanceTimes_one (s : State) : advanceTimes 1 s = advance s := by
  cases hnext : advance s <;> simp [advanceTimes, hnext]

/-- What every single step keeps, a number of them keeps. -/
theorem advanceTimes_keeps {P : State → Prop} (hsingle : ∀ s t, P s → SingleStep s t → P t) (n : Nat) :
    ∀ {s t : State}, P s → advanceTimes n s = .next t → P t := by
  induction n with
  | zero =>
    intro s t hs hnext
    cases hnext
    exact hs
  | succ n ih =>
    intro s t hs hnext
    cases hadvance : advance s with
    | next u =>
      rw [advanceTimes_succ hadvance] at hnext
      exact ih (hsingle s u hs (singleStep_of_advance hadvance)) hnext
    | fault r => cases r
    | refused r =>
      simp only [advanceTimes, hadvance] at hnext
      cases hnext

/-- SEQ holds `f`, none of whose calls failed, and its plan is the calls `cs`. -/
structure Serving (cs : List Call) (reply : Reply) (f : InFlight) (s : State) : Prop where
  noReset : s.resetIn = none
  held : s.seq = some f
  notFailed : f.failed = false
  plan : planOfHeld f.cmd s = .calls cs reply

namespace Serving

variable {cs : List Call} {reply : Reply} {f : InFlight} {s : State}

theorem advance_eq (hserving : Serving cs reply f s) : advance s = .next (serveOnce f s cs reply) := by
  have hadvance : advance s = resumeOnce f s := nextStep_of_held hserving.noReset hserving.held
  simp [hadvance, resumeOnce, heldStep, followPlan, hserving.notFailed, hserving.plan]

theorem resume_eq (hserving : Serving cs reply f s) :
    resume f s = .next (serve f.cmd reply f.outstanding (cs.drop f.done) f.done f.values s) := by
  simp [resume, proceed, followPlan, hserving.notFailed, hserving.plan]

/-- A later state of the same command still serves its calls. -/
theorem later (hserving : Serving cs reply f s) {g : InFlight} {t : State} (hheld : t.seq = some g)
    (hcmd : g.cmd = f.cmd) (hfailed : g.failed = false) (hreset : t.resetIn = s.resetIn) (hbuilt : t.built = s.built)
    (htag : t.tag = s.tag) : Serving cs reply g t where
  noReset := hreset.trans hserving.noReset
  held := hheld
  notFailed := hfailed
  plan := by rw [hcmd, planOfHeld_congr hbuilt htag, hserving.plan]

end Serving

/-- Serving that starts by issuing a call does not look at SEQ, which it is about to write. -/
theorem serve_with_seq {d : Decoded} {reply : Reply} (cs : List Call) (k : Nat) (v : Values) (s : State)
    (q : Option InFlight) : serve d reply false cs k v { s with seq := q } = serve d reply false cs k v s := by
  cases cs <;> rfl

/-- Serving with the first call still to issue is issuing it and serving with it outstanding. -/
theorem serve_eq_serve_outstanding {d : Decoded} {reply : Reply} (out : Bool) (c : Call) (cs : List Call) (k : Nat)
    (v : Values) (s : State) :
    serve d reply out (c :: cs) k v s = serve d reply true (c :: cs) k v (withOutstanding d out c k v s) := by
  cases out <;> rfl

/-- A command that was just handed over goes on without looking at SEQ. -/
theorem proceed_fresh_with_seq (p : Plan) (d : Decoded) (s : State) (q : Option InFlight) :
    proceed p (freshRecord d) { s with seq := q } = proceed p (freshRecord d) s := by
  cases p with
  | calls cs reply => exact congrArg Host.Outcome.next (serve_with_seq cs 0 noValues s q)
  | raise | refuse | setTag => rfl

/-- Taking a command and carrying it on is handing it over, then carrying it on from SEQ (R16, R54, R106). -/
theorem runWhole_eq_resume_handOver (h : Word) (payload rest : List Word) (s : State) :
    runWhole h payload rest s =
      resume (freshRecord (decode s.built.num s.built.family h payload)) (handOver h payload rest s) := by
  unfold runWhole
  cases hdecode : decode s.built.num s.built.family h payload with
  | legal i =>
    have hplan : planOf i (s.take h payload rest) = planOf i (handOver h payload rest s) :=
      planOf_congr (by simp) (by simp) i
    simp only [exec_eq_startCommand, startCommand, hplan]
    exact (proceed_fresh_with_seq _ _ (s.take h payload rest) _).symm
  | illegal why => rfl

/-- Serving the calls `remaining` of `cs` together is a number of steps of R21. -/
def ServedBySteps (cs : List Call) (reply : Reply) (remaining : List Call) : Prop :=
  ∀ {f : InFlight} {s : State}, Serving cs reply f s → cs.drop f.done = remaining →
    ∃ n, advanceTimes n s = .next (serve f.cmd reply f.outstanding remaining f.done f.values s)

section Calls

variable {cs remaining : List Call} {reply : Reply} {c : Call} {f : InFlight} {s : State}

theorem call_of_drop (hdrop : cs.drop f.done = c :: remaining) : cs[f.done]? = some c := by
  rw [← List.head?_drop, hdrop, List.head?_cons]

theorem servedBySteps_nil : ServedBySteps cs reply [] := by
  intro f s hserving hdrop
  have hcall : cs[f.done]? = none := by rw [← List.head?_drop, hdrop, List.head?_nil]
  exact ⟨1, by rw [advanceTimes_one, hserving.advance_eq, serveOnce_done hcall, serve_nil]⟩

/-- With the first call outstanding: no step without an answer, two for a failure (the answer, the response), and for a
good answer one more than the calls after it take. -/
theorem servedBySteps_outstanding (hserved : ServedBySteps cs reply remaining) (hserving : Serving cs reply f s)
    (hdrop : cs.drop f.done = c :: remaining) (hout : f.outstanding = true) :
    ∃ n, advanceTimes n s = .next (serve f.cmd reply true (c :: remaining) f.done f.values s) := by
  cases hans : s.ansIn with
  | nil => exact ⟨0, by rw [serve_waits hans]; rfl⟩
  | cons a rest =>
    have hanswer := hserving.advance_eq
    rw [serveOnce_receives (call_of_drop hdrop) hout hans] at hanswer
    cases haccept : accept c a with
    | none =>
      rw [recordAnswer_failed haccept] at hanswer
      have hresponse := nextStep_of_held (going := resumeOnce)
        (taking := fun h payload rest s => .next (handOver h payload rest s))
        (s := { receive a rest s with seq := some { f with outstanding := false, failed := true } })
        hserving.noReset rfl
      refine ⟨2, ?_⟩
      rw [advanceTimes_succ hanswer, advanceTimes_one, serve_fails hans haccept]
      exact hresponse
    | some w =>
      rw [recordAnswer_accepted haccept] at hanswer
      have hlater := hserving.later (g := ⟨f.cmd, f.done + 1, appendValues f.values w, false, f.failed⟩)
        (t := { receive a rest s with seq := some _ }) rfl rfl hserving.notFailed rfl rfl rfl
      obtain ⟨n, hn⟩ := hserved hlater (by rw [← List.tail_drop, hdrop, List.tail_cons])
      refine ⟨n + 1, (advanceTimes_succ hanswer n).trans (hn.trans ?_)⟩
      rw [serve_goes_on hans haccept]
      exact congrArg _ (serve_with_seq remaining _ _ _ _)

theorem servedBySteps_cons (hserved : ServedBySteps cs reply remaining) : ServedBySteps cs reply (c :: remaining) := by
  intro f s hserving hdrop
  cases hout : f.outstanding with
  | true => exact servedBySteps_outstanding hserved hserving hdrop hout
  | false =>
    have hissue := hserving.advance_eq
    rw [serveOnce_issues (call_of_drop hdrop) hout] at hissue
    obtain ⟨n, hn⟩ := servedBySteps_outstanding hserved
      (hserving.later (t := issue f.cmd c f.done f.values s) rfl rfl rfl rfl rfl rfl) hdrop rfl
    exact ⟨n + 1, (advanceTimes_succ hissue n).trans hn⟩

theorem servedBySteps (remaining : List Call) : ServedBySteps cs reply remaining := by
  induction remaining with
  | nil => exact servedBySteps_nil
  | cons c remaining ih => exact servedBySteps_cons ih

end Calls

/-- Carrying a command on as far as the answers reach is a number of steps of R21. -/
theorem advanceTimes_of_resume {s : State} {f : InFlight} (hreset : s.resetIn = none) (hseq : s.seq = some f) :
    ∃ n, advanceTimes n s = resume f s := by
  have honce : advance s = resumeOnce f s := nextStep_of_held hreset hseq
  cases hfailed : f.failed with
  | true => exact ⟨1, by simp [advanceTimes_one, honce, resumeOnce, resume, heldStep, proceed, followPlan, hfailed]⟩
  | false =>
    cases hplan : planOfHeld f.cmd s with
    | calls cs reply =>
      have hserving : Serving cs reply f s := ⟨hreset, hseq, hfailed, hplan⟩
      rw [hserving.resume_eq]
      exact servedBySteps _ hserving rfl
    | raise | refuse | setTag =>
      exact ⟨1, by simp [advanceTimes_one, honce, resumeOnce, resume, heldStep, proceed, followPlan, hfailed, hplan]⟩

/-- Every step is a number of steps of R21, one after another. -/
theorem step_eq_advanceTimes (s : State) : ∃ n, step s = advanceTimes n s := by
  cases hgrain : s.grain with
  | event => exact ⟨1, by rw [step_of_event hgrain, advanceTimes_one]⟩
  | command =>
    rw [step_of_command hgrain]
    unfold advanceWhole
    cases hreset : s.resetIn with
    | some r => exact ⟨1, by rw [advanceTimes_one, advance, nextStep_of_reset hreset, nextStep_of_reset hreset]⟩
    | none =>
      cases hseq : s.seq with
      | some f =>
        obtain ⟨n, hn⟩ := advanceTimes_of_resume hreset hseq
        exact ⟨n, by rw [nextStep_of_held hreset hseq, hn]⟩
      | none =>
        cases hfetch : fetchCommand s.built.num s.cmdIn with
        | none => exact ⟨0, nextStep_of_nothing_presented hreset hseq hfetch⟩
        | some cut =>
          obtain ⟨h, payload, rest⟩ := cut
          have htaken : advance s = .next (handOver h payload rest s) := nextStep_of_presented hreset hseq hfetch
          obtain ⟨n, hn⟩ := advanceTimes_of_resume (s := handOver h payload rest s) hreset rfl
          exact ⟨n + 1, by
            rw [nextStep_of_presented hreset hseq hfetch, runWhole_eq_resume_handOver, advanceTimes_succ htaken, hn]⟩

/-- What every single step keeps, every step keeps. -/
theorem step_keeps {P : State → Prop} (hsingle : ∀ s t, P s → SingleStep s t → P t) {s t : State} (hs : P s)
    (hnext : step s = .next t) : P t := by
  obtain ⟨n, hn⟩ := step_eq_advanceTimes s
  exact advanceTimes_keeps hsingle n hs (hn.symm.trans hnext)

end Sys2Proof.Machine
end

section
/-! The protocol (R16, R35, R57, R105, R109, R116): the record grows by one event, and SEQ goes with it. -/

namespace Sys2Proof.Machine

theorem phaseAfter_append (p : Phase) (es later : List Event) :
    phaseAfter p (es ++ later) = (phaseAfter p es).bind (fun q => phaseAfter q later) := by
  induction es generalizing p with
  | nil => rfl
  | cons e es ih =>
    cases hstep : phaseStep p e with
    | none => simp [phaseAfter, hstep]
    | some q => simp [phaseAfter, hstep, ih]

/-- One event more is one step of the automaton more. -/
theorem phaseAfter_concat {p q r : Phase} {es : List Event} {e : Event} (hes : phaseAfter p es = some q)
    (hstep : phaseStep q e = some r) : phaseAfter p (es ++ [e]) = some r := by
  rw [phaseAfter_append, hes]
  simp [phaseAfter, hstep]

theorem phaseStep_reset (p : Phase) : phaseStep p .reset = some .idle := by
  cases p <;> rfl

theorem phaseStep_answer_accepted {k : Nat} {c : Call} {a : Answer} {w : Values} (haccept : accept c a = some w) :
    phaseStep (.waiting k c) (.answer a) = some (.running (k + 1)) := by
  simp [phaseStep, haccept]

theorem phaseStep_answer_failed {k : Nat} {c : Call} {a : Answer} (haccept : accept c a = none) :
    phaseStep (.waiting k c) (.answer a) = some (.failed k) := by
  simp [phaseStep, haccept]

theorem phaseStep_response_failed (k : Nat) :
    phaseStep (.failed k) (.response ⟨.transportFailure, k, .none⟩) = some .idle := by
  simp [phaseStep]

theorem phaseStep_response_ok (k : Nat) (payload : Payload) :
    phaseStep (.running k) (.response ⟨.ok, k, payload⟩) = some .idle := by
  simp [phaseStep, mayEnd]

theorem phaseStep_response_validationError {e : Status} (he : isValidationError e = true) :
    phaseStep (.running 0) (.response ⟨e, 0, .none⟩) = some .idle := by
  cases e with
  | ok | transportFailure => cases he
  | invalidChannel | invalidDeviceAddress | illegalCommand => rfl

section InPhase

variable {f : InFlight} {p : Plan} {phase : Phase}

theorem inPhase_of_failed (hphase : f.inPhase p phase) (hfailed : f.failed = true) :
    phase = .failed f.done := by
  cases hout : f.outstanding <;> simp only [InFlight.inPhase, hfailed, hout] at hphase
  exact hphase

/-- A call is outstanding only of a command that makes calls, and it is the one SEQ counts up to. -/
theorem inPhase_of_outstanding (hphase : f.inPhase p phase) (hout : f.outstanding = true) :
    f.failed = false ∧ ∃ cs reply c, p = .calls cs reply ∧ cs[f.done]? = some c ∧ phase = .waiting f.done c := by
  cases hfailed : f.failed <;> simp only [InFlight.inPhase, hfailed, hout] at hphase
  exact ⟨rfl, hphase⟩

theorem inPhase_iff_waiting (hfailed : f.failed = false) (hout : f.outstanding = true) :
    f.inPhase p phase ↔ ∃ cs reply c, p = .calls cs reply ∧ cs[f.done]? = some c ∧ phase = .waiting f.done c := by
  simp only [InFlight.inPhase, hfailed, hout]

theorem inPhase_iff_running (hfailed : f.failed = false) (hout : f.outstanding = false) :
    f.inPhase p phase ↔
      phase = .running f.done ∧ (f.done = 0 ∨ ∃ cs reply, p = .calls cs reply ∧ f.done ≤ cs.length) := by
  simp only [InFlight.inPhase, hfailed, hout]

/-- A command without calls has completed none and has none outstanding. -/
theorem inPhase_of_no_calls (hphase : f.inPhase p phase) (hfailed : f.failed = false)
    (hplan : ∀ cs reply, p ≠ .calls cs reply) : f.outstanding = false ∧ f.done = 0 ∧ phase = .running 0 := by
  cases hout : f.outstanding with
  | true =>
    obtain ⟨_, cs, reply, _, hcalls, _⟩ := inPhase_of_outstanding hphase hout
    exact absurd hcalls (hplan cs reply)
  | false =>
    obtain ⟨hrunning, hdone | ⟨cs, reply, hcalls, _⟩⟩ :=
      (inPhase_iff_running hfailed hout).mp hphase
    · exact ⟨rfl, hdone, by rw [hrunning, hdone]⟩
    · exact absurd hcalls (hplan cs reply)

/-- With all calls completed none is outstanding. -/
theorem inPhase_of_no_call_left {cs : List Call} {reply : Reply} (hphase : f.inPhase (.calls cs reply) phase)
    (hfailed : f.failed = false) (hcall : cs[f.done]? = none) : phase = .running f.done := by
  cases hout : f.outstanding with
  | true =>
    obtain ⟨_, cs', reply', c, hplan, hsome, _⟩ := inPhase_of_outstanding hphase hout
    cases hplan
    rw [hcall] at hsome
    cases hsome
  | false => exact ((inPhase_iff_running hfailed hout).mp hphase).left

/-- The outstanding call is the one the plan says. -/
theorem inPhase_of_call_outstanding {cs : List Call} {reply : Reply} {c : Call}
    (hphase : f.inPhase (.calls cs reply) phase) (hout : f.outstanding = true) (hcall : cs[f.done]? = some c) :
    phase = .waiting f.done c := by
  obtain ⟨_, cs', reply', c', hplan, hcall', hwaiting⟩ := inPhase_of_outstanding hphase hout
  cases hplan
  rw [hcall] at hcall'
  cases hcall'
  exact hwaiting

end InPhase

section Follows

variable {s t : State} {f : InFlight}

theorem followsProtocol_iff_of_held (hseq : s.seq = some f) :
    s.followsProtocol ↔ ∃ phase, phaseAfter .idle s.trace = some phase ∧ f.inPhase (planOfHeld f.cmd s) phase := by
  simp [State.followsProtocol, hseq]

/-- A state that follows the protocol is somewhere in it. -/
theorem phase_of_followsProtocol (hs : s.followsProtocol) : ∃ phase, phaseAfter .idle s.trace = some phase := by
  cases hseq : s.seq with
  | none => exact ⟨_, (followsProtocol_iff_of_idle hseq).mp hs⟩
  | some f =>
    obtain ⟨phase, htrace, _⟩ := (followsProtocol_iff_of_held hseq).mp hs
    exact ⟨phase, htrace⟩

/-- A response that the automaton allows leads back to idle. -/
theorem followsProtocol_respond {phase : Phase} {e : Status} {k : Nat} {payload : Payload}
    (htrace : phaseAfter .idle s.trace = some phase)
    (hstep : phaseStep phase (.response ⟨e, k, payload⟩) = some .idle) : (respond e k payload s).followsProtocol :=
  (followsProtocol_iff_of_idle rfl).mpr (phaseAfter_concat htrace hstep)

theorem followsProtocol_handOver {h : Word} {payload rest : List Word} (hs : s.followsProtocol)
    (hseq : s.seq = none) : (handOver h payload rest s).followsProtocol := by
  have htrace := (followsProtocol_iff_of_idle hseq).mp hs
  exact (followsProtocol_iff_of_held (handOver_seq ..)).mpr
    ⟨.running 0, phaseAfter_concat htrace rfl, (inPhase_iff_running rfl rfl).mpr ⟨rfl, .inl rfl⟩⟩

theorem followsProtocol_issue {cs : List Call} {reply : Reply} {c : Call} (hs : s.followsProtocol)
    (hseq : s.seq = some f) (hfailed : f.failed = false) (hplan : planOfHeld f.cmd s = .calls cs reply)
    (hcall : cs[f.done]? = some c) (hout : f.outstanding = false) :
    (issue f.cmd c f.done f.values s).followsProtocol := by
  obtain ⟨phase, htrace, hphase⟩ := (followsProtocol_iff_of_held hseq).mp hs
  obtain ⟨rfl, _⟩ := (inPhase_iff_running hfailed hout).mp hphase
  have hlater : planOfHeld f.cmd (issue f.cmd c f.done f.values s) = .calls cs reply := by
    rw [← hplan, planOfHeld_congr (issue_built ..) (issue_tag ..)]
  refine (followsProtocol_iff_of_held (issue_seq ..)).mpr
    ⟨.waiting f.done c, phaseAfter_concat htrace rfl, (inPhase_iff_waiting rfl rfl).mpr ?_⟩
  exact ⟨cs, reply, c, hlater, hcall, rfl⟩

theorem followsProtocol_answer {cs : List Call} {reply : Reply} {c : Call} {a : Answer} {rest : List Answer}
    (hs : s.followsProtocol) (hseq : s.seq = some f) (hfailed : f.failed = false)
    (hplan : planOfHeld f.cmd s = .calls cs reply) (hcall : cs[f.done]? = some c) (hout : f.outstanding = true) :
    State.followsProtocol { receive a rest s with seq := some (recordAnswer f c a) } := by
  obtain ⟨phase, htrace, hphase⟩ := (followsProtocol_iff_of_held hseq).mp hs
  rw [hplan] at hphase
  obtain rfl := inPhase_of_call_outstanding hphase hout hcall
  rw [followsProtocol_iff_of_held rfl]
  cases haccept : accept c a with
  | some w =>
    rw [recordAnswer_accepted haccept]
    refine ⟨.running (f.done + 1), phaseAfter_concat htrace (phaseStep_answer_accepted haccept), ?_⟩
    obtain ⟨hlt, _⟩ := List.getElem?_eq_some_iff.mp hcall
    refine (inPhase_iff_running (f := ⟨f.cmd, f.done + 1, appendValues f.values w, false, f.failed⟩) hfailed rfl).mpr
      ⟨rfl, .inr ⟨cs, reply, ?_, Nat.succ_le_of_lt hlt⟩⟩
    refine (planOfHeld_congr ?_ ?_ f.cmd).trans hplan <;> rfl
  | none =>
    rw [recordAnswer_failed haccept]
    exact ⟨.failed f.done, phaseAfter_concat htrace (phaseStep_answer_failed haccept), rfl⟩

/-- A single step keeps the protocol, one case for each thing it can be. -/
theorem followsProtocol_of_singleStep (hs : s.followsProtocol) (hstep : SingleStep s t) : t.followsProtocol := by
  cases hstep with
  | reset r hreset haddress =>
    obtain ⟨phase, htrace⟩ := phase_of_followsProtocol hs
    exact (followsProtocol_iff_of_idle rfl).mpr (phaseAfter_concat htrace (phaseStep_reset phase))
  | waits => exact hs
  | taken h payload rest hseq hfetch => exact followsProtocol_handOver hs hseq
  | failureDelivered f hseq hfailed =>
    obtain ⟨phase, htrace, hphase⟩ := (followsProtocol_iff_of_held hseq).mp hs
    obtain rfl := inPhase_of_failed hphase hfailed
    exact followsProtocol_respond htrace (phaseStep_response_failed f.done)
  | operandError f e hseq hfailed hplan =>
    obtain ⟨phase, htrace, hphase⟩ := (followsProtocol_iff_of_held hseq).mp hs
    obtain ⟨_, hdone, rfl⟩ := inPhase_of_no_calls hphase hfailed (by simp [hplan])
    rw [hdone]
    exact followsProtocol_respond htrace (phaseStep_response_validationError (planOfHeld_raise hplan))
  | tagWritten f b hseq hfailed hplan =>
    obtain ⟨phase, htrace, hphase⟩ := (followsProtocol_iff_of_held hseq).mp hs
    obtain ⟨_, hdone, rfl⟩ := inPhase_of_no_calls hphase hfailed (by simp [hplan])
    rw [hdone]
    exact followsProtocol_respond htrace (phaseStep_response_ok 0 .none)
  | completed f cs reply hseq hfailed hplan hcall =>
    obtain ⟨phase, htrace, hphase⟩ := (followsProtocol_iff_of_held hseq).mp hs
    rw [hplan] at hphase
    obtain rfl := inPhase_of_no_call_left hphase hfailed hcall
    exact followsProtocol_respond htrace (phaseStep_response_ok f.done _)
  | issued f cs reply c hseq hfailed hplan hcall hout => exact followsProtocol_issue hs hseq hfailed hplan hcall hout
  | answered f cs reply c a rest hseq hfailed hplan hcall hout hans =>
    exact followsProtocol_answer hs hseq hfailed hplan hcall hout

end Follows

/-- Settles O30: every single step keeps the protocol, and a joined step is a number of them. -/
theorem stepKeepsProtocol : Obligations.StepKeepsProtocol :=
  fun _ _ hs hnext => step_keeps (P := State.followsProtocol) (fun _ _ => followsProtocol_of_singleStep) hs hnext

end Sys2Proof.Machine
end

section
/-! What a step changes of TAG and of the parameters, and how much a single one records (R11 to R14, R21, R117). -/

namespace Sys2Proof.Machine

theorem ofNat_ne_zero_of_deviceAddressOk {n : Nat} (h : deviceAddressOk n = true) : BitVec.ofNat 8 n ≠ 0 := by
  obtain ⟨hlow, hhigh⟩ := deviceAddressOk_iff.mp h
  intro hzero
  have hnat := congrArg BitVec.toNat hzero
  simp at hnat
  omega

/-- The low byte of a legal address is the address, so it is not 0. -/
theorem lowByte_ne_zero_of_deviceAddressOk {tag : Half} (h : deviceAddressOk tag.toNat = true) :
    tag.extractLsb' 0 8 ≠ 0 := by
  have hbyte : tag.extractLsb' 0 8 = BitVec.ofNat 8 tag.toNat := by
    apply BitVec.eq_of_toNat_eq
    simp
  rw [hbyte]
  exact ofNat_ne_zero_of_deviceAddressOk h

/-- Only a reset and SETTAG write TAG, and both write a device address. -/
theorem tagLegal_of_singleStep {s t : State} (hs : s.tagLegal) (hstep : SingleStep s t) : t.tagLegal := by
  cases hstep with
  | reset r hreset haddress => exact ofNat_ne_zero_of_deviceAddressOk haddress
  | tagWritten f b hseq hfailed hplan =>
    obtain ⟨tag, _, haddress, rfl⟩ := planOfHeld_setTag hplan
    exact lowByte_ne_zero_of_deviceAddressOk haddress
  | waits | taken | failureDelivered | operandError | completed | issued | answered => exact hs

theorem built_of_singleStep {s t : State} (hstep : SingleStep s t) : t.built = s.built := by
  cases hstep <;> rfl

/-- Each of the things a single step can be records one event, and waiting none. -/
theorem trace_of_singleStep {s t : State} (hstep : SingleStep s t) :
    t.trace = s.trace ∨ ∃ e, t.trace = s.trace ++ [e] := by
  cases hstep with
  | waits => exact .inl rfl
  | reset | taken | failureDelivered | operandError | tagWritten | completed | issued | answered =>
    exact .inr ⟨_, rfl⟩

/-- Settles O32: TAG is legal after every single step, so after every step. -/
theorem stepKeepsTagLegal : Obligations.StepKeepsTagLegal :=
  fun _ _ hs hnext => step_keeps (P := State.tagLegal) (fun _ _ => tagLegal_of_singleStep) hs hnext

/-- Settles O33: the parameters are those of `s` after every single step, so after every step. -/
theorem stepKeepsParameters : Obligations.StepKeepsParameters :=
  fun s _ hnext => step_keeps (P := fun u => u.built = s.built)
    (fun _ _ hu hstep => (built_of_singleStep hstep).trans hu) rfl hnext

section TagWrites

variable {s t : State} {f : InFlight} {p : Plan}

/-- A plan that leads to another TAG is a SETTAG's, which is then at its end. -/
theorem followPlan_tag {serving : List Call → Reply → State} (hserving : ∀ cs reply, (serving cs reply).tag = s.tag)
    (hnext : followPlan p f s serving = .next t) (htag : t.tag ≠ s.tag) :
    f.failed = false ∧ ∃ b, p = .setTag b ∧ t.tag = b ∧ t.seq = none := by
  rcases followPlan_next hnext with
    ⟨_, rfl⟩ | ⟨hfailed, ⟨e, _, rfl⟩ | ⟨b, hplan, rfl⟩ | ⟨cs, reply, _, rfl⟩⟩
  · exact absurd rfl htag
  · exact absurd rfl htag
  · exact ⟨hfailed, b, hplan, rfl, rfl⟩
  · exact absurd (hserving cs reply) htag

theorem serveOnce_tag (f : InFlight) (s : State) (cs : List Call) (reply : Reply) :
    (serveOnce f s cs reply).tag = s.tag := by
  unfold serveOnce
  split
  · rfl
  · split
    · split <;> rfl
    · rfl

theorem serve_tag {d : Decoded} {reply : Reply} (out : Bool) (cs : List Call) (k : Nat) (v : Values) (s : State) :
    (serve d reply out cs k v s).tag = s.tag := by
  obtain ⟨_, htag, _⟩ := serve_frame (d := d) (reply := reply) cs out k v s
  exact htag

theorem resumeOnce_tag (hnext : resumeOnce f s = .next t) (htag : t.tag ≠ s.tag) :
    f.failed = false ∧ ∃ b, planOfHeld f.cmd s = .setTag b ∧ t.tag = b ∧ t.seq = none :=
  followPlan_tag (serveOnce_tag f s) hnext htag

theorem resume_tag (hnext : resume f s = .next t) (htag : t.tag ≠ s.tag) :
    f.failed = false ∧ ∃ b, planOfHeld f.cmd s = .setTag b ∧ t.tag = b ∧ t.seq = none :=
  followPlan_tag (fun _ _ => serve_tag ..) hnext htag

/-- A step of an instance in flight that changes TAG ends the SETTAG it holds, with no call completed and none
outstanding. -/
theorem settag_held_of_tag_changed (hs : s.followsProtocol) (hreset : s.resetIn = none) (hseq : s.seq = some f)
    (hnext : step s = .next t) (htag : t.tag ≠ s.tag) :
    ∃ tag : Half, f.cmd = .legal (.settag tag) ∧ f.done = 0 ∧ f.outstanding = false ∧
      t.tag = tag.extractLsb' 0 8 ∧ t.seq = none := by
  obtain ⟨hfailed, b, hplan, hwritten, hidle⟩ :
      f.failed = false ∧ ∃ b, planOfHeld f.cmd s = .setTag b ∧ t.tag = b ∧ t.seq = none := by
    rcases step_of_held hreset hseq with hstep | hstep
    · exact resumeOnce_tag (hstep ▸ hnext) htag
    · exact resume_tag (hstep ▸ hnext) htag
  obtain ⟨tag, hcmd, _, rfl⟩ := planOfHeld_setTag hplan
  obtain ⟨phase, _, hphase⟩ := (followsProtocol_iff_of_held hseq).mp hs
  obtain ⟨hout, hdone, _⟩ := inPhase_of_no_calls hphase hfailed (by simp [hplan])
  exact ⟨tag, hcmd, hdone, hout, hwritten, hidle⟩

/-- A joined step of an idle instance that changes TAG takes a SETTAG and ends it. -/
theorem settag_taken_of_tag_changed {h : Word} {payload rest : List Word}
    (hnext : runWhole h payload rest s = .next t) (htag : t.tag ≠ s.tag) :
    ∃ tag : Half, decode s.built.num s.built.family h payload = .legal (.settag tag) ∧
      t.tag = tag.extractLsb' 0 8 ∧ t.seq = none := by
  rw [runWhole_eq_resume_handOver] at hnext
  obtain ⟨_, b, hplan, hwritten, hidle⟩ := resume_tag hnext htag
  obtain ⟨tag, hcmd, _, rfl⟩ := planOfHeld_setTag hplan
  exact ⟨tag, hcmd, hwritten, hidle⟩

/-- A step of an idle instance that changes TAG is a joined one: handing a command over leaves TAG as it is. -/
theorem runWhole_of_tag_changed (hreset : s.resetIn = none) (hseq : s.seq = none) (hnext : step s = .next t)
    (htag : t.tag ≠ s.tag) :
    ∃ h payload rest, fetchCommand s.built.num s.cmdIn = some (h, payload, rest) ∧
      runWhole h payload rest s = .next t := by
  cases hfetch : fetchCommand s.built.num s.cmdIn with
  | none =>
    rw [step_of_nothing_presented hreset hseq hfetch] at hnext
    cases hnext
    exact absurd rfl htag
  | some cut =>
    obtain ⟨h, payload, rest⟩ := cut
    cases hgrain : s.grain with
    | event =>
      rw [step_of_event hgrain, advance, nextStep_of_presented hreset hseq hfetch] at hnext
      cases hnext
      exact absurd rfl htag
    | command =>
      rw [step_of_command hgrain, advanceWhole, nextStep_of_presented hreset hseq hfetch] at hnext
      exact ⟨h, payload, rest, rfl, hnext⟩

/-- Settles O34: a reset is pending, or the instance is idle and takes a SETTAG, or it holds one. -/
theorem tagChangesOnlyByResetOrSettag : Obligations.TagChangesOnlyByResetOrSettag := by
  intro s t hs hnext htag
  cases hreset : s.resetIn with
  | some r => exact .inl ⟨r, rfl⟩
  | none =>
    cases hseq : s.seq with
    | none =>
      obtain ⟨h, payload, rest, hfetch, hwhole⟩ := runWhole_of_tag_changed hreset hseq hnext htag
      obtain ⟨tag, hdecode, hwritten, hidle⟩ := settag_taken_of_tag_changed hwhole htag
      exact .inr (.inl ⟨rfl, h, payload, rest, tag, hfetch, hdecode, hwritten, hidle⟩)
    | some f =>
      obtain ⟨tag, hsettag⟩ := settag_held_of_tag_changed hs hreset hseq hnext htag
      exact .inr (.inr ⟨f, tag, rfl, hsettag⟩)

end TagWrites

end Sys2Proof.Machine
end

section
/-! Waiting for answers changes nothing: a command that stopped for want of answers goes on where it would have gone
with all of them at hand (R17, R27, R35). -/

namespace Sys2Proof.Machine

/-- The state with these answers to come. -/
def State.withAnswers (s : State) (answers : List Answer) : State := { s with ansIn := answers }

@[simp] theorem withAnswers_built (s : State) (answers : List Answer) : (s.withAnswers answers).built = s.built := rfl
@[simp] theorem withAnswers_tag (s : State) (answers : List Answer) : (s.withAnswers answers).tag = s.tag := rfl
@[simp] theorem withAnswers_seq (s : State) (answers : List Answer) : (s.withAnswers answers).seq = s.seq := rfl
@[simp] theorem withAnswers_ansIn (s : State) (answers : List Answer) : (s.withAnswers answers).ansIn = answers := rfl

section Serve

variable {d : Decoded} {reply : Reply} {out : Bool} {c : Call} {cs : List Call} {k n : Nat} {u v : Values}
  {s : State}

theorem withOutstanding_seq (hheld : out = true → s.seq = some ⟨d, k, v, true, false⟩) :
    (withOutstanding d out c k v s).seq = some ⟨d, k, v, true, false⟩ := by
  cases out with
  | false => rfl
  | true => exact hheld rfl

/-- Issuing a call does not look at the answers. -/
theorem withOutstanding_withAnswers (answers : List Answer) :
    withOutstanding d out c k v (s.withAnswers answers) = (withOutstanding d out c k v s).withAnswers answers := by
  cases out <;> rfl

theorem serve_with_good_answer {a : Answer} {w : Values} (haccept : accept c a = some w) (rest : List Answer) :
    serve d reply out (c :: cs) k v (s.withAnswers (a :: rest)) =
      serve d reply false cs (k + 1) (appendValues v w)
        ((receive a [] (withOutstanding d out c k v s)).withAnswers rest) := by
  rw [serve_goes_on rfl haccept, withOutstanding_withAnswers]
  rfl

/-- A serving that stops for want of answers stops no earlier than where it began. -/
theorem le_of_serve_stops (hheld : out = true → s.seq = some ⟨d, k, v, true, false⟩)
    (hstops : (serve d reply out cs k v s).seq = some ⟨d, n, u, true, false⟩) : k ≤ n := by
  rcases serve_seq (reply := reply) cs out k v s hheld with hidle | ⟨m, _, hle, _, hseq, _⟩
  · rw [hidle] at hstops
    cases hstops
  · rw [hseq] at hstops
    cases hstops
    exact hle

end Serve

/-- With the early answers serving stops at the call `n`; with the late ones behind them it does what serving on from
that stop does with the late ones alone. -/
theorem serve_append_answers {d : Decoded} {reply : Reply} {late : List Answer} {n : Nat} {u : Values}
    (cs : List Call) : ∀ (early : List Answer) (out : Bool) (k : Nat) (v : Values) (s : State),
      (out = true → s.seq = some ⟨d, k, v, true, false⟩) →
      (serve d reply out cs k v (s.withAnswers early)).seq = some ⟨d, n, u, true, false⟩ →
      serve d reply out cs k v (s.withAnswers (early ++ late)) =
        serve d reply true (cs.drop (n - k)) n u
          ((serve d reply out cs k v (s.withAnswers early)).withAnswers late) := by
  induction cs with
  | nil =>
    intro early out k v s _ hstops
    rw [serve_nil] at hstops
    cases hstops
  | cons c cs ih =>
    intro early out k v s hheld hstops
    cases early with
    | nil =>
      rw [serve_waits rfl, withOutstanding_seq (s := s.withAnswers []) hheld] at hstops
      cases hstops
      rw [serve_waits (s := s.withAnswers []) rfl, Nat.sub_self, List.drop_zero, serve_eq_serve_outstanding,
        withOutstanding_withAnswers, withOutstanding_withAnswers]
      rfl
    | cons a rest =>
      cases haccept : accept c a with
      | none =>
        rw [serve_fails rfl haccept] at hstops
        cases hstops
      | some w =>
        rw [serve_with_good_answer haccept] at hstops
        have hlater := le_of_serve_stops Bool.noConfusion hstops
        have hdrop : (c :: cs).drop (n - k) = cs.drop (n - (k + 1)) := by
          rw [show n - k = n - (k + 1) + 1 by omega, List.drop_succ_cons]
        rw [List.cons_append, serve_with_good_answer haccept, serve_with_good_answer haccept, hdrop]
        exact ih rest false (k + 1) (appendValues v w) _ Bool.noConfusion hstops

/-- A command that stopped in flight is one that makes calls. -/
theorem exec_stops {i : Instr} {s t : State} (hnext : exec i s = .next t) (hseq : t.seq ≠ none) :
    ∃ cs reply, planOf i s = .calls cs reply ∧ t = serve (.legal i) reply false cs 0 noValues s := by
  rw [exec_eq_startCommand, startCommand] at hnext
  rcases followPlan_next hnext with
    ⟨_, rfl⟩ | ⟨_, ⟨e, _, rfl⟩ | ⟨b, _, rfl⟩ | ⟨cs, reply, hplan, rfl⟩⟩
  · exact absurd rfl hseq
  · exact absurd rfl hseq
  · exact absurd rfl hseq
  · exact ⟨cs, reply, hplan, rfl⟩

/-- With the early answers the command stops; the step given the late ones leads where all of them lead. -/
theorem step_late_eq_exec_all {i : Instr} {s t : State} {early late : List Answer} (hgrain : s.grain = .command)
    (hreset : s.resetIn = none) (hnext : exec i (s.withAnswers early) = .next t) (hseq : t.seq ≠ none) :
    step (t.withAnswers late) = exec i (s.withAnswers (early ++ late)) := by
  obtain ⟨cs, reply, hplan, rfl⟩ := exec_stops hnext hseq
  obtain ⟨hbuilt, htag, -, hnoReset, hsame⟩ :=
    serve_frame (d := .legal i) (reply := reply) cs false 0 noValues (s.withAnswers early)
  rcases serve_seq (d := .legal i) (reply := reply) cs false 0 noValues (s.withAnswers early) Bool.noConfusion with
    hidle | ⟨n, u, -, -, hheld, -⟩
  · exact absurd hidle hseq
  · have hall : planOf i (s.withAnswers (early ++ late)) = .calls cs reply := by
      rw [← hplan]
      exact planOf_congr (by simp) (by simp) i
    have hserving : Serving cs reply ⟨.legal i, n, u, true, false⟩
        ((serve (.legal i) reply false cs 0 noValues (s.withAnswers early)).withAnswers late) :=
      ⟨hnoReset.trans hreset, hheld, rfl, (planOf_congr (by simp [hbuilt]) (by simp [htag]) i).trans hplan⟩
    have hjoined :
        ((serve (.legal i) reply false cs 0 noValues (s.withAnswers early)).withAnswers late).grain = .command :=
      hsame.trans hgrain
    rw [step_of_command hjoined, advanceWhole, nextStep_of_held hserving.noReset hserving.held,
      hserving.resume_eq, exec_eq_startCommand, hall, startCommand_calls,
      serve_append_answers cs early false 0 noValues s Bool.noConfusion hheld, Nat.sub_zero]

theorem eventsSince_of_append {s t : State} {es : List Event} (htrace : t.trace = s.trace ++ es) :
    eventsSince s t = es := by
  simp [eventsSince, htrace]

theorem eventsSince_length_of_singleStep {s t : State} (hstep : SingleStep s t) : (eventsSince s t).length ≤ 1 := by
  rcases trace_of_singleStep hstep with hnothing | ⟨e, hevent⟩
  · rw [eventsSince_of_append (hnothing.trans (List.append_nil _).symm)]
    exact Nat.zero_le 1
  · rw [eventsSince_of_append hevent]
    exact Nat.le_refl 1

/-- Settles O41: the late answers by `serve_append_answers`, the joined steps by `step_eq_advanceTimes`, and the single
ones by the inversion `SingleStep`. -/
theorem resumeEqualsUninterrupted : Obligations.ResumeEqualsUninterrupted := by
  refine ⟨fun _ _ _ _ _ => step_late_eq_exec_all, step_eq_advanceTimes, fun s t hgrain hnext => ?_⟩
  rw [step_of_event hgrain] at hnext
  exact eventsSince_length_of_singleStep (singleStep_of_advance hnext)

end Sys2Proof.Machine
end

section
/-! Decoding the encoding of a well-formed command gives the command back (R43 to R54). -/

namespace Sys2Proof.Machine

open Sys2Proof.Laws

/-- Every command's encoding is a header on its own family with the payload it announces. -/
theorem encodeLength (i : Instr) : EncodeLength.Statement i := by
  cases i with
  | connect => exact EncodeLength.connect
  | settag tag => exact EncodeLength.settag tag
  | setaddr address => exact EncodeLength.setaddr address
  | setuart baud parity => exact EncodeLength.setuart baud parity
  | rdver => exact EncodeLength.rdver
  | dioSetch channel on => exact EncodeLength.dioSetch channel on
  | dioSetchs start actions => exact EncodeLength.dioSetchs start actions
  | dioSetmode channel mode => exact EncodeLength.dioSetmode channel mode
  | dioRdchs => exact EncodeLength.dioRdchs
  | dioRdout => exact EncodeLength.dioRdout
  | rlySetch channel on => exact EncodeLength.rlySetch channel on
  | rlySetchs start actions => exact EncodeLength.rlySetchs start actions
  | rlyRdchs => exact EncodeLength.rlyRdchs
  | rlyOpen channel => exact EncodeLength.rlyOpen channel
  | rlyClose channel => exact EncodeLength.rlyClose channel
  | aiSettype channel type => exact EncodeLength.aiSettype channel type
  | aiSettypes types => exact EncodeLength.aiSettypes types
  | aiGettypes => exact EncodeLength.aiGettypes
  | aiRdch channel => exact EncodeLength.aiRdch channel
  | aiRdchs => exact EncodeLength.aiRdchs
  | aoSetch channel value => exact EncodeLength.aoSetch channel value
  | aoSetchs values => exact EncodeLength.aoSetchs values
  | aoGetvals => exact EncodeLength.aoGetvals

/-- With the checks of R54 passed the decoder assembles the operands of the row. -/
theorem decode_headerWord {num : Numerics} {strap : Family} {f : Header} {payload : List Word} {r : Opcode}
    (hlength : payload.length = paylen num (headerWord f)) (hstrap : (headerOf (headerWord f)).fam = strap)
    (hrow : opcodeOf f.fam f.op = some r) (hreserved : reservedClear r f.a f.b = true) :
    decode num strap (headerWord f) payload = operandsOf num r f.a f.b payload := by
  rw [headerOf_headerWord] at hstrap
  subst hstrap
  rw [decode, if_neg (by rw [not_not]; exact hlength)]
  simp [hrow, hreserved]

theorem onField_reserved (on : Bool) : (onField on &&& 0xFFFE == 0) = true := by
  cases on <;> rfl

theorem onField_getLsbD (on : Bool) : (onField on).getLsbD 0 = on := by
  cases on <;> rfl

/-- The element count of a batch leaves B[15:8] zero. -/
theorem batch_count_reserved {n : Nat} (hn : n ≤ 255) : (BitVec.ofNat 16 n &&& 0xFF00 == 0) = true := by
  have hmask : ∀ i < 8, (0xFF00 : Half).getLsbD i = false := by decide
  rw [beq_iff_eq]
  refine BitVec.eq_of_getLsbD_eq fun i _ => ?_
  rw [BitVec.getLsbD_and, show (0 : Half).getLsbD i = false from BitVec.getLsbD_zero]
  by_cases hlow : i < 8
  · rw [hmask i hlow, Bool.and_false]
  · have hsmall : n < 2 ^ i :=
      calc n < 2 ^ 8 := by omega
        _ ≤ 2 ^ i := Nat.pow_le_pow_right (by decide) (by omega)
    rw [BitVec.getLsbD_ofNat, Nat.testBit_lt_two_pow hsmall, Bool.and_false, Bool.false_and]

/-- The common commands have the same row on every strap (R44, R73). -/
theorem opcodeOf_common (strap : Family) :
    opcodeOf strap 0x00 = some .connect ∧ opcodeOf strap 0x01 = some .settag ∧ opcodeOf strap 0x02 = some .setaddr ∧
      opcodeOf strap 0x03 = some .setuart ∧ opcodeOf strap 0x04 = some .rdver := by
  cases strap <;> decide

theorem batchFits_of_wellFormed {i : Instr} {num : Numerics} {strap : Family} (hw : i.wellFormed num strap = true) :
    i.batchFits = true := by
  simp only [Instr.wellFormed, Bool.and_eq_true] at hw
  obtain ⟨⟨_, hbatch⟩, _⟩ := hw
  exact hbatch

theorem valuesFit_of_wellFormed {i : Instr} {num : Numerics} {strap : Family} (hw : i.wellFormed num strap = true) :
    i.valuesFit num = true := by
  simp only [Instr.wellFormed, Bool.and_eq_true] at hw
  obtain ⟨_, hvalues⟩ := hw
  exact hvalues

/-- The words of a well-formed command decode to it: the header passes the checks of its row, and the operands and the
payload are read back. -/
theorem decode_of_encode {num : Numerics} {strap : Family} {i : Instr} {h : Word} {payload : List Word}
    (hw : i.wellFormed num strap = true) (hencode : encode num strap i = h :: payload)
    (hlength : payload.length = paylen num h) (hstrap : (headerOf h).fam = strap) :
    decode num strap h payload = .legal i := by
  obtain ⟨hconnect, hsettag, hsetaddr, hsetuart, hrdver⟩ := opcodeOf_common strap
  cases i with
  | connect => cases hencode; exact decode_headerWord hlength hstrap hconnect rfl
  | settag tag => cases hencode; exact decode_headerWord hlength hstrap hsettag rfl
  | setaddr address => cases hencode; exact decode_headerWord hlength hstrap hsetaddr rfl
  | setuart baud parity => cases hencode; exact decode_headerWord hlength hstrap hsetuart rfl
  | rdver => cases hencode; exact decode_headerWord hlength hstrap hrdver rfl
  | dioSetch channel on | rlySetch channel on =>
    cases hencode
    rw [decode_headerWord hlength hstrap rfl (onField_reserved on), operandsOf, onField_getLsbD]
  | dioSetchs start actions | rlySetchs start actions =>
    cases hencode
    have hcount := batch_count_reserved (of_decide_eq_true (batchFits_of_wellFormed hw))
    rw [decode_headerWord hlength hstrap rfl hcount, operandsOf, batchOfPayload, actionsOfPayload_map]
  | aiSettypes types =>
    cases hencode
    rw [decode_headerWord hlength hstrap rfl rfl, operandsOf, typesOfPayload_map]
    rfl
  | aoSetch channel value =>
    cases hencode
    rw [decode_headerWord hlength hstrap rfl rfl, operandsOf, valueOfWords_wordsOfValue (valuesFit_of_wellFormed hw)]
  | aoSetchs values =>
    cases hencode
    have hvalues := valuesOfPayload_flatMap (valuesFit_of_wellFormed hw)
    rw [toList_length] at hvalues
    rw [decode_headerWord hlength hstrap rfl rfl, operandsOf, hvalues]
    rfl
  | dioSetmode | dioRdchs | dioRdout | rlyRdchs | rlyOpen | rlyClose | aiSettype | aiGettypes | aiRdch | aiRdchs
  | aoGetvals =>
    cases hencode
    exact decode_headerWord hlength hstrap rfl rfl

/-- The encoding of a well-formed command is a header with the payload it announces, and decodes to the command. -/
theorem decode_encode {num : Numerics} {strap : Family} {i : Instr} (hw : i.wellFormed num strap = true) :
    ∃ h payload, encode num strap i = h :: payload ∧ payload.length = paylen num h ∧
      decode num strap h payload = .legal i := by
  obtain ⟨h, payload, hencode, hlength, hstrap⟩ := encodeLength i num strap hw
  exact ⟨h, payload, hencode, hlength, decode_of_encode hw hencode hlength hstrap⟩

end Sys2Proof.Machine
end

section
/-! What a step does with the commands presented to it: it takes the next one when idle, waits when there is none, and
takes none while one is in flight (R16, R21, R27, R106, R120, R121). -/

namespace Sys2Proof.Machine

section Taking

variable {s : State} {h : Word} {payload rest : List Word}

theorem fetchCommand_presented {num : Numerics} (hcmd : s.cmdIn = h :: (payload ++ rest))
    (hlength : payload.length = paylen num h) : fetchCommand num s.cmdIn = some (h, payload, rest) := by
  rw [hcmd, fetchCommand_append hlength]

theorem step_event_presented (hgrain : s.grain = .event) (hreset : s.resetIn = none) (hseq : s.seq = none)
    (hfetch : fetchCommand s.built.num s.cmdIn = some (h, payload, rest)) :
    step s = .next (handOver h payload rest s) := by
  rw [step_of_event hgrain, advance, nextStep_of_presented hreset hseq hfetch]

theorem step_command_presented (hgrain : s.grain = .command) (hreset : s.resetIn = none) (hseq : s.seq = none)
    (hfetch : fetchCommand s.built.num s.cmdIn = some (h, payload, rest)) : step s = runWhole h payload rest s := by
  rw [step_of_command hgrain, advanceWhole, nextStep_of_presented hreset hseq hfetch]

theorem handOver_of_decode {d : Decoded} (hdecode : decode s.built.num s.built.family h payload = d) :
    handOver h payload rest s = { s.take h payload rest with seq := some (freshRecord d) } := by
  rw [handOver, hdecode]

theorem runWhole_legal {i : Instr} (hdecode : decode s.built.num s.built.family h payload = .legal i) :
    runWhole h payload rest s = exec i (s.take h payload rest) := by
  simp [runWhole, hdecode]

theorem runWhole_illegal {why : Illegal} (hdecode : decode s.built.num s.built.family h payload = .illegal why) :
    runWhole h payload rest s = .next (raise .illegalCommand 0 (s.take h payload rest)) := by
  simp [runWhole, hdecode]

/-- Words that are no command are answered in the step after their hand-over, whatever the grain (R106). -/
theorem step_of_illegal_held {why : Illegal} (hreset : s.resetIn = none)
    (hseq : s.seq = some (freshRecord (.illegal why))) : step s = .next (raise .illegalCommand 0 s) := by
  rcases step_of_held hreset hseq with hstep | hstep <;> exact hstep

end Taking

/-- Settles O24: the words presented are cut and decoded to the command by `decode_encode`. -/
theorem stepRunsDecodedCommand : Obligations.StepRunsDecodedCommand := by
  intro i s rest hreset hseq hw hcmd
  obtain ⟨h, payload, hencode, hlength, hdecode⟩ := decode_encode hw
  rw [hencode] at hcmd
  have hfetch := fetchCommand_presented hcmd hlength
  refine ⟨h, payload, hencode, fun hgrain => ?_, fun hgrain => ?_⟩
  · exact (step_command_presented hgrain hreset hseq hfetch).trans (runWhole_legal hdecode)
  · rw [step_event_presented hgrain hreset hseq hfetch, handOver_of_decode hdecode]
    rfl

/-- Settles O25: the joined step by `runWhole_illegal`, the single ones by the hand-over and `step_of_illegal_held`. -/
theorem illegalCommandIsAnswered : Obligations.IllegalCommandIsAnswered := by
  refine ⟨fun s h payload rest why hreset hseq hcmd hlength hdecode => ?_,
    fun s why hreset hseq => step_of_illegal_held hreset hseq⟩
  have hfetch := fetchCommand_presented hcmd hlength
  refine ⟨fun hgrain => ?_, fun hgrain => ?_⟩
  · rw [step_command_presented hgrain hreset hseq hfetch, runWhole_illegal hdecode]
    simp [raise, respond, State.take, hseq]
  · rw [step_event_presented hgrain hreset hseq hfetch, handOver_of_decode hdecode]
    rfl

section Waiting

variable {s : State} {f : InFlight}

/-- A call that is not answered is waited for, whatever the grain (R27). -/
theorem step_of_unanswered {cs : List Call} {reply : Reply} {c : Call} (hserving : Serving cs reply f s)
    (hcall : cs[f.done]? = some c) (hout : f.outstanding = true) (hans : s.ansIn = []) : step s = .next s := by
  rcases step_of_held hserving.noReset hserving.held with hstep | hstep
  · have hadvance : advance s = resumeOnce f s := nextStep_of_held hserving.noReset hserving.held
    rw [hstep, ← hadvance, hserving.advance_eq, serveOnce_waits hcall hout hans]
  · obtain ⟨hlt, hget⟩ := List.getElem?_eq_some_iff.mp hcall
    rw [hstep, hserving.resume_eq, List.drop_eq_getElem_cons hlt, serve_waits hans, hout]
    rfl

theorem runOver_iff : runOver s = true ↔ s.seq = none ∧ s.cmdIn = [] := by
  simp [runOver]

end Waiting

/-- Settles O26: an idle instance has no command to take, one in flight has, by the protocol, a call outstanding. -/
theorem instanceWaits : Obligations.InstanceWaits := by
  refine ⟨fun s => step_of_nothing_presented, fun s f hreset hseq hs hout hans => ?_, fun s hreset hover => ?_⟩
  · obtain ⟨phase, _, hphase⟩ := (followsProtocol_iff_of_held hseq).mp hs
    obtain ⟨hfailed, cs, reply, c, hplan, hcall, _⟩ := inPhase_of_outstanding hphase hout
    have hserving : Serving cs reply f s := ⟨hreset, hseq, hfailed, hplan⟩
    exact ⟨step_of_unanswered hserving hcall hout hans, by simp [runOver, hseq]⟩
  · obtain ⟨hseq, hcmd⟩ := runOver_iff.mp hover
    exact step_of_nothing_presented hreset hseq (by rw [hcmd, fetchCommand])

/-- From `s` to `t` no command is taken: the words presented stay, and none of the events recorded is a hand-over. -/
def TakesNoCommand (s t : State) : Prop :=
  t.cmdIn = s.cmdIn ∧ ∃ es, t.trace = s.trace ++ es ∧ ∀ h payload, Event.taken h payload ∉ es

section TakesNone

variable {s t u : State} {f : InFlight}

theorem takesNoCommand_refl (s : State) : TakesNoCommand s s :=
  ⟨rfl, [], (List.append_nil _).symm, by simp⟩

theorem takesNoCommand_trans (hst : TakesNoCommand s t) (htu : TakesNoCommand t u) : TakesNoCommand s u := by
  obtain ⟨hcmd, es, htrace, hnone⟩ := hst
  obtain ⟨hcmd', es', htrace', hnone'⟩ := htu
  refine ⟨hcmd'.trans hcmd, es ++ es', by rw [htrace', htrace, List.append_assoc], fun h payload hmem => ?_⟩
  rcases List.mem_append.mp hmem with hmem | hmem
  · exact hnone h payload hmem
  · exact hnone' h payload hmem

theorem takesNoCommand_of_event {e : Event} (hcmd : t.cmdIn = s.cmdIn) (htrace : t.trace = s.trace ++ [e])
    (he : ∀ h payload, Event.taken h payload ≠ e) : TakesNoCommand s t :=
  ⟨hcmd, [e], htrace, fun h payload hmem => he h payload (List.mem_singleton.mp hmem)⟩

theorem takesNoCommand_respond (e : Status) (k : Nat) (payload : Payload) (s : State) :
    TakesNoCommand s (respond e k payload s) :=
  takesNoCommand_of_event rfl rfl (by simp)

theorem takesNoCommand_withOutstanding (d : Decoded) (out : Bool) (c : Call) (k : Nat) (v : Values) (s : State) :
    TakesNoCommand s (withOutstanding d out c k v s) := by
  cases out with
  | false => exact takesNoCommand_of_event rfl rfl (by simp)
  | true => exact takesNoCommand_refl s

theorem takesNoCommand_receive (a : Answer) (rest : List Answer) (s : State) : TakesNoCommand s (receive a rest s) :=
  takesNoCommand_of_event rfl rfl (by simp)

theorem takesNoCommand_serve {d : Decoded} {reply : Reply} (cs : List Call) :
    ∀ (out : Bool) (k : Nat) (v : Values) (s : State), TakesNoCommand s (serve d reply out cs k v s) := by
  induction cs with
  | nil =>
    intro out k v s
    rw [serve_nil]
    exact takesNoCommand_respond ..
  | cons c cs ih =>
    intro out k v s
    have hcalled := takesNoCommand_withOutstanding d out c k v s
    cases hans : s.ansIn with
    | nil =>
      rw [serve_waits hans]
      exact hcalled
    | cons a rest =>
      have hanswered := takesNoCommand_trans hcalled (takesNoCommand_receive a rest _)
      cases haccept : accept c a with
      | none =>
        rw [serve_fails hans haccept]
        exact takesNoCommand_trans hanswered (takesNoCommand_respond ..)
      | some w =>
        rw [serve_goes_on hans haccept]
        exact takesNoCommand_trans hanswered (ih ..)

theorem takesNoCommand_resume (hnext : resume f s = .next t) : TakesNoCommand s t := by
  rcases followPlan_next hnext with
    ⟨_, rfl⟩ | ⟨_, ⟨e, _, rfl⟩ | ⟨b, _, rfl⟩ | ⟨cs, reply, _, rfl⟩⟩
  · exact takesNoCommand_respond ..
  · exact takesNoCommand_respond ..
  · exact takesNoCommand_of_event rfl rfl (by simp)
  · exact takesNoCommand_serve ..

/-- A single step takes a command only from an idle instance. -/
theorem takesNoCommand_of_singleStep (hreset : s.resetIn = none) (hseq : s.seq = some f) (hstep : SingleStep s t) :
    TakesNoCommand s t := by
  cases hstep with
  | reset r hpending => rw [hreset] at hpending; cases hpending
  | taken h payload rest hidle => rw [hseq] at hidle; cases hidle
  | waits => exact takesNoCommand_refl s
  | failureDelivered | operandError | tagWritten | completed | issued | answered =>
    exact takesNoCommand_of_event rfl rfl (by simp)

end TakesNone

/-- Settles O27: neither the single nor the joined step of a command in flight takes another. -/
theorem commandInFlightHoldsOffTheNext : Obligations.CommandInFlightHoldsOffTheNext := by
  intro s t f hreset hseq hnext
  have htakes : TakesNoCommand s t := by
    rcases step_of_held hreset hseq with hstep | hstep
    · exact takesNoCommand_of_singleStep hreset hseq (singleStep_of_resumeOnce hseq (hstep ▸ hnext))
    · exact takesNoCommand_resume (hstep ▸ hnext)
  obtain ⟨hcmd, es, htrace, hnone⟩ := htakes
  exact ⟨hcmd, by rwa [eventsSince_of_append htrace]⟩

end Sys2Proof.Machine
end

section
/-! The address mapper on a channel base (R30, R31). -/

namespace Sys2Proof.Machine

/-- The mapper adds as the specification does, in the natural numbers, whatever the offset. -/
theorem mapAddr_addr (base : ChannelBase) (offset : Nat) : mapAddr base.addr offset = addressAt base offset :=
  (BitVec.ofNat_add base.val offset).symm

/-- The mapper of offset 0 is the base. -/
theorem mapAddr_zero (base : Addr) : mapAddr base 0 = base := BitVec.add_zero base

/-- Settles O3: with an offset of at most 7 the mapped address is a sum in the natural numbers, which cancels. -/
theorem mapperInjectiveWithoutWrap : Obligations.MapperInjectiveWithoutWrap := by
  intro base k m hk hm
  refine ⟨mapAddr_addr base k, by omega, fun hsame => ?_⟩
  have hsum : base.val + k = base.val + m := by rw [← mapAddr_toNat base hk, ← mapAddr_toNat base hm, hsame]
  exact Nat.add_left_cancel hsum

end Sys2Proof.Machine
end

section
/-! The shared line (R35, R41, R114): an event adds to one instance's record, and the calls among what it adds to the
line. -/

namespace Sys2Proof.Machine

theorem callsIn_append (es later : List Event) : callsIn (es ++ later) = callsIn es ++ callsIn later := by
  induction es with
  | nil => rfl
  | cons e es ih => cases e <;> simp [callsIn, ih]

/-- Where a record only grows, its calls are those before and the new ones. -/
theorem callsIn_trace_of_prefix {s t : State} (hprefix : s.trace <+: t.trace) :
    callsIn t.trace = callsIn s.trace ++ callsIn (eventsSince s t) := by
  obtain ⟨es, htrace⟩ := hprefix
  rw [eventsSince_of_append htrace.symm, ← htrace, callsIn_append]

theorem trace_prefix_of_singleStep {s t : State} (hstep : SingleStep s t) : s.trace <+: t.trace := by
  rcases trace_of_singleStep hstep with hnothing | ⟨e, hevent⟩
  · rw [hnothing]
  · rw [hevent]
    exact List.prefix_append ..

theorem eq_next_of_keep {o : Host.Outcome State Fault Refusal} {t : State} (hnext : keep o = .next (some t)) :
    o = .next t := by
  cases o with
  | next u =>
    cases hnext
    rfl
  | fault r => cases r
  | refused r => cases hnext

/-- An answer is recorded by the instance whose call it answers, and by no other (R27). -/
theorem trace_prefix_of_answerOutstanding {a : Answer} {s t : State} (hnext : answerOutstanding a s = .next t) :
    s.trace <+: t.trace := by
  unfold answerOutstanding at hnext
  split at hnext
  next f hseq =>
    split at hnext
    · exact trace_prefix_of_singleStep (s := { s with ansIn := a :: s.ansIn })
        (singleStep_of_resumeOnce hseq hnext)
    · cases hnext
      exact List.prefix_rfl
  next =>
    cases hnext
    exact List.prefix_rfl

/-- Whatever happens to an instance, what it has recorded stays. -/
theorem trace_prefix_of_stimulate {e : Stimulus} {s t : State} (hnext : stimulate e s = .next (some t)) :
    s.trace <+: t.trace := by
  cases e with
  | present k words =>
    cases hnext
    exact List.prefix_rfl
  | run k => exact trace_prefix_of_singleStep (singleStep_of_advance (eq_next_of_keep hnext))
  | answer k a => exact trace_prefix_of_answerOutstanding (eq_next_of_keep hnext)
  | reset k given =>
    obtain ⟨_, rfl⟩ := resetInstance_next (eq_next_of_keep hnext)
    exact List.prefix_append ..
  | discard k =>
    simp only [stimulate] at hnext
    split at hnext
    · cases hnext
    · cases hnext
      exact List.prefix_rfl

/-- Everything an event can do to the system: nothing, or it makes `t` of the instance it concerns, and the calls issued
on the way go onto the line. -/
theorem applyStimulus_next {e : Stimulus} {y z : System} (hnext : applyStimulus e y = .next z) :
    z = y ∨ ∃ s t, y.instances[stimulusTarget e]? = some (some s) ∧ stimulate e s = .next t ∧
      z = ⟨y.instances.set (stimulusTarget e) t,
        y.line ++ (newCalls s t).map (fun c => (stimulusTarget e, c))⟩ := by
  simp only [applyStimulus] at hnext
  split at hnext
  next s hs =>
    split at hnext
    next t ht =>
      cases hnext
      exact .inr ⟨s, t, hs, ht, rfl⟩
    next r _ => cases r
    next => cases hnext
  next =>
    cases hnext
    exact .inl rfl

/-- Calls put onto the line by the instance `k` are at the end of its own order. -/
theorem lineOf_append_same (k : Nat) (instances later : List (Option State)) (line : List (Nat × Call))
    (cs : List Call) : lineOf k ⟨later, line ++ cs.map (fun c => (k, c))⟩ = lineOf k ⟨instances, line⟩ ++ cs := by
  simp [lineOf, List.filter_map, Function.comp_def]

/-- Calls put onto the line by another instance are not in the order of `k`. -/
theorem lineOf_append_other {k j : Nat} (hne : j ≠ k) (instances later : List (Option State))
    (line : List (Nat × Call)) (cs : List Call) :
    lineOf k ⟨later, line ++ cs.map (fun c => (j, c))⟩ = lineOf k ⟨instances, line⟩ := by
  simp [lineOf, List.filter_map, Function.comp_def, hne]

/-- Every event keeps every instance's order on the line. -/
theorem lineKeepsOrder_of_applyStimulus {e : Stimulus} {y z : System} (hy : y.lineKeepsOrder)
    (hnext : applyStimulus e y = .next z) : z.lineKeepsOrder := by
  rcases applyStimulus_next hnext with rfl | ⟨s, t, hs, ht, rfl⟩
  · exact hy
  · intro k u hu
    by_cases hk : stimulusTarget e = k
    · subst hk
      obtain ⟨hlt, _⟩ := List.getElem?_eq_some_iff.mp hs
      rw [List.getElem?_set_self hlt] at hu
      cases hu
      rw [lineOf_append_same _ y.instances, hy _ s hs]
      exact (callsIn_trace_of_prefix (trace_prefix_of_stimulate ht)).symm
    · rw [List.getElem?_set_ne hk] at hu
      rw [lineOf_append_other hk y.instances]
      exact hy k u hu

/-- Instances after reset have issued nothing, and an untouched line holds nothing. -/
theorem lineKeepsOrder_reset (n : Nat) : (⟨List.replicate n (some State.reset), []⟩ : System).lineKeepsOrder := by
  intro k s hs
  obtain ⟨hlt, hreset⟩ := List.getElem?_eq_some_iff.mp hs
  rw [List.getElem_replicate] at hreset
  cases hreset
  rfl

/-- Settles O59: an invariant of every event that holds after reset. -/
theorem sharedLineKeepsEveryOrder : Obligations.SharedLineKeepsEveryOrder :=
  ⟨fun _ _ _ => lineKeepsOrder_of_applyStimulus, lineKeepsOrder_reset⟩

end Sys2Proof.Machine
end

section
/-! What a command records from the moment it is taken (R35, R57, R105, R116): the automaton of the protocol goes with
the serving of its calls, one call and one answer at a time. -/

namespace Sys2Proof.Machine

/-- The events `es`, recorded after `k` calls were completed, lead where SEQ says: to the end of the command, or to the
phase in which the call SEQ records is outstanding. -/
inductive RecordsFrom (d : Decoded) (k : Nat) (es : List Event) : Option InFlight → Prop
  | ends (hphase : phaseAfter (.running k) es = some .idle) : RecordsFrom d k es none
  | waits (n : Nat) (v : Values) (c : Call) (hphase : phaseAfter (.running k) es = some (.waiting n c)) :
      RecordsFrom d k es (some ⟨d, n, v, true, false⟩)

theorem phaseAfter_cons {p q : Phase} {e : Event} (hstep : phaseStep p e = some q) (es : List Event) :
    phaseAfter p (e :: es) = phaseAfter q es := by
  simp [phaseAfter, hstep]

theorem phaseStep_call (k : Nat) (c : Call) : phaseStep (.running k) (.call c) = some (.waiting k c) := rfl

section RecordsFrom

variable {d : Decoded} {k : Nat} {q : Option InFlight}

/-- One response the automaton allows ends the command. -/
theorem recordsFrom_response {r : Response} (hstep : phaseStep (.running k) (.response r) = some .idle) :
    RecordsFrom d k [.response r] none :=
  .ends (phaseAfter_cons hstep [])

/-- A call with a good answer brings the automaton to the phase with one more call completed. -/
theorem recordsFrom_completed {es : List Event} {c : Call} {a : Answer} {w : Values} (haccept : accept c a = some w)
    (hlater : RecordsFrom d (k + 1) es q) : RecordsFrom d k (.call c :: .answer a :: es) q := by
  have hphase : phaseAfter (.running k) (.call c :: .answer a :: es) = phaseAfter (.running (k + 1)) es := by
    rw [phaseAfter_cons (phaseStep_call k c), phaseAfter_cons (phaseStep_answer_accepted haccept)]
  cases hlater with
  | ends hends => exact .ends (hphase.trans hends)
  | waits n v c' hwaits => exact .waits n v c' (hphase.trans hwaits)

/-- A call that fails is followed by the one TransportFailure (R105). -/
theorem recordsFrom_failed {c : Call} {a : Answer} (haccept : accept c a = none) :
    RecordsFrom d k [.call c, .answer a, .response ⟨.transportFailure, k, .none⟩] none :=
  .ends (by
    rw [phaseAfter_cons (phaseStep_call k c), phaseAfter_cons (phaseStep_answer_failed haccept),
      phaseAfter_cons (phaseStep_response_failed k), phaseAfter])

end RecordsFrom

/-- A call issued and its answer are the two events recorded on the way. -/
theorem receive_issue_trace (d : Decoded) (c : Call) (k : Nat) (v : Values) (a : Answer) (rest : List Answer)
    (s : State) :
    (receive a rest (withOutstanding d false c k v s)).trace = s.trace ++ [.call c, .answer a] :=
  List.append_assoc ..

theorem recordsFrom_serve {d : Decoded} {reply : Reply} (cs : List Call) : ∀ (k : Nat) (v : Values) (s : State),
    ∃ es, (serve d reply false cs k v s).trace = s.trace ++ es ∧
      RecordsFrom d k es (serve d reply false cs k v s).seq := by
  induction cs with
  | nil =>
    intro k v s
    rw [serve_nil]
    exact ⟨_, rfl, recordsFrom_response (phaseStep_response_ok ..)⟩
  | cons c cs ih =>
    intro k v s
    cases hans : s.ansIn with
    | nil =>
      rw [serve_waits hans]
      exact ⟨[.call c], rfl, .waits k v c rfl⟩
    | cons a rest =>
      cases haccept : accept c a with
      | none =>
        rw [serve_fails hans haccept]
        exact ⟨_, by rw [raise_trace, receive_issue_trace, List.append_assoc]; rfl, recordsFrom_failed haccept⟩
      | some w =>
        rw [serve_goes_on hans haccept]
        obtain ⟨es, htrace, hlater⟩ :=
          ih (k + 1) (appendValues v w) (receive a rest (withOutstanding d false c k v s))
        exact ⟨_, by rw [htrace, receive_issue_trace, List.append_assoc]; rfl, recordsFrom_completed haccept hlater⟩

/-- What `exec` records of a command leads where SEQ then says. -/
theorem recordsFrom_exec {i : Instr} {s t : State} (hnext : exec i s = .next t) :
    ∃ es, t.trace = s.trace ++ es ∧ RecordsFrom (.legal i) 0 es t.seq := by
  rw [exec_eq_startCommand, startCommand] at hnext
  rcases followPlan_next hnext with
    ⟨hfailed, _⟩ | ⟨_, ⟨e, hplan, rfl⟩ | ⟨b, _, rfl⟩ | ⟨cs, reply, _, rfl⟩⟩
  · cases hfailed
  · have he : isValidationError e = true := planOfHeld_raise (d := .legal i) hplan
    exact ⟨_, rfl, recordsFrom_response (phaseStep_response_validationError he)⟩
  · exact ⟨_, rfl, recordsFrom_response (phaseStep_response_ok 0 .none)⟩
  · exact recordsFrom_serve cs 0 noValues s

/-- Settles O31: `recordsFrom_exec`, read in the two cases of SEQ. -/
theorem execFollowsProtocol : Obligations.ExecFollowsProtocol := by
  intro i s t hnext
  obtain ⟨es, htrace, hrecords⟩ := recordsFrom_exec hnext
  refine ⟨es, htrace, ?_⟩
  generalize t.seq = q at hrecords
  cases hrecords with
  | ends hphase => exact hphase
  | waits n v c hphase => exact ⟨rfl, rfl, rfl, c, hphase⟩

end Sys2Proof.Machine
end

section
/-! The calls a step issues are calls of its command's plan (R17, R35), and what the calls of a plan are: their tag (R25)
and their row of the table (R23). -/

namespace Sys2Proof.Machine

/-- The calls of a plan. -/
def plannedCalls : Plan → List Call
  | .raise _ => []
  | .refuse _ => []
  | .setTag _ => []
  | .calls cs _ => cs

/-- From `s` to `t` the record grows, and every call it then has besides is a `P`. -/
def IssuesOnly (P : Call → Prop) (s t : State) : Prop :=
  ∃ es, t.trace = s.trace ++ es ∧ ∀ c ∈ callsIn es, P c

section IssuesOnly

variable {P Q : Call → Prop} {s t u : State}

theorem issuesOnly_refl (s : State) : IssuesOnly P s s :=
  ⟨[], (List.append_nil _).symm, by simp [callsIn]⟩

theorem issuesOnly_trans (hst : IssuesOnly P s t) (htu : IssuesOnly P t u) : IssuesOnly P s u := by
  obtain ⟨es, htrace, hes⟩ := hst
  obtain ⟨later, htrace', hlater⟩ := htu
  refine ⟨es ++ later, by rw [htrace', htrace, List.append_assoc], fun c hc => ?_⟩
  rw [callsIn_append, List.mem_append] at hc
  exact hc.elim (hes c) (hlater c)

theorem issuesOnly_mono (hst : IssuesOnly P s t) (hPQ : ∀ c, P c → Q c) : IssuesOnly Q s t := by
  obtain ⟨es, htrace, hes⟩ := hst
  exact ⟨es, htrace, fun c hc => hPQ c (hes c hc)⟩

/-- An event that is no call issues none. -/
theorem issuesOnly_of_event {e : Event} (htrace : t.trace = s.trace ++ [e]) (he : callsIn [e] = []) :
    IssuesOnly P s t :=
  ⟨[e], htrace, by simp [he]⟩

theorem issuesOnly_of_call {c : Call} (htrace : t.trace = s.trace ++ [.call c]) (hc : P c) : IssuesOnly P s t :=
  ⟨[.call c], htrace, by simpa [callsIn] using hc⟩

theorem of_mem_eventsSince {c : Call} (hst : IssuesOnly P s t) (hc : c ∈ callsIn (eventsSince s t)) : P c := by
  obtain ⟨es, htrace, hes⟩ := hst
  rw [eventsSince_of_append htrace] at hc
  exact hes c hc

theorem issuesOnly_withOutstanding {c : Call} (d : Decoded) (out : Bool) (k : Nat) (v : Values) (s : State)
    (hc : P c) : IssuesOnly P s (withOutstanding d out c k v s) := by
  cases out with
  | false => exact issuesOnly_of_call rfl hc
  | true => exact issuesOnly_refl s

theorem issuesOnly_receive (a : Answer) (rest : List Answer) (s : State) : IssuesOnly P s (receive a rest s) :=
  issuesOnly_of_event rfl rfl

theorem issuesOnly_respond (e : Status) (k : Nat) (payload : Payload) (s : State) :
    IssuesOnly P s (respond e k payload s) :=
  issuesOnly_of_event rfl rfl

theorem issuesOnly_serve {d : Decoded} {reply : Reply} (cs : List Call) (hcs : ∀ c ∈ cs, P c) :
    ∀ (out : Bool) (k : Nat) (v : Values) (s : State), IssuesOnly P s (serve d reply out cs k v s) := by
  induction cs with
  | nil =>
    intro out k v s
    rw [serve_nil]
    exact issuesOnly_respond ..
  | cons c cs ih =>
    intro out k v s
    obtain ⟨hc, hlater⟩ := List.forall_mem_cons.mp hcs
    have hissued := issuesOnly_withOutstanding d out k v s hc
    cases hans : s.ansIn with
    | nil =>
      rw [serve_waits hans]
      exact hissued
    | cons a rest =>
      have hanswered := issuesOnly_trans hissued (issuesOnly_receive a rest _)
      cases haccept : accept c a with
      | none =>
        rw [serve_fails hans haccept]
        exact issuesOnly_trans hanswered (issuesOnly_respond ..)
      | some w =>
        rw [serve_goes_on hans haccept]
        exact issuesOnly_trans hanswered (ih hlater ..)

end IssuesOnly

section Issued

variable {s t : State}

/-- A command carried on issues calls of its plan alone. -/
theorem issuesOnly_proceed {p : Plan} {f : InFlight} (hnext : proceed p f s = .next t) :
    IssuesOnly (· ∈ plannedCalls p) s t := by
  rcases followPlan_next hnext with
    ⟨_, rfl⟩ | ⟨_, ⟨e, _, rfl⟩ | ⟨b, _, rfl⟩ | ⟨cs, reply, rfl, rfl⟩⟩
  · exact issuesOnly_respond ..
  · exact issuesOnly_respond ..
  · exact issuesOnly_of_event rfl rfl
  · exact issuesOnly_serve _ (fun _ => List.mem_of_mem_drop) ..

theorem issuesOnly_exec {i : Instr} (hnext : exec i s = .next t) :
    IssuesOnly (· ∈ plannedCalls (planOf i s)) s t := by
  rw [exec_eq_startCommand, startCommand] at hnext
  exact issuesOnly_proceed hnext

/-- The call is one of the plan of some command in the state `s`. -/
def PlannedIn (s : State) (c : Call) : Prop := ∃ i, c ∈ plannedCalls (planOf i s)

/-- Words that are no command have no calls. -/
theorem plannedIn_of_held {d : Decoded} {c : Call} (hc : c ∈ plannedCalls (planOfHeld d s)) : PlannedIn s c := by
  cases d with
  | legal i => exact ⟨i, hc⟩
  | illegal why => cases hc

/-- A single step issues a call only where SEQ holds a command that plans it. -/
theorem issuesOnly_of_singleStep (hstep : SingleStep s t) : IssuesOnly (PlannedIn s) s t := by
  cases hstep with
  | waits => exact issuesOnly_refl s
  | issued f cs reply c hseq hfailed hplan hcall =>
    refine issuesOnly_of_call rfl (plannedIn_of_held (d := f.cmd) ?_)
    rw [hplan]
    exact List.mem_of_getElem? hcall
  | reset | taken | failureDelivered | operandError | tagWritten | completed | answered =>
    exact issuesOnly_of_event rfl rfl

/-- A command taken and carried on plans its calls as in the state it was taken from. -/
theorem issuesOnly_runWhole {h : Word} {payload rest : List Word} (hnext : runWhole h payload rest s = .next t) :
    IssuesOnly (PlannedIn s) s t := by
  rw [runWhole_eq_resume_handOver] at hnext
  have htaken : IssuesOnly (PlannedIn s) s (handOver h payload rest s) := issuesOnly_of_event rfl rfl
  refine issuesOnly_trans htaken (issuesOnly_mono (issuesOnly_proceed hnext) fun c hc => ?_)
  rw [planOfHeld_congr (handOver_built ..) (handOver_tag ..)] at hc
  exact plannedIn_of_held hc

/-- Everything a step can be: a single step of R21, or a command in flight or just taken carried on as far as the
answers reach. -/
theorem step_next (hnext : step s = .next t) :
    SingleStep s t ∨ (∃ f, resume f s = .next t) ∨ ∃ h payload rest, runWhole h payload rest s = .next t := by
  cases hgrain : s.grain with
  | event =>
    rw [step_of_event hgrain] at hnext
    exact .inl (singleStep_of_advance hnext)
  | command =>
    rw [step_of_command hgrain, advanceWhole] at hnext
    cases hreset : s.resetIn with
    | some r =>
      rw [nextStep_of_reset hreset] at hnext
      obtain ⟨haddress, rfl⟩ := resetInstance_next hnext
      exact .inl (.reset r hreset haddress)
    | none =>
      cases hseq : s.seq with
      | some f =>
        rw [nextStep_of_held hreset hseq] at hnext
        exact .inr (.inl ⟨f, hnext⟩)
      | none =>
        cases hfetch : fetchCommand s.built.num s.cmdIn with
        | none =>
          rw [nextStep_of_nothing_presented hreset hseq hfetch] at hnext
          cases hnext
          exact .inl .waits
        | some cut =>
          obtain ⟨h, payload, rest⟩ := cut
          rw [nextStep_of_presented hreset hseq hfetch] at hnext
          exact .inr (.inr ⟨h, payload, rest, hnext⟩)

/-- Every call a step issues is planned by some command, in the state before the step. -/
theorem issuesOnly_step (hnext : step s = .next t) : IssuesOnly (PlannedIn s) s t := by
  rcases step_next hnext with hsingle | ⟨f, hresume⟩ | ⟨h, payload, rest, hwhole⟩
  · exact issuesOnly_of_singleStep hsingle
  · exact issuesOnly_mono (issuesOnly_proceed hresume) fun _ => plannedIn_of_held
  · exact issuesOnly_runWhole hwhole

/-- A single step that writes TAG is a reset or the end of a SETTAG, and leaves the instance idle. -/
theorem tag_eq_of_singleStep_in_flight (hstep : SingleStep s t) (hseq : t.seq ≠ none) : t.tag = s.tag := by
  cases hstep with
  | reset | tagWritten => exact absurd rfl hseq
  | waits | taken | failureDelivered | operandError | completed | issued | answered => rfl

/-- A step after which a command is in flight has not written TAG. -/
theorem tag_eq_of_step_in_flight (hnext : step s = .next t) (hseq : t.seq ≠ none) : t.tag = s.tag := by
  by_contra htag
  rcases step_next hnext with hsingle | ⟨f, hresume⟩ | ⟨h, payload, rest, hwhole⟩
  · exact htag (tag_eq_of_singleStep_in_flight hsingle hseq)
  · obtain ⟨_, _, _, _, hidle⟩ := resume_tag hresume htag
    exact hseq hidle
  · obtain ⟨_, _, _, hidle⟩ := settag_taken_of_tag_changed hwhole htag
    exact hseq hidle

end Issued

section Planned

variable {c : Call} {p : Plan} {s : State}

theorem mem_plannedCalls_oneCall {d : Call} {reply : Reply} : c ∈ plannedCalls (oneCall d reply) ↔ c = d :=
  List.mem_singleton

theorem mem_plannedCalls_of_withChannel {channel : Byte} (hc : c ∈ plannedCalls (withChannel channel p)) :
    c ∈ plannedCalls p := by
  unfold withChannel at hc
  split at hc
  · exact hc
  · cases hc

theorem mem_plannedCalls_of_withBatch {start : Byte} {n : Nat} (hc : c ∈ plannedCalls (withBatch start n p)) :
    c ∈ plannedCalls p := by
  unfold withBatch at hc
  split at hc
  · exact hc
  · cases hc

/-- A batch writes one coil for each of its elements, at consecutive numbers (R80, R87). -/
theorem mem_batchWrites {base : ChannelBase} {actions : List Action} :
    ∀ {offset : Nat}, c ∈ batchWrites base.addr s offset actions →
      ∃ k v, k < actions.length ∧ c = .writeCoil (addressAt base (offset + k)) v s.tag := by
  induction actions with
  | nil =>
    intro offset hc
    cases hc
  | cons a as ih =>
    intro offset hc
    rcases List.mem_cons.mp hc with rfl | hlater
    · exact ⟨0, actionPattern a, Nat.succ_pos _, by rw [memWriteCoil, mapAddr_addr, Nat.add_zero]⟩
    · obtain ⟨k, v, hk, rfl⟩ := ih hlater
      exact ⟨k + 1, v, Nat.succ_lt_succ hk, by rw [Nat.add_assoc, Nat.add_comm 1 k]⟩

/-- The call carries the tag `t`, or is the one kind that carries none (R25). -/
def CarriesTag (t : Byte) (c : Call) : Prop := c = .connect ∨ callTag c = some t

/-- Every call of a plan is in its command's row of the table and carries TAG (R23, R25), one case for each command. -/
theorem allowedCall_and_carriesTag_of_planned {i : Instr} (hc : c ∈ plannedCalls (planOf i s)) :
    allowedCall i s.built c ∧ CarriesTag s.tag c := by
  cases i with
  | connect =>
    obtain rfl := mem_plannedCalls_oneCall.mp hc
    exact ⟨rfl, .inl rfl⟩
  | settag tag =>
    simp only [planOf, planSettag] at hc
    split at hc <;> cases hc
  | setaddr address =>
    simp only [planOf, planSetaddr, mapAddr_zero] at hc
    split at hc
    · obtain rfl := mem_plannedCalls_oneCall.mp hc
      exact ⟨⟨_, _, rfl⟩, .inr rfl⟩
    · cases hc
  | setuart baud parity =>
    simp only [planOf, planSetuart, mapAddr_zero] at hc
    obtain rfl := mem_plannedCalls_oneCall.mp hc
    exact ⟨⟨_, _, rfl⟩, .inr rfl⟩
  | rdver =>
    simp only [planOf, planRdver, mapAddr_zero] at hc
    obtain rfl := mem_plannedCalls_oneCall.mp hc
    exact ⟨⟨_, rfl⟩, .inr rfl⟩
  | dioSetch | dioSetmode | rlySetch | rlyOpen | rlyClose | aiSettype =>
    simp only [planOf, planDioSetch, planDioSetmode, planRlySetch, planRlyOpen, planRlyClose, planAiSettype,
      mapAddr_addr] at hc
    obtain rfl := mem_plannedCalls_oneCall.mp (mem_plannedCalls_of_withChannel hc)
    exact ⟨⟨_, _, rfl⟩, .inr rfl⟩
  | aiRdch channel =>
    simp only [planOf, planAiRdch, mapAddr_addr] at hc
    obtain rfl := mem_plannedCalls_oneCall.mp (mem_plannedCalls_of_withChannel hc)
    exact ⟨⟨_, rfl⟩, .inr rfl⟩
  | aoSetch channel value =>
    simp only [planOf, planAoSetch, mapAddr_addr] at hc
    replace hc := mem_plannedCalls_of_withChannel hc
    split at hc
    · cases hc
    · obtain rfl := mem_plannedCalls_oneCall.mp hc
      exact ⟨⟨_, _, rfl⟩, .inr rfl⟩
  | dioSetchs | rlySetchs =>
    obtain ⟨k, v, hk, rfl⟩ := mem_batchWrites (mem_plannedCalls_of_withBatch hc)
    exact ⟨⟨k, v, _, hk, rfl⟩, .inr rfl⟩
  | dioRdchs | dioRdout | rlyRdchs | aiGettypes | aoGetvals =>
    simp only [planOf, planDioRdchs, planDioRdout, planRlyRdchs, planAiGettypes, planAoGetvals, mapAddr_addr] at hc
    obtain rfl := mem_plannedCalls_oneCall.mp hc
    exact ⟨⟨_, rfl⟩, .inr rfl⟩
  | aiSettypes types =>
    simp only [planOf, planAiSettypes, mapAddr_addr] at hc
    obtain rfl := mem_plannedCalls_oneCall.mp hc
    exact ⟨⟨_, _, rfl⟩, .inr rfl⟩
  | aiRdchs =>
    simp only [planOf, planAiRdchs, mapAddr_addr] at hc
    obtain ⟨k, hk, rfl⟩ := List.mem_map.mp hc
    exact ⟨⟨k, _, List.mem_range.mp hk, rfl⟩, .inr rfl⟩
  | aoSetchs values =>
    simp only [planOf, planAoSetchs, mapAddr_addr] at hc
    split at hc
    · cases hc
    · obtain rfl := mem_plannedCalls_oneCall.mp hc
      exact ⟨⟨_, _, rfl⟩, .inr rfl⟩

end Planned

/-- Settles O35: a call a step issues is planned, so carries TAG, and a step that writes TAG ends idle. -/
theorem callsCarryTheTag : Obligations.CallsCarryTheTag := by
  intro s t hnext
  refine ⟨fun c hc => ?_, tag_eq_of_step_in_flight hnext⟩
  obtain ⟨i, hplanned⟩ := of_mem_eventsSince (issuesOnly_step hnext) hc
  obtain ⟨_, htag⟩ := allowedCall_and_carriesTag_of_planned hplanned
  exact htag

/-- Settles O36: a call `exec` issues is planned, so in the row. -/
theorem callsStayInTheirTableRow : Obligations.CallsStayInTheirTableRow := by
  intro i s t hnext c hc
  obtain ⟨hrow, _⟩ := allowedCall_and_carriesTag_of_planned (of_mem_eventsSince (issuesOnly_exec hnext) hc)
  exact hrow

end Sys2Proof.Machine
end

section
/-! The spaces and the address space (R22, R24, R42): a call in a row of the table of R23 moves one unit, or eight from
the base of a channel bank. -/

namespace Sys2Proof.Machine

/-- Of the four spaces only COIL and HOLDING have a write call (R22, R26). -/
theorem callSpace_writable {c : Call} (hwrites : callWrites c = true) :
    ∃ sp, callSpace c = some sp ∧ spaceWritable sp = true := by
  cases c with
  | writeCoil | writeHolding | writeHoldings => exact ⟨_, rfl, rfl⟩
  | connect | readHoldings | readInputs | readCoils | readDiscretes => cases hwrites

theorem units_of_allowedCall {i : Instr} {b : Build} {c : Call} (hrow : allowedCall i b c) :
    c = .connect ∨ callUnits c = 1 ∨ callUnits c = 8 ∧ ∃ base : ChannelBase, callAddr c = some (addressAt base 0) := by
  cases i with
  | connect => exact .inl hrow
  | settag tag => exact hrow.elim
  | setaddr | setuart | dioSetch | dioSetmode | rlySetch | rlyOpen | rlyClose | aiSettype | aoSetch =>
    obtain ⟨v, t, rfl⟩ := hrow
    exact .inr (.inl rfl)
  | rdver | aiRdch =>
    obtain ⟨t, rfl⟩ := hrow
    exact .inr (.inl rfl)
  | dioSetchs | rlySetchs =>
    obtain ⟨k, v, t, _, rfl⟩ := hrow
    exact .inr (.inl rfl)
  | aiRdchs =>
    obtain ⟨k, t, _, rfl⟩ := hrow
    exact .inr (.inl rfl)
  | dioRdchs | dioRdout | rlyRdchs | aiGettypes | aoGetvals =>
    obtain ⟨t, rfl⟩ := hrow
    exact .inr (.inr ⟨rfl, _, rfl⟩)
  | aiSettypes | aoSetchs =>
    obtain ⟨v, t, rfl⟩ := hrow
    exact .inr (.inr ⟨rfl, _, rfl⟩)

/-- Eight units from a channel base end within the address space (R6, R31). -/
theorem addressAt_zero_add_eight (base : ChannelBase) : (addressAt base 0).toNat + 8 ≤ 0x10000 := by
  have hbase := base.isLt
  rw [← mapAddr_addr, mapAddr_toNat base (Nat.zero_le 7)]
  omega

/-- No call in a row of the table passes the end of the address space: one unit never does. -/
theorem address_add_units_le {i : Instr} {b : Build} {c : Call} {a : Addr} (hrow : allowedCall i b c)
    (haddr : callAddr c = some a) : a.toNat + callUnits c ≤ 0x10000 := by
  rcases units_of_allowedCall hrow with rfl | hone | ⟨height, base, hbase⟩
  · cases haddr
  · rw [hone]
    exact a.isLt
  · rw [hbase] at haddr
    cases haddr
    rw [height]
    exact addressAt_zero_add_eight base

/-- Settles O37: a call a step issues is planned, so in a row of the table. -/
theorem callsFitTheirSpaces : Obligations.CallsFitTheirSpaces := by
  intro s t hnext c hc
  obtain ⟨i, hplanned⟩ := of_mem_eventsSince (issuesOnly_step hnext) hc
  obtain ⟨hrow, _⟩ := allowedCall_and_carriesTag_of_planned hplanned
  refine ⟨?_, callSpace_writable, fun a => address_add_units_le hrow⟩
  rcases units_of_allowedCall hrow with hconnect | hone | ⟨height, _⟩
  · exact .inl hconnect
  · exact .inr (.inl hone)
  · exact .inr (.inr height)

end Sys2Proof.Machine
end

section
/-! `exec` of a command with an operand error and of a command of one call, by what the transport answers (R27, R104,
R105); DIO.SETMODE (R34, R81). -/

namespace Sys2Proof.Machine

section OneCall

variable {i : Instr} {s : State} {c : Call} {reply : Reply} {a : Answer} {rest : List Answer} {w : Values}

/-- A command whose operand check fails makes no call (R104). -/
theorem exec_of_raise {e : Status} (hplan : planOf i s = .raise e) :
    exec i s = .next (s.afterNoCall ⟨e, 0, .none⟩) := by
  rw [exec_eq_startCommand, hplan, startCommand_raise]
  rfl

theorem exec_of_calls {cs : List Call} (hplan : planOf i s = .calls cs reply) :
    exec i s = .next (serve (.legal i) reply false cs 0 noValues s) := by
  rw [exec_eq_startCommand, hplan, startCommand_calls]

theorem exec_oneCall_accepted (hplan : planOf i s = oneCall c reply) (hans : s.ansIn = a :: rest)
    (haccept : accept c a = some w) :
    exec i s = .next (s.afterCall c a rest ⟨.ok, 1, replyPayload (numOf s.built.num) reply w⟩) := by
  rw [exec_of_calls hplan, serve_goes_on hans haccept, serve_nil]
  simp [respond, receive, withOutstanding, issue, State.afterCall, appendValues, noValues]

theorem exec_oneCall_failed (hplan : planOf i s = oneCall c reply) (hans : s.ansIn = a :: rest)
    (haccept : accept c a = none) : exec i s = .next (s.afterCall c a rest ⟨.transportFailure, 0, .none⟩) := by
  rw [exec_of_calls hplan, serve_fails hans haccept]
  simp [raise, respond, receive, withOutstanding, issue, State.afterCall]

theorem exec_oneCall_waits (hplan : planOf i s = oneCall c reply) (hans : s.ansIn = []) :
    exec i s = .next (s.awaiting i c) := by
  rw [exec_of_calls hplan, serve_waits hans]
  rfl

theorem acceptDone_eq_none (ha : a ≠ .done) : acceptDone a = none := by
  cases a with
  | done => exact absurd rfl ha
  | bits | words | failure => rfl

/-- What a command of one call without a result does: OK when it is done, a TransportFailure on any other answer, in
flight without one. -/
theorem exec_oneCall_done (hplan : planOf i s = oneCall c .none) (hkind : ∀ a, accept c a = acceptDone a) :
    (∀ rest, s.ansIn = .done :: rest → exec i s = .next (s.afterCall c .done rest ⟨.ok, 1, .none⟩)) ∧
    (∀ a rest, s.ansIn = a :: rest → a ≠ .done →
      exec i s = .next (s.afterCall c a rest ⟨.transportFailure, 0, .none⟩)) ∧
    (s.ansIn = [] → exec i s = .next (s.awaiting i c)) :=
  ⟨fun _ hans => exec_oneCall_accepted hplan hans (hkind .done),
    fun a _ hans ha => exec_oneCall_failed hplan hans ((hkind a).trans (acceptDone_eq_none ha)),
    exec_oneCall_waits hplan⟩

end OneCall

/-- Settles O48: one HOLDING write, at the number of the output coil, when the channel check passes. -/
theorem dioSetmodeWritesHoldingAtCoilNumber : Obligations.DioSetmodeWritesHoldingAtCoilNumber := by
  rintro ch mode s c rfl
  refine ⟨fun hch => exec_oneCall_done ?_ fun _ => rfl, fun hch => exec_of_raise (withChannel_illegal hch _)⟩
  rw [planOf, planDioSetmode, withChannel_legal hch, mapAddr_addr, memWriteHolding, BitVec.ofNat_toNat]

end Sys2Proof.Machine
end

section
/-! DIO.SETCHS and RLY.SETCHS (R33, R35, R80, R87, R109): how a batch of coil writes is served. -/

namespace Sys2Proof.Machine

theorem withBatch_legal {start : Byte} {n : Nat} (h : ∀ k, k < n → start.toNat + k ≤ 7) (p : Plan) :
    withBatch start n p = p := by
  simp [withBatch, (batchOk_iff start n).mpr h]

theorem withBatch_illegal {start : Byte} {n : Nat} (h : ∃ k, k < n ∧ 7 < start.toNat + k) (p : Plan) :
    withBatch start n p = .raise .invalidChannel := by
  have hfails : ¬ batchOk start n = true := by
    rw [batchOk_iff]
    obtain ⟨k, hk, hbeyond⟩ := h
    exact fun hall => absurd (hall k hk) (Nat.not_le.mpr hbeyond)
  simp [withBatch, hfails]

section Batch

variable {base : ChannelBase} {tag : Byte} {start : Nat}

theorem coilEvents_nil : coilEvents base tag start [] = [] := rfl

theorem coilEvents_cons (x : Action) (xs : List Action) :
    coilEvents base tag start (x :: xs) =
      .call (.writeCoil (addressAt base start) (actionPattern x) tag) :: .answer .done ::
        coilEvents base tag (start + 1) xs := by
  rw [coilEvents, List.zipIdx_cons', List.flatMap_cons, List.flatMap_map]
  simp [coilEvents, Nat.add_assoc, Nat.add_comm 1]

theorem batchWrites_cons (s : State) (x : Action) (xs : List Action) :
    batchWrites base.addr s start (x :: xs) =
      .writeCoil (addressAt base start) (actionPattern x) s.tag :: batchWrites base.addr s (start + 1) xs := by
  rw [batchWrites, memWriteCoil, mapAddr_addr]

/-- The state in which some writes of a batch are done: their calls and answers are recorded, the answers `rest` are
still to come. -/
def State.afterWrites (s : State) (base : ChannelBase) (start : Nat) (written : List Action) (rest : List Answer) :
    State :=
  { s with ansIn := rest, trace := s.trace ++ coilEvents base s.tag start written }

/-- One write issued and answered, then the others. -/
theorem afterWrites_cons {d : Decoded} {k : Nat} {s : State} {x : Action} {xs : List Action}
    {answers rest : List Answer} (htag : tag = s.tag) :
    (receive .done answers (withOutstanding d false (.writeCoil (addressAt base start) (actionPattern x) tag) k
        noValues s)).afterWrites base (start + 1) xs rest =
      { s.afterWrites base start (x :: xs) rest with seq := some ⟨d, k, noValues, true, false⟩ } := by
  simp [State.afterWrites, receive, withOutstanding, issue, coilEvents_cons, htag]

/-- A batch is served element by element: with one done answer for each of the first elements, serving comes to the
elements after them. -/
theorem serve_batch_done {d : Decoded} (u : State) (later : List Action) (rest : List Answer)
    (written : List Action) : ∀ (start k : Nat) (s : State), u.tag = s.tag →
      s.ansIn = List.replicate written.length .done ++ rest →
      serve d .none false (batchWrites base.addr u start (written ++ later)) k noValues s =
        serve d .none false (batchWrites base.addr u (start + written.length) later) (k + written.length) noValues
          (s.afterWrites base start written rest) := by
  induction written with
  | nil =>
    intro start k s _ hans
    have hsame : s.afterWrites base start [] rest = s := by
      simp [State.afterWrites, coilEvents_nil, ← show s.ansIn = rest from hans]
    rw [hsame]
    rfl
  | cons x xs ih =>
    intro start k s htag hans
    rw [List.cons_append, batchWrites_cons, serve_goes_on (w := noValues) hans rfl]
    have hlater := ih (start + 1) (k + 1) (receive .done (List.replicate xs.length .done ++ rest)
      (withOutstanding d false (.writeCoil (addressAt base start) (actionPattern x) u.tag) k noValues s)) htag rfl
    rw [afterWrites_cons htag, Nat.add_assoc, Nat.add_assoc, Nat.add_comm 1] at hlater
    exact hlater.trans (serve_with_seq ..)

end Batch

/-- Both families plan a batch alike, each from its own base (R80, R87). -/
theorem planOf_batch {i : Instr} {start : Byte} {actions : List Action} {s : State} {base : ChannelBase}
    (hi : (i = .dioSetchs start actions ∧ base = s.built.dio.outputChannelBase) ∨
      (i = .rlySetchs start actions ∧ base = s.built.rly.outputChannelBase)) :
    planOf i s =
      withBatch start actions.length (.calls (batchWrites base.addr s start.toNat actions) .none) := by
  rcases hi with ⟨rfl, rfl⟩ | ⟨rfl, rfl⟩ <;> rfl

section Served

variable {i : Instr} {start : Nat} {actions : List Action} {s : State} {base : ChannelBase}

/-- With a done answer for every element the batch is OK. -/
theorem exec_batch_completed (hplan : planOf i s = .calls (batchWrites base.addr s start actions) .none)
    {rest : List Answer} (hans : s.ansIn = List.replicate actions.length .done ++ rest) :
    exec i s = .next { s with
      seq := none, ansIn := rest,
      trace := s.trace ++ coilEvents base s.tag start actions ++ [.response ⟨.ok, actions.length, .none⟩] } := by
  have hserved := serve_batch_done (d := .legal i) (base := base) s [] rest actions start 0 s rfl hans
  rw [List.append_nil, Nat.zero_add, batchWrites, serve_nil] at hserved
  rw [exec_of_calls hplan, hserved]
  rfl

/-- With `k` done answers serving comes to element `k`. -/
theorem exec_batch_reaches (hplan : planOf i s = .calls (batchWrites base.addr s start actions) .none) {k : Nat}
    {x : Action} {rest : List Answer} (hx : actions[k]? = some x) (hans : s.ansIn = List.replicate k .done ++ rest) :
    exec i s = .next (serve (.legal i) .none false
      (.writeCoil (addressAt base (start + k)) (actionPattern x) s.tag ::
        batchWrites base.addr s (start + k + 1) (actions.drop (k + 1)))
      k noValues (s.afterWrites base start (actions.take k) rest)) := by
  obtain ⟨hlt, hget⟩ := List.getElem?_eq_some_iff.mp hx
  have hlength : (actions.take k).length = k := List.length_take_of_le (Nat.le_of_lt hlt)
  have hsplit : actions.take k ++ x :: actions.drop (k + 1) = actions := by
    rw [← hget, ← List.drop_eq_getElem_cons hlt, List.take_append_drop]
  have hserved := serve_batch_done (d := .legal i) (base := base) s (x :: actions.drop (k + 1)) rest
    (actions.take k) start 0 s rfl (by rw [hlength, hans])
  rw [hsplit, hlength, Nat.zero_add, batchWrites_cons] at hserved
  rw [exec_of_calls hplan, hserved]

/-- A failure at element `k` leaves `k` completed calls and issues no other (R105, R109). -/
theorem exec_batch_failed (hplan : planOf i s = .calls (batchWrites base.addr s start actions) .none) {k : Nat}
    {x : Action} {a : Answer} {rest : List Answer} (hx : actions[k]? = some x) (ha : a ≠ .done)
    (hans : s.ansIn = List.replicate k .done ++ a :: rest) :
    exec i s = .next { s with
      seq := none, ansIn := rest,
      trace := s.trace ++ coilEvents base s.tag start (actions.take k) ++
        [.call (.writeCoil (addressAt base (start + k)) (actionPattern x) s.tag), .answer a,
         .response ⟨.transportFailure, k, .none⟩] } := by
  have hfails : accept (.writeCoil (addressAt base (start + k)) (actionPattern x) s.tag) a = none :=
    acceptDone_eq_none ha
  rw [exec_batch_reaches hplan hx hans, serve_fails rfl hfails]
  simp [raise, respond, receive, withOutstanding, issue, State.afterWrites]

/-- Without an answer to element `k` its call is outstanding (R27). -/
theorem exec_batch_waits (hplan : planOf i s = .calls (batchWrites base.addr s start actions) .none) {k : Nat}
    {x : Action} (hx : actions[k]? = some x) (hans : s.ansIn = List.replicate k .done) :
    exec i s = .next { s with
      seq := some ⟨.legal i, k, ⟨[], []⟩, true, false⟩, ansIn := [],
      trace := s.trace ++ coilEvents base s.tag start (actions.take k) ++
        [.call (.writeCoil (addressAt base (start + k)) (actionPattern x) s.tag)] } := by
  rw [exec_batch_reaches hplan hx (hans.trans (List.append_nil _).symm), serve_waits rfl]
  rfl

end Served

/-- Settles O51: the whole batch is checked first; a legal one is served in order by `serve_batch_done`. -/
theorem batchWritesInOrder : Obligations.BatchWritesInOrder := by
  intro start actions s i base hi
  refine ⟨fun hlegal => ?_, fun hbeyond => exec_of_raise ((planOf_batch hi).trans (withBatch_illegal hbeyond _))⟩
  have hplan := (planOf_batch hi).trans (withBatch_legal hlegal _)
  exact ⟨fun _ => exec_batch_completed hplan, fun _ _ _ _ => exec_batch_failed hplan,
    fun _ _ => exec_batch_waits hplan⟩

end Sys2Proof.Machine
end

section
/-! The facts a legal verdict rests on: FAM and OP of a row, the number of payload words of every header, and what the
reserved fields and the payload checks leave of a word (R46 to R53). -/

namespace Sys2Proof.Machine

/-- The column OP of R46. -/
def rowOp : Opcode → BitVec 6
  | .connect => 0x00
  | .settag => 0x01
  | .setaddr => 0x02
  | .setuart => 0x03
  | .rdver => 0x04
  | .dioSetch | .rlySetch | .aiSettype | .aoSetch => 0x10
  | .dioSetchs | .rlySetchs | .aiSettypes | .aoSetchs => 0x11
  | .dioSetmode | .aiGettypes | .aoGetvals => 0x12
  | .dioRdchs | .rlyRdchs | .aiRdch => 0x13
  | .dioRdout | .aiRdchs => 0x14
  | .rlyOpen => 0x15
  | .rlyClose => 0x16

/-- The column FAM of R46; none for the five common rows, which every FAM has (R44). -/
def rowFamily : Opcode → Option Family
  | .connect | .settag | .setaddr | .setuart | .rdver => none
  | .dioSetch | .dioSetchs | .dioSetmode | .dioRdchs | .dioRdout => some .dio
  | .rlySetch | .rlySetchs | .rlyRdchs | .rlyOpen | .rlyClose => some .rly
  | .aiSettype | .aiSettypes | .aiGettypes | .aiRdch | .aiRdchs => some .ai
  | .aoSetch | .aoSetchs | .aoGetvals => some .ao

/-- A header has a row iff its OP is the row's, and its FAM unless the row is common. -/
theorem opcodeOf_eq_some_iff {fam : Family} {op : BitVec 6} {r : Opcode} :
    opcodeOf fam op = some r ↔ op = rowOp r ∧ ∀ f ∈ rowFamily r, fam = f := by
  constructor
  · intro hrow
    unfold opcodeOf at hrow
    split at hrow <;> cases hrow <;> exact ⟨BitVec.eq_of_toNat_eq ‹_›, by simp [rowFamily]⟩
  · rintro ⟨rfl, hfam⟩
    cases r with
    | connect | settag | setaddr | setuart | rdver => cases fam <;> rfl
    | _ => rw [hfam _ rfl]; rfl

/-- The table of R48 in every NUM: FAM and OP choose the entry, and a batch has B[7:0] words. -/
theorem paylen_headerWord (num : Numerics) (h : Header) :
    paylen num (headerWord h) =
      if h.op = 0x11 ∧ (h.fam = .dio ∨ h.fam = .rly) then h.b.toNat % 256
      else if h.op = 0x11 ∧ h.fam = .ai then 8
      else if h.op = 0x10 ∧ h.fam = .ao then valueWords num
      else if h.op = 0x11 ∧ h.fam = .ao then 8 * valueWords num
      else 0 := by
  have hcount : (h.b.extractLsb' 0 8).toNat = h.b.toNat % 256 := by simp [BitVec.extractLsb'_toNat]
  simp only [paylen, headerOf_headerWord, BitVec.toNat_eq]
  split
  case h_6 hdio hrly hai haoOne haoAll => cases hfam : h.fam <;> simp_all
  all_goals simp_all

/-- Where a mask has ones, a field that is zero under it has zeros. -/
theorem getLsbD_of_masked {b m : Half} (hmasked : (b &&& m == 0) = true) {i : Nat} (hi : m.getLsbD i = true) :
    b.getLsbD i = false := by
  have hbit : (b &&& m).getLsbD i = (0 : Half).getLsbD i := by rw [eq_of_beq hmasked]
  rw [BitVec.getLsbD_and, hi, Bool.and_true] at hbit
  exact hbit.trans BitVec.getLsbD_zero

/-- With B[15:1] zero, B is the flag `on` of its bit 0. -/
theorem onField_of_reserved {b : Half} (hreserved : (b &&& 0xFFFE == 0) = true) : onField (b.getLsbD 0) = b := by
  have hmask : ∀ i < 16, i ≠ 0 → (0xFFFE : Half).getLsbD i = true := by decide
  have hflag : ∀ on, ∀ i < 16, i ≠ 0 → (onField on).getLsbD i = false := by decide
  refine BitVec.eq_of_getLsbD_eq fun i hi => ?_
  by_cases hzero : i = 0
  · rw [hzero, onField_getLsbD]
  · rw [hflag _ i hi hzero, getLsbD_of_masked hreserved (hmask i hi hzero)]

/-- With B[15:8] zero, B is the element count B[7:0]. -/
theorem ofNat_count_of_reserved {b : Half} (hreserved : (b &&& 0xFF00 == 0) = true) :
    BitVec.ofNat 16 (b.toNat % 256) = b := by
  have hmask : ∀ i < 16, ¬i < 8 → (0xFF00 : Half).getLsbD i = true := by decide
  refine BitVec.eq_of_getLsbD_eq fun i hi => ?_
  rw [BitVec.getLsbD_ofNat, show 256 = 2 ^ 8 from rfl, Nat.testBit_mod_two_pow, BitVec.testBit_toNat]
  by_cases hlow : i < 8
  · simp [hi, hlow]
  · simp [hlow, getLsbD_of_masked hreserved (hmask i hi hlow)]

/-- A payload of Actions is the words of the Actions it is read as. -/
theorem map_actionWord_of_actionsOfPayload {payload : List Word} :
    ∀ {actions : List Action}, actionsOfPayload payload = .ok actions → actions.map actionWord = payload := by
  induction payload with
  | nil => rintro _ ⟨⟩; rfl
  | cons w ws ih =>
    intro actions hread
    rw [actionsOfPayload] at hread
    split at hread
    · cases hread
    next hhigh =>
    split at hread
    · cases hread
    next a hpattern =>
    split at hread
    next as hlater =>
      cases hread
      rw [List.map_cons, ih hlater, actionWord, actionPattern_of_actionOfPattern hpattern,
        setWidth_payloadLow (not_not.mp hhigh)]
    · cases hread

/-- A payload of type codes is the words of the codes it is read as. -/
theorem map_setWidth_of_typesOfPayload {payload : List Word} :
    ∀ {types : List Half}, typesOfPayload payload = .ok types → types.map (BitVec.setWidth 32) = payload := by
  induction payload with
  | nil => rintro _ ⟨⟩; rfl
  | cons w ws ih =>
    intro types hread
    rw [typesOfPayload] at hread
    split at hread
    · cases hread
    next hhigh =>
    split at hread
    next ts hlater =>
      cases hread
      rw [List.map_cons, ih hlater, setWidth_payloadLow (not_not.mp hhigh)]
    · cases hread

/-- A payload of so many values is the words of the values it is read as, and they fit their words. -/
theorem flatMap_wordsOfValue_of_valuesOfPayload {num : Numerics} {n : Nat} :
    ∀ {payload : List Word} {values : List EngValue}, payload.length = n * valueWords num →
      valuesOfPayload num n payload = .ok values →
      values.flatMap (wordsOfValue num) = payload ∧ values.all (valueFits num) = true := by
  induction n with
  | zero =>
    rintro payload _ hlength ⟨⟩
    rw [Nat.zero_mul, List.length_eq_zero_iff] at hlength
    exact ⟨hlength.symm, rfl⟩
  | succ n ih =>
    intro payload values hlength hread
    rw [Nat.succ_mul] at hlength
    rw [valuesOfPayload] at hread
    split at hread
    · cases hread
    next v hvalue =>
    split at hread
    next vs hlater =>
      cases hread
      obtain ⟨hfits, hwords⟩ := wordsOfValue_valueOfWords (by rw [List.length_take]; omega) hvalue
      obtain ⟨hrest, hall⟩ := ih (by rw [List.length_drop]; omega) hlater
      constructor
      · rw [List.flatMap_cons, hwords, hrest, List.take_append_drop]
      · rw [List.all_cons, hfits, hall, Bool.and_true]
    · cases hread

end Sys2Proof.Machine
end

section
/-! A legal encoding is the encoding of the command it decodes to (R46, R50, R53, R54). -/

namespace Sys2Proof.Machine

/-- Everything a legal verdict says: the checks of R54 passed and the row's operands were assembled. -/
theorem decode_legal {num : Numerics} {strap : Family} {h : Word} {payload : List Word} {i : Instr}
    (hdecode : decode num strap h payload = .legal i) :
    payload.length = paylen num h ∧ (headerOf h).fam = strap ∧
      ∃ r, opcodeOf (headerOf h).fam (headerOf h).op = some r ∧
        reservedClear r (headerOf h).a (headerOf h).b = true ∧
        operandsOf num r (headerOf h).a (headerOf h).b payload = .legal i := by
  unfold decode at hdecode
  split at hdecode
  · cases hdecode
  next hlength =>
  simp only at hdecode
  split at hdecode
  · cases hdecode
  next hstrap =>
  split at hdecode
  · cases hdecode
  next r hrow =>
  split at hdecode
  next hreserved => exact ⟨not_not.mp hlength, not_not.mp hstrap, r, hrow, hreserved, hdecode⟩
  · cases hdecode

section Rows

variable {num : Numerics} {fam : Family} {a : Byte} {b : Half} {payload : List Word} {i : Instr}

/-- A row whose fields A and B are both reserved has no operand but its payload. -/
theorem fields_of_reserved (hreserved : (a == 0 && b == 0) = true) : a = 0 ∧ b = 0 := by
  rwa [Bool.and_eq_true, beq_iff_eq, beq_iff_eq] at hreserved

theorem batchOfPayload_legal {make : List Action → Instr} (hread : batchOfPayload make payload = .legal i) :
    ∃ actions, i = make actions ∧ actions.map actionWord = payload := by
  unfold batchOfPayload at hread
  split at hread
  next actions hactions =>
    cases hread
    exact ⟨actions, rfl, map_actionWord_of_actionsOfPayload hactions⟩
  · cases hread

theorem operandsOf_aiSettypes_legal (hread : operandsOf num .aiSettypes a b payload = .legal i) :
    ∃ types : Oct Half, i = .aiSettypes types ∧ types.toList.map (BitVec.setWidth 32) = payload := by
  rw [operandsOf] at hread
  split at hread
  · cases hread
  next ts htypes =>
  split at hread
  next types height =>
    cases hread
    exact ⟨types, rfl, by rw [toList_of_octOfList? height, map_setWidth_of_typesOfPayload htypes]⟩
  · cases hread

theorem operandsOf_aoSetch_legal (hread : operandsOf num .aoSetch a b payload = .legal i)
    (hlength : payload.length = valueWords num) :
    ∃ value, i = .aoSetch a value ∧ wordsOfValue num value = payload ∧ valueFits num value = true := by
  rw [operandsOf] at hread
  split at hread
  next value hvalue =>
    cases hread
    obtain ⟨hfits, hwords⟩ := wordsOfValue_valueOfWords hlength hvalue
    exact ⟨value, rfl, hwords, hfits⟩
  · cases hread

theorem operandsOf_aoSetchs_legal (hread : operandsOf num .aoSetchs a b payload = .legal i)
    (hlength : payload.length = 8 * valueWords num) :
    ∃ values : Oct EngValue, i = .aoSetchs values ∧ values.toList.flatMap (wordsOfValue num) = payload ∧
      values.toList.all (valueFits num) = true := by
  rw [operandsOf] at hread
  split at hread
  · cases hread
  next vs hvalues =>
  split at hread
  next values height =>
    cases hread
    rw [← toList_of_octOfList? height] at hvalues
    exact ⟨values, rfl, flatMap_wordsOfValue_of_valuesOfPayload hlength hvalues⟩
  · cases hread

/-- A batch header with its reserved bits zero has its payload's length as B. -/
theorem ofNat_length_of_batch_header (hfam : fam = .dio ∨ fam = .rly)
    (hlength : payload.length = paylen num (headerWord ⟨fam, 0x11, a, b⟩))
    (hreserved : (b &&& 0xFF00 == 0) = true) : payload.length ≤ 255 ∧ BitVec.ofNat 16 payload.length = b := by
  rw [paylen_headerWord, if_pos ⟨rfl, hfam⟩] at hlength
  rw [hlength]
  exact ⟨Nat.le_of_lt_succ (Nat.mod_lt _ (by decide)), ofNat_count_of_reserved hreserved⟩

/-- What a row assembles from a legal header and payload of its own is encoded as that header and payload, and can be:
its family is the header's, its batch has at most 255 elements and its values fit their words. -/
theorem encode_of_operandsOf {r : Opcode} (hfam : ∀ f ∈ rowFamily r, fam = f)
    (hlength : payload.length = paylen num (headerWord ⟨fam, rowOp r, a, b⟩))
    (hreserved : reservedClear r a b = true) (hread : operandsOf num r a b payload = .legal i) :
    encode num fam i = headerWord ⟨fam, rowOp r, a, b⟩ :: payload ∧ i.wellFormed num fam = true := by
  cases r with
  | connect | rdver =>
    obtain ⟨rfl, rfl⟩ := fields_of_reserved hreserved
    obtain rfl : payload = [] := by simpa [paylen_headerWord, rowOp] using hlength
    cases hread
    exact ⟨rfl, rfl⟩
  | settag | setaddr =>
    obtain rfl : a = 0 := eq_of_beq hreserved
    obtain rfl : payload = [] := by simpa [paylen_headerWord, rowOp] using hlength
    cases hread
    exact ⟨rfl, rfl⟩
  | setuart =>
    obtain rfl : payload = [] := by simpa [paylen_headerWord, rowOp] using hlength
    cases hread
    exact ⟨rfl, rfl⟩
  | dioSetch | rlySetch =>
    obtain rfl := hfam _ rfl
    obtain rfl : payload = [] := by simpa [paylen_headerWord, rowOp] using hlength
    cases hread
    exact ⟨by rw [encode, onField_of_reserved hreserved]; rfl, rfl⟩
  | dioSetchs | rlySetchs =>
    obtain rfl := hfam _ rfl
    obtain ⟨actions, rfl, rfl⟩ := batchOfPayload_legal hread
    obtain ⟨hcount, hb⟩ := ofNat_length_of_batch_header (by simp) hlength hreserved
    rw [List.length_map] at hcount hb
    exact ⟨by rw [encode, hb]; rfl, by simp [Instr.wellFormed, Instr.familyMatches, Instr.family, Instr.batchFits,
      Instr.valuesFit, hcount]⟩
  | dioSetmode | aiSettype =>
    obtain rfl := hfam _ rfl
    obtain rfl : payload = [] := by simpa [paylen_headerWord, rowOp] using hlength
    cases hread
    exact ⟨rfl, rfl⟩
  | dioRdchs | dioRdout | rlyRdchs | aiGettypes | aiRdchs | aoGetvals =>
    obtain rfl := hfam _ rfl
    obtain ⟨rfl, rfl⟩ := fields_of_reserved hreserved
    obtain rfl : payload = [] := by simpa [paylen_headerWord, rowOp] using hlength
    cases hread
    exact ⟨rfl, rfl⟩
  | rlyOpen | rlyClose | aiRdch =>
    obtain rfl := hfam _ rfl
    obtain rfl : b = 0 := eq_of_beq hreserved
    obtain rfl : payload = [] := by simpa [paylen_headerWord, rowOp] using hlength
    cases hread
    exact ⟨rfl, rfl⟩
  | aiSettypes =>
    obtain rfl := hfam _ rfl
    obtain ⟨rfl, rfl⟩ := fields_of_reserved hreserved
    obtain ⟨types, rfl, rfl⟩ := operandsOf_aiSettypes_legal hread
    exact ⟨rfl, rfl⟩
  | aoSetch =>
    obtain rfl := hfam _ rfl
    obtain rfl : b = 0 := eq_of_beq hreserved
    obtain ⟨value, rfl, rfl, hfits⟩ :=
      operandsOf_aoSetch_legal hread (by simpa [paylen_headerWord, rowOp] using hlength)
    exact ⟨rfl, hfits⟩
  | aoSetchs =>
    obtain rfl := hfam _ rfl
    obtain ⟨rfl, rfl⟩ := fields_of_reserved hreserved
    obtain ⟨values, rfl, rfl, hfits⟩ :=
      operandsOf_aoSetchs_legal hread (by simpa [paylen_headerWord, rowOp] using hlength)
    exact ⟨rfl, hfits⟩

end Rows

/-- Settles O15: the verdict names the row (`decode_legal`), whose operands are encoded as the header and payload they
were read from (`encode_of_operandsOf`). -/
theorem encodeOfDecode : Obligations.EncodeOfDecode := by
  intro num strap h payload i hdecode
  obtain ⟨hlength, rfl, r, hrow, hreserved, hread⟩ := decode_legal hdecode
  obtain ⟨hop, hfam⟩ := opcodeOf_eq_some_iff.mp hrow
  have hword : headerWord ⟨(headerOf h).fam, rowOp r, (headerOf h).a, (headerOf h).b⟩ = h := by
    rw [← hop]
    exact headerWord_headerOf h
  have hencode := encode_of_operandsOf hfam (hword.symm ▸ hlength) hreserved hread
  rwa [hword] at hencode

/-- Settles O14: `decode_encode`, for every command, strap and NUM. -/
theorem decodeOfEncode : Obligations.DecodeOfEncode :=
  fun _ _ _ => decode_encode

end Sys2Proof.Machine
end

section
/-! What the decoder makes of every header: the lengths it cuts, the rows it selects and the verdicts it gives (R43,
R46, R48 to R53). -/

namespace Sys2Proof.Machine

/-- Settles O16: a well-formed command is cut off whole by the length its header announces, and `paylen_headerWord` has
NUM in two entries alone. -/
theorem fetchCutsOneCommand : Obligations.FetchCutsOneCommand := by
  refine ⟨fun num strap i rest hw => ?_, fun num h => ?_⟩
  · obtain ⟨h, payload, hencode, hlength, _⟩ := encodeLength i num strap hw
    exact ⟨h, payload, hencode, by rw [hencode, List.cons_append, fetchCommand_append hlength]⟩
  · rw [paylen_headerWord, paylen_headerWord]
    split_ifs <;> simp_all

/-- Settles O17: `paylen_headerWord` in the decided NUM, whose values are two words. -/
theorem payloadLengthTable : Obligations.PayloadLengthTable :=
  paylen_headerWord .binary64

theorem familyOfCode_eq_iff {c : BitVec 2} {f : Family} : familyOfCode c = f ↔ c = familyCode f :=
  ⟨fun h => by rw [← h, familyCode_familyOfCode], fun h => by rw [h, familyOfCode_familyCode]⟩

/-- Two words are equal iff their header fields are. -/
theorem word_eq_iff {x y : Word} :
    x = y ↔ x.extractLsb' 30 2 = y.extractLsb' 30 2 ∧ x.extractLsb' 24 6 = y.extractLsb' 24 6 ∧
      x.extractLsb' 16 8 = y.extractLsb' 16 8 ∧ x.extractLsb' 0 16 = y.extractLsb' 0 16 := by
  constructor
  · rintro rfl
    exact ⟨rfl, rfl, rfl, rfl⟩
  · rintro ⟨hfam, hop, ha, hb⟩
    rw [← headerWord_headerOf x, ← headerWord_headerOf y, headerOf, headerOf, hfam, hop, ha, hb]

/-- The mask of a row is all ones on OP, on FAM unless the row is common, and on the reserved fields; the match is the
row's FAM and OP, and zero elsewhere. -/
theorem selectsRow_iff {h : Word} {r : Opcode} :
    selectsRow h r = true ↔
      (∀ f ∈ rowFamily r, (headerOf h).fam = f) ∧ (headerOf h).op = rowOp r ∧
        reservedClear r (headerOf h).a (headerOf h).b = true := by
  have hfam (x : BitVec 2) : x &&& 3#2 = x := BitVec.and_allOnes
  have hop (x : BitVec 6) : x &&& 63#6 = x := BitVec.and_allOnes
  have ha (x : Byte) : x &&& 255#8 = x := BitVec.and_allOnes
  have hb (x : Half) : x &&& 65535#16 = x := BitVec.and_allOnes
  rw [selectsRow, beq_iff_eq, word_eq_iff]
  simp only [BitVec.extractLsb'_and]
  cases r <;>
    simp [matchMask, rowFamily, rowOp, reservedClear, headerOf, familyOfCode_eq_iff, familyCode, hfam, hop, ha, hb]

theorem selectsRow_iff_opcodeOf {h : Word} {r : Opcode} :
    selectsRow h r = true ↔
      opcodeOf (headerOf h).fam (headerOf h).op = some r ∧ reservedClear r (headerOf h).a (headerOf h).b = true := by
  rw [selectsRow_iff, opcodeOf_eq_some_iff, and_assoc, and_left_comm]

/-- Settles O18: a selected row is the one row of the header's FAM and OP. -/
theorem headerSelectsOneRow : Obligations.HeaderSelectsOneRow := by
  refine ⟨fun _ _ => selectsRow_iff_opcodeOf, fun h r q hr hq => ?_⟩
  obtain ⟨hr, _⟩ := selectsRow_iff_opcodeOf.mp hr
  obtain ⟨hq, _⟩ := selectsRow_iff_opcodeOf.mp hq
  exact Option.some.inj (hr.symm.trans hq)

/-- Settles O19: the strap is checked before everything but the length of the payload (R54). -/
theorem familyMismatchIsIllegal : Obligations.FamilyMismatchIsIllegal := by
  intro num strap h payload hlength hfam
  simp [decode, hlength, hfam]

/-- Settles O20: FAM and OP are checked right after the strap (R54); the list of R52 is the table of R46 read for all 64
OP of each family. -/
theorem undefinedOpcodesAreIllegal : Obligations.UndefinedOpcodesAreIllegal := by
  refine ⟨fun num h payload hlength hrow => ?_, fun fam op => ?_⟩
  · simp [decode, hlength, hrow]
  · cases fam <;> (revert op; decide)

/-- Settles O22: the decoder evaluates the six words. -/
theorem knownWordsDecode : Obligations.KnownWordsDecode := by
  unfold Obligations.KnownWordsDecode
  decide

/-- A word with a bit in 31:16 or no Action pattern in 15:0 makes a batch payload illegal, by itself or by a word before
it. -/
theorem actionsOfPayload_error {w : Word}
    (hw : payloadHigh w ≠ 0 ∨ (payloadLow w ≠ 0xFF00 ∧ payloadLow w ≠ 0x0000 ∧ payloadLow w ≠ 0x5500))
    {payload : List Word} (hmem : w ∈ payload) :
    ∃ why, (why = .reservedPayloadBits ∨ why = .notAnAction) ∧ actionsOfPayload payload = .error why := by
  induction payload with
  | nil => cases hmem
  | cons x xs ih =>
    by_cases hhigh : payloadHigh x = 0
    case neg => exact ⟨.reservedPayloadBits, .inl rfl, by rw [actionsOfPayload, if_pos hhigh]⟩
    cases hpattern : actionOfPattern (payloadLow x) with
    | none => exact ⟨.notAnAction, .inr rfl, by simp [actionsOfPayload, hhigh, hpattern]⟩
    | some action =>
      rcases List.mem_cons.mp hmem with rfl | hlater
      · obtain hbits | ⟨hon, hoff, hflip⟩ := hw
        · exact absurd hhigh hbits
        · rw [actionOfPattern, if_neg hon, if_neg hoff, if_neg hflip] at hpattern
          cases hpattern
      · obtain ⟨why, hwhy, herror⟩ := ih hlater
        exact ⟨why, hwhy, by simp [actionsOfPayload, hhigh, hpattern, herror]⟩

/-- Settles O21: the header is legal, so the verdict is that of the payload (`actionsOfPayload_error`). -/
theorem batchPayloadWordsMustBeActions : Obligations.BatchPayloadWordsMustBeActions := by
  intro num fam start payload w hfam hcount hmem hw
  obtain ⟨why, hwhy, herror⟩ := actionsOfPayload_error hw hmem
  have hlength : payload.length = paylen num (headerWord ⟨fam, 0x11, start, BitVec.ofNat 16 payload.length⟩) := by
    rw [paylen_headerWord, if_pos ⟨rfl, hfam⟩, BitVec.toNat_ofNat]
    omega
  have hreserved := batch_count_reserved hcount
  refine ⟨why, hwhy, ?_⟩
  rcases hfam with rfl | rfl
  · rw [decode_headerWord (r := .dioSetchs) hlength (by simp) rfl hreserved, operandsOf, batchOfPayload, herror]
  · rw [decode_headerWord (r := .rlySetchs) hlength (by simp) rfl hreserved, operandsOf, batchOfPayload, herror]

end Sys2Proof.Machine
end

section
/-! The assembler reads back every line a command is written as (R55, R56). -/

namespace Sys2Proof.Machine

theorem opcodeOfMnemonic_lower (r : Opcode) : opcodeOfMnemonic (mnemonicLower r) = some r := by
  cases r <;> rfl

theorem assembleLine_mnemonicLower (r : Opcode) (operands : List AsmOperand) :
    assembleLine ⟨mnemonicLower r, operands⟩ = assembleRow r operands := by
  rw [assembleLine, opcodeOfMnemonic_lower]

/-- A written field A is read back. -/
@[simp] theorem asmByte_toNat (a : Byte) : asmByte a.toNat = some a := by
  rw [asmByte, if_pos a.isLt, BitVec.ofNat_toNat, BitVec.setWidth_eq]

/-- A written field B is read back. -/
@[simp] theorem asmHalf_toNat (b : Half) : asmHalf b.toNat = some b := by
  rw [asmHalf, if_pos b.isLt, BitVec.ofNat_toNat, BitVec.setWidth_eq]

@[simp] theorem asmHalves_map_toNat (types : List Half) : asmHalves (types.map BitVec.toNat) = some types := by
  induction types with
  | nil => rfl
  | cons t ts ih => rw [List.map_cons, asmHalves, asmHalf_toNat, ih]

@[simp] theorem asmFlag_toNat (on : Bool) : asmFlag (.num on.toNat) = some on := by
  cases on <;> rfl

/-- Settles O23: the mnemonic names the row, and the row reads every operand back. -/
theorem assembleOfAsm : Obligations.AssembleOfAsm := by
  intro i hbatch
  cases i with
  | dioSetchs start actions | rlySetchs start actions =>
    have hcount : actions.length ≤ 255 := of_decide_eq_true hbatch
    simp [asmOf, assembleLine_mnemonicLower, assembleRow, asmBatch, hcount]
  | _ => simp [asmOf, assembleLine_mnemonicLower, assembleRow, asmSetch, asmPair]

end Sys2Proof.Machine
end

section
/-! The response of a command: its codes and words (R49, R57, R58, R101), its count, which is the number of its calls,
and its payload, which has the form of its row (R57, R116, R128). -/

namespace Sys2Proof.Machine

/-- A bank record's word is the word it was decoded from (R64). -/
theorem encodeBank_decodeBank (w : Byte) : encodeBank (decodeBank w) = w := by
  revert w; decide

/-- Settles O13: the patterns and codes are the tables' entries; the words of a record and of a value are read back. -/
theorem outputCodes : Obligations.OutputCodes :=
  ⟨rfl, rfl, rfl, actionOfBool_eq, rfl, rfl, rfl, rfl, rfl, encodeBank_decodeBank, words_binary64OfWords⟩

/-- What a plan owes its command's row: as many calls as the row counts, and a result of the row's form, from whatever
units are read. -/
def Plan.answersRow (i : Instr) : Plan → Prop
  | .calls cs reply => cs.length = callCount i ∧ ∀ num v, payloadFits i (replyPayload num reply v)
  | .setTag _ => callCount i = 0 ∧ payloadFits i .none
  | .raise e => e ≠ .ok
  | .refuse _ => True

section AnswersRow

variable {i : Instr} {p : Plan}

theorem answersRow_withChannel (c : Byte) (hp : p.answersRow i) : (withChannel c p).answersRow i := by
  unfold withChannel
  split
  · exact hp
  · exact nofun

theorem answersRow_withBatch (start : Byte) (n : Nat) (hp : p.answersRow i) : (withBatch start n p).answersRow i := by
  unfold withBatch
  split
  · exact hp
  · exact nofun

theorem batchWrites_length (base : Addr) (s : State) (actions : List Action) :
    ∀ offset, (batchWrites base s offset actions).length = actions.length := by
  induction actions with
  | nil => exact fun _ => rfl
  | cons a as ih => exact fun offset => congrArg (· + 1) (ih (offset + 1))

/-- Every command's plan has the calls and the result of its row (R57, R128). -/
theorem planOf_answersRow (i : Instr) (s : State) : (planOf i s).answersRow i := by
  cases i with
  | settag tag =>
    rw [planOf, planSettag]
    split
    · exact ⟨rfl, rfl⟩
    · exact nofun
  | setaddr address =>
    rw [planOf, planSetaddr]
    split
    · exact ⟨rfl, fun _ _ => rfl⟩
    · exact nofun
  | connect | setuart | aiSettypes => exact ⟨rfl, fun _ _ => rfl⟩
  | rdver | dioRdchs | dioRdout | rlyRdchs | aiGettypes | aiRdchs | aoGetvals =>
    exact ⟨rfl, fun _ _ => ⟨_, rfl⟩⟩
  | dioSetch | dioSetmode | rlySetch | rlyOpen | rlyClose | aiSettype =>
    exact answersRow_withChannel _ ⟨rfl, fun _ _ => rfl⟩
  | aiRdch => exact answersRow_withChannel _ ⟨rfl, fun _ _ => ⟨_, rfl⟩⟩
  | dioSetchs start actions | rlySetchs start actions =>
    exact answersRow_withBatch _ _ ⟨batchWrites_length .., fun _ _ => rfl⟩
  | aoSetch channel value =>
    refine answersRow_withChannel _ ?_
    split
    · trivial
    · exact ⟨rfl, fun _ _ => rfl⟩
  | aoSetchs values =>
    rw [planOf, planAoSetchs]
    split
    · trivial
    · exact ⟨rfl, fun _ _ => rfl⟩

end AnswersRow

/-- From `s` to `t` the record grows, and every response it then has besides is a `P`. -/
def RespondsOnly (P : Response → Prop) (s t : State) : Prop :=
  ∃ es, t.trace = s.trace ++ es ∧ ∀ r ∈ responsesIn es, P r

section RespondsOnly

variable {P : Response → Prop} {s t u : State}

theorem responsesIn_append (es later : List Event) :
    responsesIn (es ++ later) = responsesIn es ++ responsesIn later := by
  induction es with
  | nil => rfl
  | cons e es ih => cases e <;> simp [responsesIn, ih]

theorem respondsOnly_trans (hst : RespondsOnly P s t) (htu : RespondsOnly P t u) : RespondsOnly P s u := by
  obtain ⟨es, htrace, hes⟩ := hst
  obtain ⟨later, htrace', hlater⟩ := htu
  refine ⟨es ++ later, by rw [htrace', htrace, List.append_assoc], fun r hr => ?_⟩
  rw [responsesIn_append, List.mem_append] at hr
  exact hr.elim (hes r) (hlater r)

theorem respondsOnly_respond {e : Status} {k : Nat} {payload : Payload} (h : P ⟨e, k, payload⟩) :
    RespondsOnly P s (respond e k payload s) :=
  ⟨[.response ⟨e, k, payload⟩], rfl, by simpa [responsesIn] using h⟩

/-- A call that is issued or already outstanding is no response. -/
theorem respondsOnly_withOutstanding (d : Decoded) (out : Bool) (c : Call) (k : Nat) (v : Values) (s : State) :
    RespondsOnly P s (withOutstanding d out c k v s) := by
  cases out with
  | false => exact ⟨[.call c], rfl, by simp [responsesIn]⟩
  | true => exact ⟨[], (List.append_nil _).symm, by simp [responsesIn]⟩

theorem respondsOnly_receive (a : Answer) (rest : List Answer) (s : State) : RespondsOnly P s (receive a rest s) :=
  ⟨[.answer a], rfl, by simp [responsesIn]⟩

theorem of_mem_responsesIn (hst : RespondsOnly P s t) {r : Response} (hr : r ∈ responsesIn (eventsSince s t)) :
    P r := by
  obtain ⟨es, htrace, hes⟩ := hst
  rw [eventsSince_of_append htrace] at hr
  exact hes r hr

/-- Serving answers OK when its last call is completed, with the result of the units read, and otherwise only the
TransportFailure of a call that failed. -/
theorem respondsOnly_serve {d : Decoded} {reply : Reply} {n : Nat}
    (hok : ∀ num v, P ⟨.ok, n, replyPayload num reply v⟩) (hfailure : ∀ k, P ⟨.transportFailure, k, .none⟩)
    (cs : List Call) : ∀ (out : Bool) (k : Nat) (v : Values) (s : State), k + cs.length = n →
      RespondsOnly P s (serve d reply out cs k v s) := by
  induction cs with
  | nil =>
    rintro out k v s rfl
    rw [serve_nil]
    exact respondsOnly_respond (hok _ _)
  | cons c cs ih =>
    intro out k v s hcount
    have hissued : RespondsOnly P s (withOutstanding d out c k v s) := respondsOnly_withOutstanding ..
    cases hans : s.ansIn with
    | nil =>
      rw [serve_waits hans]
      exact hissued
    | cons a rest =>
      have hanswered := respondsOnly_trans hissued (respondsOnly_receive a rest _)
      cases haccept : accept c a with
      | none =>
        rw [serve_fails hans haccept]
        exact respondsOnly_trans hanswered (respondsOnly_respond (hfailure k))
      | some w =>
        rw [serve_goes_on hans haccept]
        refine respondsOnly_trans hanswered (ih _ _ _ _ ?_)
        rw [← hcount, List.length_cons]
        omega

end RespondsOnly

/-- The response is one of the command's row (R57, R116, R128). -/
def FollowsRow (i : Instr) (r : Response) : Prop :=
  (r.status = .ok → r.done = callCount i ∧ payloadFits i r.payload) ∧ (r.status ≠ .ok → r.payload = .none)

theorem followsRow_ok {i : Instr} {payload : Payload} (h : payloadFits i payload) :
    FollowsRow i ⟨.ok, callCount i, payload⟩ :=
  ⟨fun _ => ⟨rfl, h⟩, fun hfailed => absurd rfl hfailed⟩

theorem followsRow_error {i : Instr} {e : Status} (he : e ≠ .ok) (k : Nat) : FollowsRow i ⟨e, k, .none⟩ :=
  ⟨fun hok => absurd hok he, fun _ => rfl⟩

/-- A command answers as its row says, by what its plan is. -/
theorem respondsOnly_exec {i : Instr} {s t : State} (hnext : exec i s = .next t) : RespondsOnly (FollowsRow i) s t := by
  rw [exec_eq_startCommand] at hnext
  have hrow := planOf_answersRow i s
  cases hplan : planOf i s with
  | raise e =>
    rw [hplan] at hnext hrow
    cases hnext
    exact respondsOnly_respond (followsRow_error hrow 0)
  | refuse r =>
    rw [hplan] at hnext
    cases hnext
  | setTag b =>
    rw [hplan] at hnext hrow
    obtain ⟨hcount, hpayload⟩ := hrow
    cases hnext
    have hok := followsRow_ok hpayload
    rw [hcount] at hok
    exact respondsOnly_respond (s := { s with tag := b }) hok
  | calls cs reply =>
    rw [hplan] at hnext hrow
    obtain ⟨hcount, hpayload⟩ := hrow
    cases hnext
    exact respondsOnly_serve (fun num v => followsRow_ok (hpayload num v)) (followsRow_error nofun) cs _ _ _ _
      ((Nat.zero_add _).trans hcount)

/-- Settles O38: `respondsOnly_exec`, for every response among the events. -/
theorem responseFollowsTable : Obligations.ResponseFollowsTable :=
  fun _ _ _ hnext _ hr => of_mem_responsesIn (respondsOnly_exec hnext) hr

end Sys2Proof.Machine
end

section
/-! Rounding to nearest, ties to even (R70): the quotient is nearest and monotone, and so is the rounding of a natural
number to 53 significant bits. -/

namespace Sys2Proof.Machine

section Quotient

variable {n m d : Nat}

/-- How the rounded quotient is chosen: the quotient or the next integer, by the remainder, the even one on a tie. -/
theorem roundNearestEven_cases (n d : Nat) :
    (roundNearestEven n d = n / d ∧ (2 * (n % d) < d ∨ 2 * (n % d) = d ∧ n / d % 2 = 0)) ∨
      (roundNearestEven n d = n / d + 1 ∧ (d < 2 * (n % d) ∨ 2 * (n % d) = d ∧ n / d % 2 = 1)) := by
  simp only [roundNearestEven]
  split_ifs <;> omega

/-- The rounded quotient is within half a unit of the quotient. -/
theorem roundNearestEven_within_half (n : Nat) (hd : 0 < d) :
    2 * n ≤ 2 * (d * roundNearestEven n d) + d ∧ 2 * (d * roundNearestEven n d) ≤ 2 * n + d := by
  have hsplit := Nat.div_add_mod n d
  have hmod := Nat.mod_lt n hd
  rcases roundNearestEven_cases n d with ⟨hr, hrem⟩ | ⟨hr, hrem⟩
  · rw [hr]
    omega
  · rw [hr, Nat.mul_succ]
    omega

/-- Where the quotient is half a unit away, the rounded one is even. -/
theorem roundNearestEven_even_of_tie (hd : 0 < d)
    (htie : 2 * n = 2 * (d * roundNearestEven n d) + d ∨ 2 * n + d = 2 * (d * roundNearestEven n d)) :
    roundNearestEven n d % 2 = 0 := by
  have hsplit := Nat.div_add_mod n d
  have hmod := Nat.mod_lt n hd
  rcases roundNearestEven_cases n d with ⟨hr, hrem⟩ | ⟨hr, hrem⟩
  · rw [hr] at htie ⊢
    omega
  · rw [hr, Nat.mul_succ] at htie
    omega

/-- Settles O4: `roundNearestEven_within_half` and `roundNearestEven_even_of_tie`, with the products written out. -/
theorem roundNearestEvenIsNearest : Obligations.RoundNearestEvenIsNearest := by
  intro n d hd
  obtain ⟨hbelow, habove⟩ := roundNearestEven_within_half n hd
  have heven := roundNearestEven_even_of_tie (n := n) hd
  have hmul : 2 * roundNearestEven n d * d = 2 * (d * roundNearestEven n d) := by ring
  rw [Nat.add_mul, Nat.one_mul, hmul]
  exact ⟨hbelow, habove, fun htie => heven (.inl htie), fun htie => heven (.inr htie)⟩

/-- No integer is nearer to the quotient than the rounded one: the others are half a unit away or more. -/
theorem roundNearestEven_nearest (n : Nat) (hd : 0 < d) (k : Int) :
    |(d : Int) * roundNearestEven n d - n| ≤ |(d : Int) * k - n| := by
  have hwithin := roundNearestEven_within_half n hd
  zify at hwithin hd
  rw [Int.abs_eq_natAbs, Int.abs_eq_natAbs]
  rcases lt_trichotomy k (roundNearestEven n d) with hlt | rfl | hgt
  · have hstep := mul_le_mul_of_nonneg_left (Int.add_one_le_of_lt hlt) hd.le
    rw [mul_add, mul_one] at hstep
    omega
  · exact le_rfl
  · have hstep := mul_le_mul_of_nonneg_left (Int.add_one_le_of_lt hgt) hd.le
    rw [mul_add, mul_one] at hstep
    omega

theorem roundNearestEven_mul_self (k : Nat) (hd : 0 < d) : roundNearestEven (d * k) d = k := by
  simp [roundNearestEven, hd]

/-- Numerator and denominator may be scaled. -/
theorem roundNearestEven_mul_right {c : Nat} (hc : 0 < c) (n d : Nat) :
    roundNearestEven (n * c) (d * c) = roundNearestEven n d := by
  have hmul (x : Nat) : 2 * (x * c) = 2 * x * c := (Nat.mul_assoc 2 x c).symm
  simp only [roundNearestEven, Nat.mul_div_mul_right _ _ hc, Nat.mul_mod_mul_right, hmul,
    Nat.mul_lt_mul_right hc]

/-- Rounding keeps the order: results in the other order would be a unit apart, which leaves the two quotients only to
be equal. -/
theorem roundNearestEven_mono (hd : 0 < d) (h : n ≤ m) : roundNearestEven n d ≤ roundNearestEven m d := by
  obtain ⟨hbelow, habove⟩ := roundNearestEven_within_half n hd
  obtain ⟨hbelow', habove'⟩ := roundNearestEven_within_half m hd
  by_contra hlt
  have hstep := Nat.mul_le_mul_left d (Nat.succ_le_of_lt (Nat.lt_of_not_le hlt))
  rw [Nat.mul_succ] at hstep
  have hsame : n = m := by omega
  exact hlt (hsame ▸ le_rfl)

end Quotient

/-- A natural number rounded to 53 significant bits, the precision of binary64. -/
def round53 (n : Nat) : Nat := 2 ^ excessBits n * roundNearestEven n (2 ^ excessBits n)

section Significant

variable {n m k : Nat}

theorem excessBits_of_lt (h : n < 2 ^ 53) : excessBits n = 0 := if_pos h

theorem excessBits_of_le (h : 2 ^ 53 ≤ n) : excessBits n + 52 = Nat.log2 n := by
  have hlog : 53 ≤ Nat.log2 n := (Nat.le_log2 (by omega)).mpr h
  rw [excessBits, if_neg (Nat.not_lt.mpr h)]
  omega

/-- Without its excess bits a number has at most 53 bits. -/
theorem lt_two_pow_excessBits (n : Nat) : n < 2 ^ (excessBits n + 53) := by
  by_cases h : n < 2 ^ 53
  · rwa [excessBits_of_lt h]
  · have hlog := excessBits_of_le (Nat.not_lt.mp h)
    rw [show excessBits n + 53 = Nat.log2 n + 1 by omega]
    exact Nat.lt_log2_self

/-- Without its excess bits, if it has any, a number has no fewer than 53 bits. -/
theorem two_pow_excessBits_le (h : excessBits n ≠ 0) : 2 ^ (excessBits n + 52) ≤ n := by
  have hn : 2 ^ 53 ≤ n := Nat.not_lt.mp fun hlt => h (excessBits_of_lt hlt)
  rw [excessBits_of_le hn]
  exact Nat.log2_self_le (by omega)

theorem excessBits_le_of_lt (h : n < 2 ^ (k + 53)) : excessBits n ≤ k := by
  by_cases hzero : excessBits n = 0
  · omega
  · have hlt := (Nat.pow_lt_pow_iff_right Nat.one_lt_two).mp ((two_pow_excessBits_le hzero).trans_lt h)
    omega

theorem excessBits_mono (h : n ≤ m) : excessBits n ≤ excessBits m :=
  excessBits_le_of_lt (h.trans_lt (lt_two_pow_excessBits m))

/-- What is a multiple of the unit at its excess bits is kept. -/
theorem round53_of_dvd (h : 2 ^ excessBits n ∣ n) : round53 n = n := by
  obtain ⟨c, hc⟩ := h
  rw [round53]
  nth_rw 2 [hc]
  rw [roundNearestEven_mul_self c (Nat.two_pow_pos _), ← hc]

/-- What 53 bits can carry, at any scale, is kept. -/
theorem round53_mul_two_pow (h : m < 2 ^ 53) (k : Nat) : round53 (m * 2 ^ k) = m * 2 ^ k := by
  have hlt : m * 2 ^ k < 2 ^ (k + 53) := by
    rw [Nat.pow_add, Nat.mul_comm (2 ^ k)]
    exact Nat.mul_lt_mul_of_pos_right h (Nat.two_pow_pos k)
  exact round53_of_dvd ((Nat.pow_dvd_pow 2 (excessBits_le_of_lt hlt)).mul_left m)

/-- Rounding keeps the order: with more excess bits there is a power of two between the two results. -/
theorem round53_mono (h : n ≤ m) : round53 n ≤ round53 m := by
  rcases (excessBits_mono h).eq_or_lt with hsame | hmore
  · rw [round53, round53, hsame]
    exact Nat.mul_le_mul_left _ (roundNearestEven_mono (Nat.two_pow_pos _) h)
  · have hn : n ≤ 2 ^ excessBits n * 2 ^ 53 := by
      rw [← Nat.pow_add]
      exact (lt_two_pow_excessBits n).le
    have hm : 2 ^ excessBits m * 2 ^ 52 ≤ m := by
      rw [← Nat.pow_add]
      exact two_pow_excessBits_le (by omega)
    have hbelow := roundNearestEven_mono (Nat.two_pow_pos (excessBits n)) hn
    have habove := roundNearestEven_mono (Nat.two_pow_pos (excessBits m)) hm
    rw [roundNearestEven_mul_self _ (Nat.two_pow_pos _)] at hbelow habove
    calc round53 n ≤ 2 ^ excessBits n * 2 ^ 53 := Nat.mul_le_mul_left _ hbelow
      _ = 2 ^ (excessBits n + 53) := (Nat.pow_add ..).symm
      _ ≤ 2 ^ (excessBits m + 52) := Nat.pow_le_pow_right Nat.two_pos (by omega)
      _ = 2 ^ excessBits m * 2 ^ 52 := Nat.pow_add ..
      _ ≤ round53 m := Nat.mul_le_mul_left _ habove

/-- What 53 bits can carry, at any scale, stays below whatever it is below. -/
theorem le_round53 (hm : m < 2 ^ 53) (h : m * 2 ^ k ≤ n) : m * 2 ^ k ≤ round53 n := by
  rw [← round53_mul_two_pow hm]
  exact round53_mono h

/-- What 53 bits can carry, at any scale, stays above whatever it is above. -/
theorem round53_le (hm : m < 2 ^ 53) (h : n ≤ m * 2 ^ k) : round53 n ≤ m * 2 ^ k := by
  rw [← round53_mul_two_pow hm]
  exact round53_mono h

theorem log2_mul_two_pow (h : m ≠ 0) (k : Nat) : Nat.log2 (m * 2 ^ k) = Nat.log2 m + k := by
  induction k with
  | zero => simp
  | succ k ih =>
    have hscaled : m * 2 ^ k ≠ 0 := Nat.mul_ne_zero h (Nat.two_pow_pos k).ne'
    rw [Nat.pow_succ, ← Nat.mul_assoc, Nat.mul_comm, Nat.log2_two_mul hscaled, ih, Nat.add_assoc]

theorem excessBits_mul_two_pow (h : 2 ^ 53 ≤ m) (k : Nat) : excessBits (m * 2 ^ k) = excessBits m + k := by
  have hlog := excessBits_of_le h
  have hscaled := excessBits_of_le (h.trans (Nat.le_mul_of_pos_right m (Nat.two_pow_pos k)))
  rw [log2_mul_two_pow (by omega)] at hscaled
  omega

/-- Rounding a scaled number is scaling the rounded one. -/
theorem round53_scaled (m k : Nat) : round53 (m * 2 ^ k) = round53 m * 2 ^ k := by
  by_cases h : m < 2 ^ 53
  · have hkept := round53_mul_two_pow h 0
    rw [pow_zero, Nat.mul_one] at hkept
    rw [round53_mul_two_pow h, hkept]
  · rw [round53, round53, excessBits_mul_two_pow (Nat.not_lt.mp h), Nat.pow_add,
      roundNearestEven_mul_right (Nat.two_pow_pos k), Nat.mul_right_comm]

end Significant

end Sys2Proof.Machine
end

section
/-! What the two scaler operations do to a binary64 value, as natural numbers: its magnitude in units of 2^-1075, and
the rounded product truncated (R67, R70). -/

namespace Sys2Proof.Machine

/-- What `to_raw` answers is the truncated product, and that is 0 to 65535 (R67, R68). -/
theorem toRaw_eq_some_iff {F : Type} {num : Num F} {x : F} {a : Half} :
    toRaw num x = some a ↔ num.mul1000Trunc x = some (a.toNat : Int) := by
  have ha := a.isLt
  unfold toRaw
  cases num.mul1000Trunc x with
  | none => simp
  | some t =>
    simp only [Option.some.injEq]
    constructor
    · intro h
      split at h
      · cases h
        rw [BitVec.toNat_ofNat]
        omega
      · cases h
    · rintro rfl
      simp
      omega

/-- The number one in units of 2^-1075, of which every finite binary64 value is a multiple. -/
def binary64One : Nat := 2 ^ 1075

theorem binary64One_pos : 0 < binary64One := by
  unfold binary64One
  positivity

/-- The magnitude of a finite value in units of 2^-1075. -/
def binary64Magnitude (v : Binary64) : Nat := binary64Significand v * 2 ^ binary64Scale v

theorem binary64ToRat_of_positive {v : Binary64} (h : binary64Sign v = false) :
    binary64ToRat v = (binary64Magnitude v : Rat) / binary64One := by
  simp only [binary64ToRat, h, binary64Magnitude, binary64One, Nat.cast_mul, Nat.cast_pow, Nat.cast_ofNat]
  rfl

theorem binary64ToRat_of_negative {v : Binary64} (h : binary64Sign v = true) :
    binary64ToRat v = -((binary64Magnitude v : Rat) / binary64One) := by
  simp only [binary64ToRat, h, binary64Magnitude, binary64One, Nat.cast_mul, Nat.cast_pow, Nat.cast_ofNat]
  rfl

theorem binary64Significand_lt (v : Binary64) : binary64Significand v < 2 ^ 53 := by
  have hfraction : binary64Fraction v < 2 ^ 52 := (v.extractLsb' 0 52).isLt
  unfold binary64Significand
  split <;> omega

/-- A shift by the difference of two exponents, to either side, is a quotient of powers of two. -/
theorem shift_eq_mul_two_pow_div (m s k : Nat) :
    (if k ≤ s then m <<< (s - k) else m >>> (k - s)) = m * 2 ^ s / 2 ^ k := by
  split
  next h =>
    rw [Nat.shiftLeft_eq, ← Nat.mul_div_cancel (m * 2 ^ (s - k)) (Nat.two_pow_pos k), Nat.mul_assoc, ← Nat.pow_add,
      Nat.sub_add_cancel h]
  next h =>
    rw [Nat.shiftRight_eq_div_pow, ← Nat.mul_div_mul_right m _ (Nat.two_pow_pos s), ← Nat.pow_add,
      Nat.sub_add_cancel (Nat.le_of_not_le h)]

theorem truncScaled_eq (m scale : Nat) : truncScaled m scale = m * 2 ^ scale / binary64One :=
  shift_eq_mul_two_pow_div m scale 1075

/-- The rounded product by 1000 truncated toward zero, the sign left out. -/
def truncatedProduct (v : Binary64) : Nat := round53 (binary64Magnitude v * 1000) / binary64One

theorem truncScaled_product (v : Binary64) :
    truncScaled (binary64Product1000 v).1 (binary64Product1000 v).2 = truncatedProduct v := by
  rw [truncScaled_eq, truncatedProduct, binary64Magnitude, Nat.mul_right_comm, round53_scaled, round53,
    binary64Product1000, Nat.pow_add]
  ring_nf

/-- Everything the product of binary64 can be. -/
theorem binary64Mul1000Trunc_eq_some {v : Binary64} {t : Int} (h : binary64Mul1000Trunc v = some t) :
    t = if binary64Sign v then -(truncatedProduct v : Int) else truncatedProduct v := by
  unfold binary64Mul1000Trunc at h
  split at h
  · cases h
  · simp only at h
    split at h
    · cases h
    · rw [truncScaled_product] at h
      exact (Option.some.inj h).symm

/-- Where `to_raw` has a result it is the truncated product: a negative one is in the domain only as zero. -/
theorem toNat_of_toRaw_binary64 {v : Binary64} {a : Half} (h : toRaw binary64 v = some a) :
    a.toNat = truncatedProduct v ∧ (binary64Sign v = true → a.toNat = 0) := by
  have ht := binary64Mul1000Trunc_eq_some (toRaw_eq_some_iff.mp h)
  cases hsign : binary64Sign v with
  | true =>
    rw [hsign, if_pos rfl] at ht
    omega
  | false =>
    rw [hsign, if_neg Bool.false_ne_true] at ht
    exact ⟨Int.ofNat_inj.mp ht, nofun⟩

/-- The check for overflow passes if the scale alone is below the limit `c` and the number has at most `n` bits above
the place `u`. -/
theorem log2_add_lt {m k u n c : Nat} (hk : k < c) (hc : n + u ≤ c) (h : m * 2 ^ k / 2 ^ u < 2 ^ n) :
    Nat.log2 m + k < c := by
  by_cases hm : m = 0
  · simpa [hm] using hk
  · rw [Nat.div_lt_iff_lt_mul (Nat.two_pow_pos u), ← Nat.pow_add] at h
    have hle : 2 ^ (Nat.log2 m + k) ≤ m * 2 ^ k := by
      rw [Nat.pow_add]
      exact Nat.mul_le_mul_right _ (Nat.log2_self_le hm)
    exact ((Nat.pow_lt_pow_iff_right Nat.one_lt_two).mp (hle.trans_lt h)).trans_le hc

theorem binary64Product1000_scale_lt {v : Binary64} (hfinite : binary64Finite v = true) :
    (binary64Product1000 v).2 < 2099 := by
  have hexponent : binary64Exponent v ≠ 2047 := of_decide_eq_true hfinite
  have hbound : binary64Exponent v < 2 ^ 11 := (v.extractLsb' 52 11).isLt
  have hscale : binary64Scale v ≤ 2046 := by
    unfold binary64Scale
    split <;> omega
  have hsignificand := binary64Significand_lt v
  have hexcess : excessBits (binary64Significand v * 1000) ≤ 10 := excessBits_le_of_lt (by omega)
  change binary64Scale v + excessBits (binary64Significand v * 1000) < _
  omega

/-- A finite positive value has the result of `to_raw` that its truncated product is. -/
theorem toRaw_binary64_of_truncatedProduct {v : Binary64} {a : Half} (hfinite : binary64Finite v = true)
    (hsign : binary64Sign v = false) (ha : truncatedProduct v = a.toNat) : toRaw binary64 v = some a := by
  have hexponent : binary64Exponent v ≠ 2047 := of_decide_eq_true hfinite
  have hfits : ¬ 2099 ≤ Nat.log2 (binary64Product1000 v).1 + (binary64Product1000 v).2 := by
    have hlt : truncatedProduct v < 2 ^ 16 := ha ▸ a.isLt
    rw [← truncScaled_product, truncScaled_eq] at hlt
    exact Nat.not_le.mpr (log2_add_lt (binary64Product1000_scale_lt hfinite) (by omega) hlt)
  rw [toRaw_eq_some_iff]
  change binary64Mul1000Trunc v = _
  simp only [binary64Mul1000Trunc, if_neg hexponent, if_neg hfits, truncScaled_product, hsign, ha]
  rfl

end Sys2Proof.Machine
end

section
/-! `to_raw` of the exact instance and of binary64: both keep the order, and they differ by at most one (R69, P5 and
P6). -/

namespace Sys2Proof.Machine

/-- Where the exact `to_raw` has a result it is the product rounded down, and zero below zero. -/
theorem toNat_of_toRaw_exact {x : Rat} {a : Half} (h : toRaw exactRational x = some a) : a.toNat = ⌊1000 * x⌋₊ := by
  have ht : Int.tdiv (1000 * x).num (1000 * x).den = a.toNat := Option.some.inj (toRaw_eq_some_iff.mp h)
  rcases le_or_gt 0 (1000 * x) with hpos | hneg
  · rw [Int.tdiv_eq_ediv_of_nonneg (Rat.num_nonneg.mpr hpos), ← Rat.floor_def] at ht
    exact Int.ofNat_inj.mp (ht.symm.trans (Int.natCast_floor_eq_floor hpos).symm)
  · rw [Nat.floor_of_nonpos hneg.le]
    have hquotient : 0 ≤ Int.tdiv (-(1000 * x).num) (1000 * x).den :=
      Int.tdiv_nonneg (neg_nonneg.mpr (Rat.num_nonpos.mpr hneg.le)) (Int.natCast_nonneg _)
    rw [Int.neg_tdiv] at hquotient
    omega

/-- Settles O11: the result is the product rounded down (`toNat_of_toRaw_exact`), which keeps the order. -/
theorem scalerExactTruncates : Obligations.ScalerExactTruncates := by
  constructor
  · intro x y a b hxy ha hb
    rw [toNat_of_toRaw_exact ha, toNat_of_toRaw_exact hb]
    exact Nat.floor_le_floor (by linarith)
  · intro x a hx ha
    rw [toNat_of_toRaw_exact ha]
    exact ⟨Nat.floor_le (by linarith), Nat.lt_floor_add_one _⟩

/-- A positive value has a magnitude of at most that of any value above it. -/
theorem binary64Magnitude_le {x y : Binary64} (hpositive : binary64Sign x = false)
    (h : binary64ToRat x ≤ binary64ToRat y) : binary64Magnitude x ≤ binary64Magnitude y := by
  have hone : (0 : Rat) < binary64One := Nat.cast_pos.mpr binary64One_pos
  rw [binary64ToRat_of_positive hpositive] at h
  rw [← Nat.cast_le (α := Rat), ← div_le_div_iff_of_pos_right hone]
  refine h.trans ?_
  cases hsign : binary64Sign y with
  | false => rw [binary64ToRat_of_positive hsign]
  | true =>
    rw [binary64ToRat_of_negative hsign]
    exact neg_le_self (div_nonneg (Nat.cast_nonneg _) hone.le)

theorem truncatedProduct_mono {x y : Binary64} (h : binary64Magnitude x ≤ binary64Magnitude y) :
    truncatedProduct x ≤ truncatedProduct y :=
  Nat.div_le_div_right (round53_mono (Nat.mul_le_mul_right 1000 h))

/-- Settles O10: the result of a negative value is zero; that of a positive one is the truncated product, which grows
with the magnitude. -/
theorem scalerBinary64Monotone : Obligations.ScalerBinary64Monotone := by
  intro x y a b hxy ha hb
  obtain ⟨hax, hxneg⟩ := toNat_of_toRaw_binary64 ha
  obtain ⟨hby, _⟩ := toNat_of_toRaw_binary64 hb
  cases hsx : binary64Sign x with
  | true =>
    rw [hxneg hsx]
    exact Nat.zero_le _
  | false =>
    rw [hax, hby]
    exact truncatedProduct_mono (binary64Magnitude_le hsx hxy)

/-- The exact product of a positive value rounded down is a quotient of natural numbers. -/
theorem floor_binary64ToRat_of_positive {x : Binary64} (hpositive : binary64Sign x = false) :
    ⌊1000 * binary64ToRat x⌋₊ = binary64Magnitude x * 1000 / binary64One := by
  rw [binary64ToRat_of_positive hpositive, ← Nat.floor_div_eq_div (K := Rat)]
  push_cast
  rw [mul_comm, div_mul_eq_mul_div]

theorem floor_binary64ToRat_of_negative {x : Binary64} (hnegative : binary64Sign x = true) :
    ⌊1000 * binary64ToRat x⌋₊ = 0 := by
  rw [binary64ToRat_of_negative hnegative]
  refine Nat.floor_of_nonpos ?_
  rw [mul_neg]
  exact neg_nonpos.mpr (by positivity)

/-- Rounding does not pass the integer below the product, nor the one above. -/
theorem round53_div_le_succ {n q k : Nat} (hq : n / 2 ^ k = q) (hsmall : q + 1 < 2 ^ 53) :
    round53 n / 2 ^ k = q ∨ round53 n / 2 ^ k = q + 1 := by
  have hk := Nat.two_pow_pos k
  have hbelow : q * 2 ^ k ≤ n := hq ▸ Nat.div_mul_le_self n (2 ^ k)
  have habove : n ≤ (q + 1) * 2 ^ k := hq ▸ (Nat.lt_mul_of_div_lt (Nat.lt_succ_self _) hk).le
  have hge := (Nat.le_div_iff_mul_le hk).mpr (le_round53 (by omega) hbelow)
  have hle := Nat.div_le_of_le_mul ((Nat.mul_comm _ _).le.trans' (round53_le hsmall habove))
  omega

/-- Settles O12: for a positive value by `round53_div_le_succ`, for a negative one both results are zero. -/
theorem scalerBinary64AtMostOneAbove : Obligations.ScalerBinary64AtMostOneAbove := by
  intro x a b ha hb
  obtain ⟨hax, hneg⟩ := toNat_of_toRaw_binary64 ha
  have hbx := toNat_of_toRaw_exact hb
  have hb16 := b.isLt
  cases hsign : binary64Sign x with
  | true =>
    rw [floor_binary64ToRat_of_negative hsign] at hbx
    exact .inl ((hneg hsign).trans hbx.symm)
  | false =>
    rw [floor_binary64ToRat_of_positive hsign] at hbx
    rw [hax]
    exact round53_div_le_succ hbx.symm (by omega)

end Sys2Proof.Machine
end

section
/-! What `div1000` of binary64 gives (R66, R70): the raw value divided by 1000 at the place of its 53rd significant bit
and rounded. -/

namespace Sys2Proof.Machine

section Pattern

variable {e m : Nat}

theorem toNat_pattern (he : e ≤ 2044) (hm : m ≤ 2 ^ 53) :
    (BitVec.ofNat 64 (e * 2 ^ 52 + m)).toNat = e * 2 ^ 52 + m := by
  rw [BitVec.toNat_ofNat]
  omega

theorem binary64Sign_eq (v : Binary64) : binary64Sign v = decide (2 ^ 63 ≤ v.toNat) :=
  BitVec.msb_eq_decide v

theorem binary64Exponent_eq (v : Binary64) : binary64Exponent v = v.toNat / 2 ^ 52 % 2 ^ 11 := by
  rw [binary64Exponent, BitVec.extractLsb'_toNat, Nat.shiftRight_eq_div_pow]

theorem binary64Fraction_eq (v : Binary64) : binary64Fraction v = v.toNat % 2 ^ 52 := by
  rw [binary64Fraction, BitVec.extractLsb'_toNat, Nat.shiftRight_zero]

theorem binary64Sign_pattern (he : e ≤ 2044) (hm : m ≤ 2 ^ 53) :
    binary64Sign (BitVec.ofNat 64 (e * 2 ^ 52 + m)) = false := by
  rw [binary64Sign_eq, toNat_pattern he hm, decide_eq_false_iff_not]
  omega

theorem binary64Finite_pattern (he : e ≤ 2044) (hm : m ≤ 2 ^ 53) :
    binary64Finite (BitVec.ofNat 64 (e * 2 ^ 52 + m)) = true := by
  refine decide_eq_true ?_
  rw [binary64Exponent_eq, toNat_pattern he hm]
  omega

theorem binary64Magnitude_of_normal {v : Binary64} (h : binary64Exponent v ≠ 0) :
    binary64Magnitude v = (2 ^ 52 + binary64Fraction v) * 2 ^ binary64Exponent v := by
  rw [binary64Magnitude, binary64Significand, binary64Scale, if_neg h, if_neg h]

/-- The pattern is that of the significand `m` at the biased exponent `e + 1`; a carry of the rounding, `m` being 2^53,
runs into the exponent. -/
theorem binary64Magnitude_pattern (he : e ≤ 2044) (hlow : 2 ^ 52 ≤ m) (hm : m ≤ 2 ^ 53) :
    binary64Magnitude (BitVec.ofNat 64 (e * 2 ^ 52 + m)) = m * 2 ^ (e + 1) := by
  have hexponent := binary64Exponent_eq (BitVec.ofNat 64 (e * 2 ^ 52 + m))
  have hfraction := binary64Fraction_eq (BitVec.ofNat 64 (e * 2 ^ 52 + m))
  rw [toNat_pattern he hm] at hexponent hfraction
  rw [binary64Magnitude_of_normal (by omega), hexponent, hfraction]
  rcases hm.eq_or_lt with hcarry | hlt
  · rw [show (e * 2 ^ 52 + m) / 2 ^ 52 % 2 ^ 11 = e + 1 + 1 by omega, show (e * 2 ^ 52 + m) % 2 ^ 52 = 0 by omega,
      hcarry]
    ring
  · rw [show (e * 2 ^ 52 + m) / 2 ^ 52 % 2 ^ 11 = e + 1 by omega,
      show 2 ^ 52 + (e * 2 ^ 52 + m) % 2 ^ 52 = m by omega]

end Pattern

section Division

/-- The place of the top bit of the quotient, as `binary64Div1000` finds it. -/
def quotientBit (raw : Half) : Nat := Nat.log2 (raw.toNat * 2 ^ 64 / 1000)

/-- The raw value scaled so that its quotient by 1000 has 53 bits before the point. -/
def scaledRaw (raw : Half) : Nat := raw.toNat * 2 ^ (116 - quotientBit raw)

/-- The significand of the quotient. -/
def quotientSignificand (raw : Half) : Nat := roundNearestEven (scaledRaw raw) 1000

variable {raw : Half}

theorem toNat_pos_of_ne_zero (h : raw ≠ 0) : 0 < raw.toNat :=
  Nat.pos_of_ne_zero fun hzero => h (BitVec.eq_of_toNat_eq hzero)

theorem quotientBit_spec (h : raw ≠ 0) :
    1000 * 2 ^ quotientBit raw ≤ raw.toNat * 2 ^ 64 ∧ raw.toNat * 2 ^ 64 < 1000 * 2 ^ (quotientBit raw + 1) := by
  have hpos := toNat_pos_of_ne_zero h
  have hne : raw.toNat * 2 ^ 64 / 1000 ≠ 0 := by omega
  have hle := Nat.log2_self_le hne
  have hlt := Nat.lt_log2_self (n := raw.toNat * 2 ^ 64 / 1000)
  rw [quotientBit]
  omega

theorem quotientBit_range (h : raw ≠ 0) : 54 ≤ quotientBit raw ∧ quotientBit raw ≤ 70 := by
  have hpos := toNat_pos_of_ne_zero h
  have hlt := raw.isLt
  have hne : raw.toNat * 2 ^ 64 / 1000 ≠ 0 := by omega
  rw [quotientBit]
  exact ⟨(Nat.le_log2 hne).mpr (by omega), Nat.le_of_lt_succ ((Nat.log2_lt hne).mpr (by omega))⟩

theorem scaledRaw_range (h : raw ≠ 0) : 1000 * 2 ^ 52 ≤ scaledRaw raw ∧ scaledRaw raw < 1000 * 2 ^ 53 := by
  obtain ⟨hle, hlt⟩ := quotientBit_spec h
  obtain ⟨_, hmost⟩ := quotientBit_range h
  have hplace : 2 ^ quotientBit raw * 2 ^ (116 - quotientBit raw) = 2 ^ 52 * 2 ^ 64 := by
    rw [← Nat.pow_add, ← Nat.pow_add, Nat.add_sub_cancel' (by omega)]
  have hplace' : 2 ^ (quotientBit raw + 1) * 2 ^ (116 - quotientBit raw) = 2 ^ 53 * 2 ^ 64 := by
    rw [Nat.pow_succ, Nat.mul_right_comm, hplace, Nat.mul_right_comm, ← Nat.pow_succ]
  have hscaled : scaledRaw raw * 2 ^ 64 = raw.toNat * 2 ^ 64 * 2 ^ (116 - quotientBit raw) := Nat.mul_right_comm ..
  have hle' := Nat.mul_le_mul_right (2 ^ (116 - quotientBit raw)) hle
  have hlt' := Nat.mul_lt_mul_of_pos_right hlt (Nat.two_pow_pos (116 - quotientBit raw))
  rw [Nat.mul_assoc, hplace, ← hscaled] at hle'
  rw [← hscaled, Nat.mul_assoc, hplace'] at hlt'
  omega

theorem quotientSignificand_range (h : raw ≠ 0) :
    2 ^ 52 ≤ quotientSignificand raw ∧ quotientSignificand raw ≤ 2 ^ 53 := by
  obtain ⟨hle, hlt⟩ := scaledRaw_range h
  have hlow := roundNearestEven_mono (d := 1000) (by omega) hle
  have hhigh := roundNearestEven_mono (d := 1000) (by omega) hlt.le
  rw [roundNearestEven_mul_self _ (by omega)] at hlow hhigh
  exact ⟨hlow, hhigh⟩

theorem toEngineering_binary64_of_ne_zero (h : raw ≠ 0) :
    toEngineering binary64 raw = BitVec.ofNat 64 ((quotientBit raw + 958) * 2 ^ 52 + quotientSignificand raw) :=
  if_neg h

theorem binary64Sign_toEngineering (h : raw ≠ 0) : binary64Sign (toEngineering binary64 raw) = false := by
  obtain ⟨_, hbit⟩ := quotientBit_range h
  obtain ⟨_, hsignificand⟩ := quotientSignificand_range h
  rw [toEngineering_binary64_of_ne_zero h, binary64Sign_pattern (by omega) hsignificand]

theorem binary64Finite_toEngineering (h : raw ≠ 0) : binary64Finite (toEngineering binary64 raw) = true := by
  obtain ⟨_, hbit⟩ := quotientBit_range h
  obtain ⟨_, hsignificand⟩ := quotientSignificand_range h
  rw [toEngineering_binary64_of_ne_zero h, binary64Finite_pattern (by omega) hsignificand]

theorem binary64Magnitude_toEngineering (h : raw ≠ 0) :
    binary64Magnitude (toEngineering binary64 raw) = quotientSignificand raw * 2 ^ (quotientBit raw + 959) := by
  obtain ⟨_, hbit⟩ := quotientBit_range h
  obtain ⟨hlow, hhigh⟩ := quotientSignificand_range h
  rw [toEngineering_binary64_of_ne_zero h, binary64Magnitude_pattern (by omega) hlow hhigh]

/-- The scale of the quotient takes the scaled raw value to the unit of the magnitudes. -/
theorem binary64One_eq (h : raw ≠ 0) : binary64One = 2 ^ (116 - quotientBit raw) * 2 ^ (quotientBit raw + 959) := by
  obtain ⟨_, hbit⟩ := quotientBit_range h
  have hscale : 116 - quotientBit raw + (quotientBit raw + 959) = 1075 := by omega
  rw [← Nat.pow_add, hscale, binary64One]

/-- What comes back from a raw value: the product of its quotient, both without the scale, rounded and truncated. -/
def roundTrip (raw : Half) : Nat := round53 (quotientSignificand raw * 1000) / 2 ^ (116 - quotientBit raw)

theorem truncatedProduct_toEngineering (h : raw ≠ 0) :
    truncatedProduct (toEngineering binary64 raw) = roundTrip raw := by
  rw [truncatedProduct, binary64Magnitude_toEngineering h, Nat.mul_right_comm, round53_scaled, binary64One_eq h,
    Nat.mul_div_mul_right _ _ (Nat.two_pow_pos _), roundTrip]

theorem toRaw_toEngineering_binary64 {a : Half} (h : raw ≠ 0) (ha : roundTrip raw = a.toNat) :
    toRaw binary64 (toEngineering binary64 raw) = some a :=
  toRaw_binary64_of_truncatedProduct (binary64Finite_toEngineering h) (binary64Sign_toEngineering h)
    ((truncatedProduct_toEngineering h).trans ha)

theorem toEngineering_binary64_zero : toEngineering binary64 0 = 0 := rfl

theorem binary64ToRat_zero : binary64ToRat 0 = 0 := by
  have hmagnitude : binary64Magnitude 0 = 0 := by decide
  rw [binary64ToRat_of_positive (by decide), hmagnitude, Nat.cast_zero, zero_div]

theorem toRaw_toEngineering_binary64_zero : toRaw binary64 (toEngineering binary64 0) = some 0 := by decide

end Division

end Sys2Proof.Machine
end

section
/-! The round trip of the scaler in binary64 (R69): it loses at most one unit, downward, none at the multiples of 1000,
and none where the product has ten excess bits. -/

namespace Sys2Proof.Machine

variable {raw : Half}

/-- The product of the quotient is off by at most half of 1000. -/
theorem product_within_half (raw : Half) :
    scaledRaw raw ≤ quotientSignificand raw * 1000 + 500 ∧ quotientSignificand raw * 1000 ≤ scaledRaw raw + 500 := by
  have hwithin := roundNearestEven_within_half (scaledRaw raw) (d := 1000) (by omega)
  rw [← quotientSignificand] at hwithin
  omega

/-- What comes back is the raw value or the one below it: there is half a unit between the product and the raw value
above, and a whole one between it and the raw value below. -/
theorem roundTrip_within_one (h : raw ≠ 0) : raw.toNat ≤ roundTrip raw + 1 ∧ roundTrip raw ≤ raw.toNat := by
  obtain ⟨hbelow, habove⟩ := product_within_half raw
  obtain ⟨_, hbit⟩ := quotientBit_range h
  obtain ⟨k, hk, hlarge⟩ : ∃ k, 116 - quotientBit raw = k + 1 ∧ 45 ≤ k := ⟨115 - quotientBit raw, by omega, by omega⟩
  have hunit : 2 ^ 45 ≤ 2 ^ k := Nat.pow_le_pow_right Nat.two_pos hlarge
  have hlt := raw.isLt
  rw [scaledRaw, hk, Nat.pow_succ] at hbelow habove
  have hhigh : round53 (quotientSignificand raw * 1000) ≤ (2 * raw.toNat + 1) * 2 ^ k :=
    round53_le (by omega) (by linarith)
  have hlow : (raw.toNat - 1) * 2 ^ (k + 1) ≤ round53 (quotientSignificand raw * 1000) :=
    le_round53 (by omega) (by rw [Nat.sub_mul, Nat.pow_succ]; omega)
  rw [roundTrip, hk]
  constructor
  · have hquotient := (Nat.le_div_iff_mul_le (Nat.two_pow_pos (k + 1))).mpr hlow
    omega
  · refine Nat.le_of_lt_succ (Nat.div_lt_of_lt_mul ?_)
    rw [Nat.pow_succ]
    linarith

/-- Settles O6: zero is exact, and any other value by `roundTrip_within_one`. -/
theorem scalerBinary64RoundTripWithinOne : Obligations.ScalerBinary64RoundTripWithinOne := by
  intro raw
  by_cases h : raw = 0
  · exact ⟨0, h ▸ toRaw_toEngineering_binary64_zero, by simp [h]⟩
  · obtain ⟨hlow, hhigh⟩ := roundTrip_within_one h
    have hback : (BitVec.ofNat 16 (roundTrip raw)).toNat = roundTrip raw := by
      rw [BitVec.toNat_ofNat, Nat.mod_eq_of_lt (hhigh.trans_lt raw.isLt)]
    exact ⟨_, toRaw_toEngineering_binary64 h hback.symm, by rwa [hback], by rwa [hback]⟩

/-- A raw value comes back if its product is not rounded below it. -/
theorem toRaw_toEngineering_binary64_self (h : raw ≠ 0)
    (hle : scaledRaw raw ≤ round53 (quotientSignificand raw * 1000)) :
    toRaw binary64 (toEngineering binary64 raw) = some raw := by
  obtain ⟨_, hhigh⟩ := roundTrip_within_one h
  exact toRaw_toEngineering_binary64 h (hhigh.antisymm ((Nat.le_div_iff_mul_le (Nat.two_pow_pos _)).mpr hle))

/-- A raw value comes back if its product has ten excess bits: the error of the quotient, at most 500, is then less than
half the unit the product is rounded to. -/
theorem toRaw_toEngineering_binary64_of_large (h : raw ≠ 0) (hlarge : 2 ^ 62 ≤ scaledRaw raw) :
    toRaw binary64 (toEngineering binary64 raw) = some raw := by
  refine toRaw_toEngineering_binary64_self h ?_
  obtain ⟨hbelow, _⟩ := product_within_half raw
  obtain ⟨_, hbit⟩ := quotientBit_range h
  obtain ⟨_, hsignificand⟩ := quotientSignificand_range h
  have hproduct : 2 ^ 62 ≤ quotientSignificand raw * 1000 := by
    have hquotient : roundNearestEven (2 ^ 62) 1000 = 4611686018427388 := rfl
    have hmono := roundNearestEven_mono (d := 1000) (by omega) hlarge
    rw [hquotient, ← quotientSignificand] at hmono
    omega
  have hlog : Nat.log2 (quotientSignificand raw * 1000) = 62 :=
    (Nat.log2_eq_iff (by omega)).mpr ⟨hproduct, by omega⟩
  have hexcess : excessBits (quotientSignificand raw * 1000) = 10 := by
    have hplace := excessBits_of_le (n := quotientSignificand raw * 1000) (by omega)
    omega
  obtain ⟨c, hc⟩ : 2 ^ 10 ∣ scaledRaw raw := (Nat.pow_dvd_pow 2 (by omega)).mul_left raw.toNat
  have hwithin := roundNearestEven_within_half (quotientSignificand raw * 1000) (Nat.two_pow_pos 10)
  rw [round53, hexcess, hc]
  rw [hc] at hbelow
  omega

/-- Below 1001 all but these raw values, whose leading digits in binary are those of 1000 to 1023, have a product of ten
excess bits: the place of the quotient's top bit bounds the raw value from below, and a small product from above. -/
theorem scaledRaw_large_or_few (h : raw ≠ 0) (hlt : raw.toNat < 1001) :
    2 ^ 62 ≤ scaledRaw raw ∨ raw.toNat = 63 ∨ 125 ≤ raw.toNat ∧ raw.toNat < 128 ∨
      250 ≤ raw.toNat ∧ raw.toNat < 256 ∨ 500 ≤ raw.toNat ∧ raw.toNat < 512 ∨ raw.toNat = 1000 := by
  obtain ⟨hleast, hmost⟩ := quotientBit_range h
  obtain ⟨hlow, _⟩ := scaledRaw_range h
  rw [scaledRaw] at hlow ⊢
  interval_cases quotientBit raw <;> omega

/-- The raw values below 1001 whose product may have nine excess bits, and those above 65526, come back. -/
theorem toRaw_toEngineering_binary64_few :
    ∀ n ∈ [63, 125, 126, 127, 250, 251, 252, 253, 254, 255, 500, 501, 502, 503, 504, 505, 506, 507, 508, 509, 510, 511,
        1000, 65527, 65528, 65529, 65530, 65531, 65532, 65533, 65534, 65535],
      toRaw binary64 (toEngineering binary64 (BitVec.ofNat 16 n)) = some (BitVec.ofNat 16 n) := by
  decide

/-- Settles O8: the two losses by evaluation; below 1001 a product has ten excess bits, but for a few values, and those
few and the nine above 65526 by evaluation. -/
theorem scalerBinary64FirstAndLastLoss : Obligations.ScalerBinary64FirstAndLastLoss := by
  refine ⟨by decide, by decide, fun n hn => ?_, fun n hlow hhigh => ?_⟩
  · by_cases hzero : BitVec.ofNat 16 n = 0
    · rw [hzero]
      exact toRaw_toEngineering_binary64_zero
    have hnat : (BitVec.ofNat 16 n).toNat = n := Nat.mod_eq_of_lt (by omega)
    rcases scaledRaw_large_or_few hzero (by omega) with hlarge | hfew
    · exact toRaw_toEngineering_binary64_of_large hzero hlarge
    · refine toRaw_toEngineering_binary64_few n ?_
      rw [hnat] at hfew
      simp only [List.mem_cons, List.not_mem_nil, or_false]
      omega
  · refine toRaw_toEngineering_binary64_few n ?_
    simp only [List.mem_cons, List.not_mem_nil, or_false]
    omega

/-- The quotient of a multiple of 1000 is exact. -/
theorem quotientSignificand_of_thousand {k : Nat} (h : raw.toNat = 1000 * k) :
    quotientSignificand raw = k * 2 ^ (116 - quotientBit raw) := by
  rw [quotientSignificand, scaledRaw, h, Nat.mul_assoc, roundNearestEven_mul_self _ (by omega)]

/-- Settles O9: the quotient is exact, and its product has no more than 53 bits at its scale. -/
theorem scalerBinary64ExactOnThousands : Obligations.ScalerBinary64ExactOnThousands := by
  intro k hk
  have hnat : (BitVec.ofNat 16 (1000 * k)).toNat = 1000 * k := Nat.mod_eq_of_lt (by omega)
  by_cases hzero : BitVec.ofNat 16 (1000 * k) = 0
  · obtain rfl : k = 0 := by
      rw [hzero] at hnat
      have hzero' : (0 : Half).toNat = 0 := rfl
      omega
    exact ⟨binary64ToRat_zero.trans Nat.cast_zero.symm, toRaw_toEngineering_binary64_zero⟩
  have hquotient := quotientSignificand_of_thousand hnat
  constructor
  · rw [binary64ToRat_of_positive (binary64Sign_toEngineering hzero), binary64Magnitude_toEngineering hzero,
      hquotient, Nat.mul_assoc, ← binary64One_eq hzero, Nat.cast_mul]
    exact mul_div_cancel_right₀ _ (Nat.cast_ne_zero.mpr binary64One_pos.ne')
  · refine toRaw_toEngineering_binary64_self hzero ?_
    rw [hquotient, Nat.mul_right_comm, round53_mul_two_pow (by omega), scaledRaw, hnat, Nat.mul_comm 1000]

end Sys2Proof.Machine
end

section
/-! The quotient of binary64 is correctly rounded (R66, R70): no finite value is nearer. -/

namespace Sys2Proof.Machine

/-- A finite value is an integer number of units, and at or above the place of a scale a multiple of that scale. -/
theorem exists_int_binary64ToRat (v : Binary64) (g : Nat) :
    ∃ z : Int, binary64ToRat v = (z : Rat) / binary64One ∧
      (z < 2 ^ 52 * (2 ^ g : Nat) ∨ ((2 ^ g : Nat) : Int) ∣ z) := by
  cases hsign : binary64Sign v with
  | true =>
    refine ⟨-(binary64Magnitude v : Int), ?_, .inl ?_⟩
    · rw [binary64ToRat_of_negative hsign]
      push_cast
      ring
    · have hplace := Nat.two_pow_pos g
      omega
  | false =>
    refine ⟨binary64Magnitude v, by rw [binary64ToRat_of_positive hsign, Int.cast_natCast], ?_⟩
    rcases Nat.lt_or_ge (binary64Magnitude v) (2 ^ 52 * 2 ^ g) with hsmall | hlarge
    · exact .inl (by exact_mod_cast hsmall)
    · refine .inr (Int.natCast_dvd_natCast.mpr ?_)
      have hlt : binary64Magnitude v < 2 ^ 53 * 2 ^ binary64Scale v :=
        Nat.mul_lt_mul_of_pos_right (binary64Significand_lt v) (Nat.two_pow_pos _)
      have hscale : 2 ^ (52 + g) < 2 ^ (53 + binary64Scale v) := by
        rw [Nat.pow_add, Nat.pow_add]
        exact hlarge.trans_lt hlt
      have hplace := (Nat.pow_lt_pow_iff_right Nat.one_lt_two).mp hscale
      exact (Nat.pow_dvd_pow 2 (by omega)).mul_left _

/-- Against the multiples of a scale, and everything below 2^52 of them, the rounded quotient is nearest. -/
theorem roundNearestEven_nearest_scaled {n d c s : Nat} {z : Int} (hd : 0 < d) (hn : d * c ≤ n)
    (hz : z < c * s ∨ (s : Int) ∣ z) :
    |(d : Int) * (roundNearestEven n d * s) - n * s| ≤ |(d : Int) * z - n * s| := by
  have hfactor (k : Int) : |(d : Int) * (k * s) - n * s| = |d * k - n| * s := by
    rw [← Nat.abs_cast s, ← abs_mul, Nat.abs_cast]
    ring_nf
  rw [hfactor]
  rcases hz with hsmall | ⟨k, rfl⟩
  · have hnearest := mul_le_mul_of_nonneg_right (roundNearestEven_nearest n hd c) (Int.natCast_nonneg s)
    refine hnearest.trans ?_
    rw [← hfactor]
    have hbelow : (d : Int) * z ≤ d * (c * s) := mul_le_mul_of_nonneg_left hsmall.le (Int.natCast_nonneg d)
    have hc : (d : Int) * (c * s) ≤ n * s := by
      rw [← mul_assoc]
      exact_mod_cast Nat.mul_le_mul_right s hn
    rw [abs_of_nonpos (by omega), abs_of_nonpos (by omega)]
    omega
  · rw [mul_comm (s : Int), hfactor]
    exact mul_le_mul_of_nonneg_right (roundNearestEven_nearest n hd k) (Int.natCast_nonneg s)

/-- The distance of an integer number of units from raw / 1000. -/
theorem abs_sub_div_thousand (z : Int) (r : Nat) :
    |(z : Rat) / binary64One - (r : Rat) / 1000| = (|1000 * z - r * binary64One| : Int) / (1000 * binary64One) := by
  have hone : (0 : Rat) < binary64One := Nat.cast_pos.mpr binary64One_pos
  have hdenominator : (0 : Rat) < 1000 * binary64One := mul_pos (by norm_num) hone
  push_cast
  rw [div_sub_div _ _ hone.ne' (by norm_num), abs_div, mul_comm (binary64One : Rat) 1000, abs_of_pos hdenominator,
    mul_comm (z : Rat), mul_comm (binary64One : Rat)]

/-- No integer number of units is nearer to a raw value divided by 1000 than its quotient, if it is one that binary64
has. -/
theorem quotient_nearest {raw : Half} (h : raw ≠ 0) {z : Int}
    (hz : z < 2 ^ 52 * (2 ^ (quotientBit raw + 959) : Nat) ∨ ((2 ^ (quotientBit raw + 959) : Nat) : Int) ∣ z) :
    |1000 * (binary64Magnitude (toEngineering binary64 raw) : Int) - raw.toNat * binary64One| ≤
      |1000 * z - raw.toNat * binary64One| := by
  have hscaled : raw.toNat * binary64One = scaledRaw raw * 2 ^ (quotientBit raw + 959) := by
    rw [scaledRaw, binary64One_eq h, ← Nat.mul_assoc]
  obtain ⟨hlow, _⟩ := scaledRaw_range h
  rw [binary64Magnitude_toEngineering h, ← Nat.cast_mul raw.toNat, hscaled, Nat.cast_mul, Nat.cast_mul]
  exact roundNearestEven_nearest_scaled (d := 1000) (by omega) hlow hz

/-- Settles O5: as integers the quotient is nearest (`quotient_nearest`), and the distances are those of the integers,
scaled. -/
theorem div1000CorrectlyRounded : Obligations.Div1000CorrectlyRounded := by
  intro raw
  change binary64Finite (toEngineering binary64 raw) = true ∧ ∀ y, _ →
    |binary64ToRat (toEngineering binary64 raw) - _| ≤ _
  by_cases h : raw = 0
  · rw [h, toEngineering_binary64_zero, binary64ToRat_zero]
    exact ⟨by decide, fun y _ => by simp⟩
  refine ⟨binary64Finite_toEngineering h, fun y _ => ?_⟩
  obtain ⟨z, hz, hplace⟩ := exists_int_binary64ToRat y (quotientBit raw + 959)
  rw [binary64ToRat_of_positive (binary64Sign_toEngineering h), ← Int.cast_natCast, hz, abs_sub_div_thousand,
    abs_sub_div_thousand]
  have hpositive : (0 : Rat) ≤ 1000 * binary64One := mul_nonneg (by norm_num) (Nat.cast_nonneg _)
  exact div_le_div_of_nonneg_right (Int.cast_le.mpr (quotient_nearest h hplace)) hpositive

end Sys2Proof.Machine
end

section
/-! The bit-bank codec and the UART word (R59, R61 to R64, R77). -/

namespace Sys2Proof.Machine

/-- A sequence of eight is a bank, channel 0 first. -/
theorem exists_toList_of_length {α : Type} {s : List α} (h : s.length = 8) : ∃ o : Oct α, o.toList = s := by
  match s, h with
  | [a, b, c, d, e, f, g, i], _ => exact ⟨⟨a, b, c, d, e, f, g, i⟩, rfl⟩

/-- Packing a bank's sequence is encoding the bank (R62, R63). -/
theorem packBits_toList (r : Bank) : packBits r.toList = encodeBank r := by
  simp [packBits, packFrom, Oct.toList, encodeBank, Nat.add_assoc]

theorem decodeBank_encodeBank (r : Bank) : decodeBank (encodeBank r) = r := by
  obtain ⟨a, b, c, d, e, f, g, h⟩ := r
  revert a b c d e f g h
  decide

theorem decodeBank_bijective : Function.Bijective decodeBank :=
  Function.bijective_iff_has_inverse.mpr ⟨encodeBank, encodeBank_decodeBank, decodeBank_encodeBank⟩

theorem encodeBank_bijective : Function.Bijective encodeBank :=
  Function.bijective_iff_has_inverse.mpr ⟨decodeBank, decodeBank_encodeBank, encodeBank_decodeBank⟩

theorem packBits_unpackBits (w : Byte) : packBits (unpackBits w) = w := by
  rw [unpackBits, packBits_toList, encodeBank_decodeBank]

theorem unpackBits_packBits {s : List Bool} (h : s.length = 8) : unpackBits (packBits s) = s := by
  obtain ⟨r, rfl⟩ := exists_toList_of_length h
  rw [packBits_toList, unpackBits, decodeBank_encodeBank]

/-- Settles O1: decode and encode are inverse to each other, and packing is encoding. -/
theorem bankCodecLaws : Obligations.BankCodecLaws :=
  ⟨decodeBank_encodeBank, encodeBank_decodeBank, packBits_unpackBits, fun _ => unpackBits_packBits,
    fun _ _ => encodeBank_decodeBank _, decodeBank_bijective, encodeBank_bijective,
    fun _ _ => by simp only [decodeBank, BitVec.getLsbD_or]⟩

/-- The UART word as a number: the two codes do not overlap. -/
theorem uartWord_toNat (baud : Half) (parity : Byte) :
    (uartWord baud parity).toNat = parity.toNat * 65536 + baud.toNat := by
  have hbaud := baud.isLt
  have hparity := parity.isLt
  rw [uartWord, BitVec.toNat_or, BitVec.toNat_shiftLeft, BitVec.toNat_setWidth, BitVec.toNat_setWidth,
    Nat.mod_eq_of_lt (a := parity.toNat) (by omega), Nat.mod_eq_of_lt (a := baud.toNat) (by omega),
    Nat.shiftLeft_eq, Nat.mod_eq_of_lt (by omega), ← Nat.shiftLeft_eq, ← Nat.shiftLeft_add_eq_or_of_lt hbaud,
    Nat.shiftLeft_eq]

/-- Settles O2: the fields of the number `uartWord_toNat`. -/
theorem uartWordFields : Obligations.UartWordFields := by
  intro baud parity
  have hbaud := baud.isLt
  have hparity := parity.isLt
  have hword := uartWord_toNat baud parity
  have hfield (start n : Nat) : ((uartWord baud parity).extractLsb' start n).toNat =
      (parity.toNat * 65536 + baud.toNat) / 2 ^ start % 2 ^ n := by
    rw [BitVec.extractLsb'_toNat, hword, Nat.shiftRight_eq_div_pow]
  refine ⟨BitVec.eq_of_toNat_eq ?_, BitVec.eq_of_toNat_eq ?_, BitVec.eq_of_toNat_eq ?_, hword⟩
  · rw [hfield]
    omega
  · rw [hfield]
    omega
  · rw [hfield]
    change _ = 0
    omega

end Sys2Proof.Machine
end

section
/-! SETUART and the analog commands of one call (R77, R95, R97 to R99, R107), and the same on an instance built with the
exact NUM (R65, R69). -/

namespace Sys2Proof.Machine

/-- Settles O45: one HOLDING write of the word, which is the number `uartWord_toNat`, at the family's base. -/
theorem setuartHandsOverWholeWord : Obligations.SetuartHandsOverWholeWord := by
  rintro baud parity s c rfl
  refine exec_oneCall_done ?_ fun _ => rfl
  change _ = oneCall (.writeHolding (uartParametersBase s.built) _ s.tag) .none
  rw [← uartWord_toNat, BitVec.ofNat_toNat, BitVec.setWidth_eq, planOf, planSetuart, memWriteHolding, mapAddr_zero]

section OneRead

variable {i : Instr} {s : State} {c : Call} {reply : Reply} {n : Nat}

theorem acceptWords_of_length {u : List Half} (h : u.length = n) : acceptWords n (.words u) = some ⟨[], u⟩ :=
  if_pos h

/-- An answer to a register read that is not as many words is a failed one (R29). -/
theorem acceptWords_eq_none {a : Answer} (h : ∀ u : List Half, u.length = n → a ≠ .words u) :
    acceptWords n a = none := by
  cases a with
  | words u => exact if_neg fun hlength => h u hlength rfl
  | done | bits | failure => rfl

/-- What a command of one register read does: OK with the result of the words read, a TransportFailure on any other
answer, in flight without one. -/
theorem exec_oneCall_words (hplan : planOf i s = oneCall c reply) (hkind : ∀ a, accept c a = acceptWords n a) :
    (∀ u rest, u.length = n → s.ansIn = .words u :: rest →
      exec i s = .next (s.afterCall c (.words u) rest
        ⟨.ok, 1, replyPayload (numOf s.built.num) reply ⟨[], u⟩⟩)) ∧
    (∀ a rest, s.ansIn = a :: rest → (∀ u : List Half, u.length = n → a ≠ .words u) →
      exec i s = .next (s.afterCall c a rest ⟨.transportFailure, 0, .none⟩)) ∧
    (s.ansIn = [] → exec i s = .next (s.awaiting i c)) :=
  ⟨fun _ _ hlength hans => exec_oneCall_accepted hplan hans ((hkind _).trans (acceptWords_of_length hlength)),
    fun a _ hans ha => exec_oneCall_failed hplan hans ((hkind a).trans (acceptWords_eq_none ha)),
    exec_oneCall_waits hplan⟩

/-- No single word is no list of one. -/
theorem ne_words_of_length_one {a : Answer} (h : ∀ v, a ≠ .words [v]) (u : List Half) (hlength : u.length = 1) :
    a ≠ .words u := by
  obtain ⟨v, rfl⟩ := List.length_eq_one_iff.mp hlength
  exact h v

/-- No eight words are no list of eight. -/
theorem ne_words_of_length_eight {a : Answer} (h : ∀ r : Oct Half, a ≠ .words r.toList) (u : List Half)
    (hlength : u.length = 8) : a ≠ .words u := by
  obtain ⟨r, rfl⟩ := exists_toList_of_length hlength
  exact h r

end OneRead

/-- Settles O54: one read of one INPUT register when the channel check passes. -/
theorem aiRdchReturnsEngineeringValue : Obligations.AiRdchReturnsEngineeringValue := by
  rintro ch s c rfl
  refine ⟨fun hch => ?_, fun hch => exec_of_raise (withChannel_illegal hch _)⟩
  have hplan : planOf (.aiRdch ch) s =
      oneCall (.readInputs (addressAt s.built.ai.inputChannelsBase ch.toNat) 1 s.tag) .value := by
    rw [planOf, planAiRdch, withChannel_legal hch, mapAddr_addr, memRead]
  obtain ⟨hok, hfailed, hwaits⟩ := exec_oneCall_words hplan fun _ => rfl
  exact ⟨fun v rest hans => hok [v] rest rfl hans,
    fun a rest hans ha => hfailed a rest hans (ne_words_of_length_one ha), hwaits⟩

/-- Settles O58: one read of eight HOLDING registers. -/
theorem aoGetvalsReturnsEightValues : Obligations.AoGetvalsReturnsEightValues := by
  rintro s c rfl
  have hplan : planOf .aoGetvals s = oneCall (.readHoldings (addressAt s.built.ao.outputsBase 0) 8 s.tag) .values := by
    rw [planOf, planAoGetvals, mapAddr_addr, memRead]
  obtain ⟨hok, hfailed, hwaits⟩ := exec_oneCall_words hplan fun _ => rfl
  exact ⟨fun r rest hans => hok r.toList rest rfl hans,
    fun a rest hans ha => hfailed a rest hans (ne_words_of_length_eight ha), hwaits⟩

/-- Settles O56: the channel check is first; a converted value is one HOLDING write. -/
theorem aoSetchWritesRawValue : Obligations.AoSetchWritesRawValue := by
  intro ch value s
  refine ⟨?_, fun hch => exec_of_raise (withChannel_illegal hch _)⟩
  rintro raw c hch hraw rfl
  refine exec_oneCall_done ?_ fun _ => rfl
  simp only [planOf, planAoSetch, withChannel_legal hch, hraw, mapAddr_addr, memWriteHolding, BitVec.ofNat_toNat]

section RawValues

variable {F : Type} {num : Num F} {values : Oct F}

/-- The eight conversions have results exactly if each has. -/
theorem rawValues_eq_some_iff {raws : Oct Half} :
    rawValues num values = some raws ↔ values.map (toRaw num) = raws.map some := by
  constructor
  · intro h
    unfold rawValues at h
    split at h
    · cases h
      simp_all only [Oct.map]
    · cases h
  · intro h
    simp only [Oct.map, Oct.mk.injEq] at h
    obtain ⟨h0, h1, h2, h3, h4, h5, h6, h7⟩ := h
    simp only [rawValues, h0, h1, h2, h3, h4, h5, h6, h7]

theorem rawValues_eq_none_iff : rawValues num values = none ↔ ∃ v ∈ values.toList, toRaw num v = none := by
  unfold rawValues
  split
  · simp_all [Oct.toList]
  next hnone =>
    refine iff_of_true rfl ?_
    by_contra hall
    simp only [Oct.toList, List.mem_cons, List.not_mem_nil, or_false, exists_eq_or_imp, exists_eq_left, not_or,
      ← ne_eq, Option.ne_none_iff_exists'] at hall
    obtain ⟨⟨_, h0⟩, ⟨_, h1⟩, ⟨_, h2⟩, ⟨_, h3⟩, ⟨_, h4⟩, ⟨_, h5⟩, ⟨_, h6⟩, ⟨_, h7⟩⟩ := hall
    exact hnone _ _ _ _ _ _ _ _ h0 h1 h2 h3 h4 h5 h6 h7

end RawValues

/-- Settles O57: eight converted values are one write of eight registers. -/
theorem aoSetchsWritesEightRegisters : Obligations.AoSetchsWritesEightRegisters := by
  rintro values raws s c hraws rfl
  refine exec_oneCall_done ?_ fun _ => rfl
  simp only [planOf, planAoSetchs, rawValues_eq_some_iff.mpr hraws, mapAddr_addr, memWriteHoldings]

theorem toRaw_toEngineering_exact (v : Half) : toRaw exactRational (toEngineering exactRational v) = some v := by
  have hproduct : 1000 * ((v.toNat : Rat) / 1000) = v.toNat := mul_div_cancel₀ _ (by norm_num)
  rw [toRaw_eq_some_iff]
  change some (Int.tdiv (1000 * ((v.toNat : Rat) / 1000)).num (1000 * ((v.toNat : Rat) / 1000)).den) = _
  rw [hproduct, Rat.num_natCast, Rat.den_natCast, Nat.cast_one, Int.tdiv_one]

/-- Settles O7: the exact product of the exact quotient is the raw value; on an instance the two commands are those of
every NUM (O54, O56). -/
theorem scalerExactRoundTrip : Obligations.ScalerExactRoundTrip := by
  refine ⟨toRaw_toEngineering_exact, toEngineering_exact, fun w ch v s hnum hch => ⟨fun hans => ?_, fun hans => ?_⟩⟩
  · obtain ⟨hlegal, _⟩ := aiRdchReturnsEngineeringValue ch s _ rfl
    obtain ⟨hok, _⟩ := hlegal hch
    rw [hok v [] hans, hnum, toEngineering_exact]
    rfl
  · obtain ⟨hlegal, _⟩ := aoSetchWritesRawValue ch (.rational ((v.toNat : Rat) / 1000)) s
    have hraw : toRaw (numOf s.built.num) (.rational ((v.toNat : Rat) / 1000)) = some v := by
      rw [hnum, toRaw_exact]
      exact toRaw_toEngineering_exact v
    obtain ⟨hok, _⟩ := hlegal v _ hch hraw rfl
    exact hok [] hans

end Sys2Proof.Machine
end

section
/-! Which commands are refused (R68, R100, R107). -/

namespace Sys2Proof.Machine

theorem startCommand_eq_refused_iff {i : Instr} {p : Plan} {s : State} {q : Refusal} :
    startCommand i p s = .refused q ↔ p = .refuse q := by
  cases p <;> simp

theorem planOf_aoSetch_eq_refuse_iff {ch : Byte} {v : EngValue} {s : State} {q : Refusal} :
    planOf (.aoSetch ch v) s = .refuse q ↔
      q = .valueOutsideScalerDomain ∧ ch.toNat ≤ 7 ∧ toRaw (numOf s.built.num) v = none := by
  rw [planOf, planAoSetch]
  rcases Nat.lt_or_ge 7 ch.toNat with hbeyond | hch
  · simp [withChannel_illegal hbeyond, Nat.not_le.mpr hbeyond]
  · rw [withChannel_legal hch]
    cases toRaw (numOf s.built.num) v with
    | none => simp [hch, eq_comm]
    | some raw => simp [oneCall]

theorem planOf_aoSetchs_eq_refuse_iff {vs : Oct EngValue} {s : State} {q : Refusal} :
    planOf (.aoSetchs vs) s = .refuse q ↔
      q = .valueOutsideScalerDomain ∧ ∃ v ∈ vs.toList, toRaw (numOf s.built.num) v = none := by
  rw [← rawValues_eq_none_iff, planOf, planAoSetchs]
  cases rawValues (numOf s.built.num) vs with
  | none => simp [eq_comm]
  | some raws => simp [oneCall]

theorem withChannel_ne_refuse {p : Plan} {q : Refusal} (c : Byte) (h : p ≠ .refuse q) :
    withChannel c p ≠ .refuse q := by
  unfold withChannel
  split
  · exact h
  · exact nofun

theorem withBatch_ne_refuse {p : Plan} {q : Refusal} (start : Byte) (n : Nat) (h : p ≠ .refuse q) :
    withBatch start n p ≠ .refuse q := by
  unfold withBatch
  split
  · exact h
  · exact nofun

/-- Only AO.SETCH and AO.SETCHS can be refused (R100). -/
theorem planOf_ne_refuse {i : Instr} {q : Refusal} (hset : ∀ ch v, i ≠ .aoSetch ch v) (hsets : ∀ vs, i ≠ .aoSetchs vs)
    (s : State) : planOf i s ≠ .refuse q := by
  cases i with
  | aoSetch ch v => exact absurd rfl (hset ch v)
  | aoSetchs vs => exact absurd rfl (hsets vs)
  | settag | setaddr =>
    simp only [planOf, planSettag, planSetaddr]
    split <;> exact nofun
  | dioSetchs | rlySetchs => exact withBatch_ne_refuse _ _ nofun
  | dioSetch | dioSetmode | rlySetch | rlyOpen | rlyClose | aiSettype | aiRdch => exact withChannel_ne_refuse _ nofun
  | connect | setuart | rdver | dioRdchs | dioRdout | rlyRdchs | aiSettypes | aiGettypes | aiRdchs | aoGetvals =>
    exact nofun

/-- Settles O40: a command is refused exactly when its plan is, and only two plans can be. -/
theorem refusedExactlyOutsideScalerDomain : Obligations.RefusedExactlyOutsideScalerDomain := by
  intro i s q
  rw [exec_eq_startCommand, startCommand_eq_refused_iff]
  cases i with
  | aoSetch ch v => simp [planOf_aoSetch_eq_refuse_iff]
  | aoSetchs vs => simp [planOf_aoSetchs_eq_refuse_iff]
  | _ => simp [planOf_ne_refuse]

end Sys2Proof.Machine
end

section
/-! AI.RDCHS (R35, R96): how eight reads of one register are served. -/

namespace Sys2Proof.Machine

section Reads

variable {base : ChannelBase} {tag : Byte} {s : State}

theorem inputEvents_append (vs : List Half) (v : Half) :
    inputEvents base tag (vs ++ [v]) =
      inputEvents base tag vs ++ [.call (.readInputs (addressAt base vs.length) 1 tag), .answer (.words [v])] := by
  simp [inputEvents, List.zipIdx_append]

/-- The calls of AI.RDCHS, channel 0 first. -/
def inputReads (base : ChannelBase) (tag : Byte) : List Call :=
  (List.range 8).map fun k => .readInputs (addressAt base k) 1 tag

theorem planOf_aiRdchs (s : State) :
    planOf .aiRdchs s = .calls (inputReads s.built.ai.inputChannelsBase s.tag) .values := by
  simp only [planOf, planAiRdchs, inputReads, memRead, mapAddr_addr]

theorem inputReads_drop {k : Nat} (hk : k < 8) :
    (inputReads base tag).drop k = .readInputs (addressAt base k) 1 tag :: (inputReads base tag).drop (k + 1) := by
  have hlength : k < (inputReads base tag).length := by simpa [inputReads] using hk
  rw [List.drop_eq_getElem_cons hlength]
  simp [inputReads]

/-- The state in which some channels are read: their calls and answers are recorded, the answers `rest` are still to
come. -/
def State.afterReads (s : State) (base : ChannelBase) (vs : List Half) (rest : List Answer) : State :=
  { s with ansIn := rest, trace := s.trace ++ inputEvents base s.tag vs }

/-- One more read issued and answered. -/
theorem receive_afterReads {d : Decoded} {k : Nat} {u : Values} (vs : List Half) (v : Half) (rest : List Answer) :
    receive (.words [v]) rest (withOutstanding d false (.readInputs (addressAt base vs.length) 1 s.tag) k u
        (s.afterReads base vs (.words [v] :: rest))) =
      { s.afterReads base (vs ++ [v]) rest with seq := some ⟨d, k, u, true, false⟩ } := by
  simp [State.afterReads, receive, withOutstanding, issue, inputEvents_append]

/-- The reads are served channel by channel: with one word for each of the first channels, serving comes to the channel
after them, with the words read. -/
theorem serve_reads_done {d : Decoded} (vs : List Half) : ∀ rest : List Answer, vs.length ≤ 8 →
    s.ansIn = vs.map (fun v => .words [v]) ++ rest →
    serve d .values false (inputReads base s.tag) 0 noValues s =
      serve d .values false ((inputReads base s.tag).drop vs.length) vs.length ⟨[], vs⟩
        (s.afterReads base vs rest) := by
  induction vs using List.reverseRecOn with
  | nil =>
    intro rest _ hans
    have hsame : s.afterReads base [] rest = s := by
      simp [State.afterReads, inputEvents, ← show s.ansIn = rest from hans]
    rw [hsame]
    rfl
  | append_singleton vs v ih =>
    intro rest hlength hans
    rw [List.length_append, List.length_singleton] at hlength ⊢
    rw [ih (.words [v] :: rest) (by omega) (by simpa using hans), inputReads_drop (by omega),
      serve_goes_on (w := ⟨[], [v]⟩) rfl rfl, receive_afterReads]
    exact serve_with_seq ..

/-- After fewer than eight words the next channel is read. -/
theorem exec_aiRdchs_reaches (hbase : base = s.built.ai.inputChannelsBase) {vs : List Half} (hlength : vs.length < 8)
    {rest : List Answer} (hans : s.ansIn = vs.map (fun v => .words [v]) ++ rest) :
    exec .aiRdchs s = .next (serve (.legal .aiRdchs) .values false
      (.readInputs (addressAt base vs.length) 1 s.tag :: (inputReads base s.tag).drop (vs.length + 1))
      vs.length ⟨[], vs⟩ (s.afterReads base vs rest)) := by
  rw [exec_of_calls (planOf_aiRdchs s), ← hbase, serve_reads_done vs rest hlength.le hans, inputReads_drop hlength]

end Reads

/-- Settles O55: with eight words the calls are used up; with fewer the next one is failed or waited for. -/
theorem aiRdchsReadsOneByOne : Obligations.AiRdchsReadsOneByOne := by
  intro s base hbase
  refine ⟨fun r rest hans => ?_, fun vs a rest hlength ha hans => ?_, fun vs hlength hans => ?_⟩
  · rw [exec_of_calls (planOf_aiRdchs s), ← hbase, serve_reads_done r.toList rest (toList_length r).le hans]
    rfl
  · have hfails : accept (.readInputs (addressAt base vs.length) 1 s.tag) a = none :=
      acceptWords_eq_none (ne_words_of_length_one ha)
    rw [exec_aiRdchs_reaches hbase hlength hans, serve_fails rfl hfails]
    simp [raise, respond, receive, withOutstanding, issue, State.afterReads]
  · rw [exec_aiRdchs_reaches hbase hlength (hans.trans (List.append_nil _).symm), serve_waits rfl]
    rfl

end Sys2Proof.Machine
end

section
/-! The other common commands: CONNECT, SETTAG, SETADDR, RDVER (R74 to R76, R78). -/

namespace Sys2Proof.Machine

section CommonPlans

variable {s : State}

theorem planOf_settag_legal {tag : Half} (h : deviceAddressOk tag.toNat = true) :
    planOf (.settag tag) s = .setTag (tag.extractLsb' 0 8) := if_pos h

theorem planOf_settag_illegal {tag : Half} (h : ¬ deviceAddressOk tag.toNat = true) :
    planOf (.settag tag) s = .raise .invalidDeviceAddress := if_neg h

theorem planOf_setaddr_legal {address : Half} (h : address.toNat ≤ 255) :
    planOf (.setaddr address) s =
      oneCall (.writeHolding (deviceAddressBase s.built) (BitVec.ofNat 32 address.toNat) s.tag) .none := by
  rw [planOf, planSetaddr, if_pos h, mapAddr_zero, memWriteHolding, BitVec.ofNat_toNat]

theorem planOf_setaddr_illegal {address : Half} (h : 255 < address.toNat) :
    planOf (.setaddr address) s = .raise .invalidDeviceAddress := if_neg (Nat.not_le.mpr h)

theorem planOf_rdver (s : State) :
    planOf .rdver s = oneCall (.readHoldings (softwareVersionBase s.built) 1 s.tag) .register := by
  rw [planOf, planRdver, mapAddr_zero, memRead]

/-- A command that writes TAG makes no call and is OK (R75). -/
theorem exec_of_setTag {i : Instr} {b : Byte} (hplan : planOf i s = .setTag b) :
    exec i s = .next (respond .ok 0 .none { s with tag := b }) := by
  rw [exec_eq_startCommand, hplan, startCommand_setTag]

theorem lowByte_eq_ofNat_toNat (h : Half) : h.extractLsb' 0 8 = BitVec.ofNat 8 h.toNat := by
  rw [BitVec.extractLsb', Nat.shiftRight_zero]

end CommonPlans

/-- Settles O42: CONNECT's plan is the one call, without a result. -/
theorem connectMakesOneConnect : Obligations.ConnectMakesOneConnect :=
  fun _ => exec_oneCall_done rfl fun _ => rfl

/-- Settles O43: the operand check decides between writing its low byte and an error without a call. -/
theorem settagWritesTag : Obligations.SettagWritesTag := by
  refine fun tag s => ⟨fun hlow hhigh => ?_, fun houtside => ?_⟩
  · have hok : deviceAddressOk tag.toNat = true := deviceAddressOk_iff.mpr ⟨hlow, hhigh⟩
    rw [exec_of_setTag (planOf_settag_legal hok), lowByte_eq_ofNat_toNat]
    rfl
  · have hbad : ¬ deviceAddressOk tag.toNat = true := by
      rw [deviceAddressOk_iff]
      omega
    exact exec_of_raise (planOf_settag_illegal hbad)

/-- Settles O44: an operand that fits a byte is one HOLDING write at the family's base, any other no call. -/
theorem setaddrWritesDeviceRegister : Obligations.SetaddrWritesDeviceRegister := by
  rintro address s base rfl
  exact ⟨fun hfits => exec_oneCall_done (planOf_setaddr_legal hfits) fun _ => rfl,
    fun hlarge => exec_of_raise (planOf_setaddr_illegal hlarge)⟩

/-- Settles O46: one read of one HOLDING register at the family's base. -/
theorem rdverReturnsRawRegister : Obligations.RdverReturnsRawRegister := by
  rintro s c rfl
  obtain ⟨hok, hfailed, hwaits⟩ := exec_oneCall_words (planOf_rdver s) fun _ => rfl
  exact ⟨fun v rest hans => hok [v] rest rfl hans,
    fun a rest hans ha => hfailed a rest hans (ne_words_of_length_one ha), hwaits⟩

end Sys2Proof.Machine
end

section
/-! DIO.SETCH and the three bank reads DIO.RDCHS, DIO.RDOUT, RLY.RDCHS (R79, R83, R84, R88). -/

namespace Sys2Proof.Machine

/-- Settles O47: one coil write of the flag's pattern when the channel check passes. -/
theorem dioSetchWritesOneCoil : Obligations.DioSetchWritesOneCoil := by
  rintro ch on s c rfl
  refine ⟨fun hch => exec_oneCall_done ?_ fun _ => rfl, fun hch => exec_of_raise (withChannel_illegal hch _)⟩
  rw [planOf, planDioSetch, withChannel_legal hch, mapAddr_addr, memWriteCoil, actionOfBool]

/-- The bank of a sequence read is the bank the sequence lists (R63). -/
theorem bankOfBits_toList (b : Bank) : bankOfBits b.toList = b := by
  rw [bankOfBits, packBits_toList, decodeBank_encodeBank]

section BankRead

variable {i : Instr} {s : State} {c : Call}

theorem acceptBits_of_length {n : Nat} {u : List Bool} (h : u.length = n) : acceptBits n (.bits u) = some ⟨u, []⟩ :=
  if_pos h

/-- An answer to a read of eight bits that is no bank is a failed one (R29). -/
theorem acceptBits_eq_none {a : Answer} (ha : ∀ b : Bank, a ≠ .bits b.toList) : acceptBits 8 a = none := by
  cases a with
  | bits u =>
    refine if_neg fun hlength => ?_
    obtain ⟨b, rfl⟩ := exists_toList_of_length hlength
    exact ha b rfl
  | done | words | failure => rfl

/-- What a command of one read of eight bits does: OK with the bank read, a TransportFailure on any other answer, in
flight without one. -/
theorem exec_oneCall_bank (hplan : planOf i s = oneCall c .bank) (hkind : ∀ a, accept c a = acceptBits 8 a) :
    (∀ (b : Bank) rest, s.ansIn = .bits b.toList :: rest →
      exec i s = .next (s.afterCall c (.bits b.toList) rest ⟨.ok, 1, .bank b⟩)) ∧
    (∀ a rest, s.ansIn = a :: rest → (∀ b : Bank, a ≠ .bits b.toList) →
      exec i s = .next (s.afterCall c a rest ⟨.transportFailure, 0, .none⟩)) ∧
    (s.ansIn = [] → exec i s = .next (s.awaiting i c)) := by
  refine ⟨fun b rest hans => ?_,
    fun a _ hans ha => exec_oneCall_failed hplan hans ((hkind a).trans (acceptBits_eq_none ha)),
    exec_oneCall_waits hplan⟩
  have haccept := (hkind _).trans (acceptBits_of_length (toList_length b))
  rw [exec_oneCall_accepted hplan hans haccept, replyPayload, bankOfBits_toList]

end BankRead

/-- Settles O49: each of the three is one read of eight bits at its own base. -/
theorem bankReadsReturnTheBits : Obligations.BankReadsReturnTheBits := by
  rintro s i c (⟨rfl, rfl⟩ | ⟨rfl, rfl⟩ | ⟨rfl, rfl⟩)
  · exact exec_oneCall_bank (by rw [planOf, planDioRdchs, mapAddr_addr, memRead]) fun _ => rfl
  · exact exec_oneCall_bank (by rw [planOf, planDioRdout, mapAddr_addr, memRead]) fun _ => rfl
  · exact exec_oneCall_bank (by rw [planOf, planRlyRdchs, mapAddr_addr, memRead]) fun _ => rfl

end Sys2Proof.Machine
end

section
/-! RLY.SETCH, RLY.OPEN, RLY.CLOSE (R86, R89, R90). -/

namespace Sys2Proof.Machine

/-- The single-coil commands of the relay plan alike: the channel check, then one write of the pattern at the channel's
coil. -/
theorem planOf_relayWrite {ch : Byte} {s : State} {i : Instr} {v : Half}
    (hi : (i = .rlySetch ch false ∧ v = 0x0000) ∨ (i = .rlySetch ch true ∧ v = 0xFF00) ∨
      (i = .rlyOpen ch ∧ v = 0x0000) ∨ (i = .rlyClose ch ∧ v = 0xFF00)) :
    planOf i s = withChannel ch
      (oneCall (.writeCoil (addressAt s.built.rly.outputChannelBase ch.toNat) v s.tag) .none) := by
  rw [← mapAddr_addr]
  rcases hi with ⟨rfl, rfl⟩ | ⟨rfl, rfl⟩ | ⟨rfl, rfl⟩ | ⟨rfl, rfl⟩ <;> rfl

/-- Settles O50: one coil write of On or Off when the channel check passes. -/
theorem relayWritesOneCoil : Obligations.RelayWritesOneCoil := by
  rintro ch s i v c hi rfl
  refine ⟨fun hch => exec_oneCall_done ?_ fun _ => rfl, fun hch => exec_of_raise ?_⟩
  · rw [planOf_relayWrite hi, withChannel_legal hch]
  · rw [planOf_relayWrite hi, withChannel_illegal hch]

end Sys2Proof.Machine
end

section
/-! The type table of the analog inputs: AI.SETTYPE, AI.SETTYPES, AI.GETTYPES (R92 to R94). -/

namespace Sys2Proof.Machine

section TypeTable

variable {s : State}

/-- A channel's type code is written as it stands, without a check (R72, R92). -/
theorem planOf_aiSettype_legal {ch : Byte} (h : ch.toNat ≤ 7) (type : Half) :
    planOf (.aiSettype ch type) s =
      oneCall (.writeHolding (addressAt s.built.ai.channelTypesBase ch.toNat) (BitVec.ofNat 32 type.toNat) s.tag)
        .none := by
  rw [planOf, planAiSettype, withChannel_legal h, mapAddr_addr, memWriteHolding, BitVec.ofNat_toNat]

theorem planOf_aiSettype_illegal {ch : Byte} (h : 7 < ch.toNat) (type : Half) :
    planOf (.aiSettype ch type) s = .raise .invalidChannel := withChannel_illegal h _

theorem planOf_aiSettypes (types : Oct Half) (s : State) :
    planOf (.aiSettypes types) s =
      oneCall (.writeHoldings (addressAt s.built.ai.channelTypesBase 0) types s.tag) .none := by
  rw [planOf, planAiSettypes, mapAddr_addr, memWriteHoldings]

theorem planOf_aiGettypes (s : State) :
    planOf .aiGettypes s = oneCall (.readHoldings (addressAt s.built.ai.channelTypesBase 0) 8 s.tag) .codes := by
  rw [planOf, planAiGettypes, mapAddr_addr, memRead]

/-- The codes returned are the eight words read, channel by channel (R94). -/
theorem replyPayload_codes_toList (num : Num EngValue) (r : Oct Half) :
    replyPayload num .codes ⟨[], r.toList⟩ = .codes r := by
  rw [replyPayload, octOfList_toList]

end TypeTable

/-- Settles O52: the channel check decides between one HOLDING write at the channel's number and no call. -/
theorem aiSettypeWritesOneTypeRegister : Obligations.AiSettypeWritesOneTypeRegister := by
  rintro ch type s c rfl
  exact ⟨fun hch => exec_oneCall_done (planOf_aiSettype_legal hch type) fun _ => rfl,
    fun hch => exec_of_raise (planOf_aiSettype_illegal hch type)⟩

/-- Settles O53: one write and one read of eight HOLDING registers; the words read are the codes returned. -/
theorem aiTypeTableInOneCall : Obligations.AiTypeTableInOneCall := by
  rintro types s cw cr rfl rfl
  obtain ⟨hwritten, hwriteFailed, hwriteWaits⟩ := exec_oneCall_done (planOf_aiSettypes types s) fun _ => rfl
  obtain ⟨hread, hreadFailed, hreadWaits⟩ := exec_oneCall_words (planOf_aiGettypes s) fun _ => rfl
  refine ⟨hwritten, hwriteFailed, hwriteWaits, fun r rest hans => ?_,
    fun a rest hans ha => hreadFailed a rest hans (ne_words_of_length_eight ha), hreadWaits⟩
  rw [hread r.toList rest (toList_length r) hans, replyPayload_codes_toList]

end Sys2Proof.Machine
end

section
/-! Validation errors (R102, R103, R106, R108): only the operand check of a command answers one, before any call, so the
response is all that the command leaves behind. -/

namespace Sys2Proof.Machine

/-- The response is no validation error. -/
def PassesValidation (r : Response) : Prop := isValidationError r.status = false

section NoEffect

variable {f : InFlight} {s t : State} {r : Response}

/-- The end of a command without a call, as an operand error and as a state. -/
theorem raise_eq_afterNoCall (e : Status) (k : Nat) (s : State) : raise e k s = s.afterNoCall ⟨e, k, .none⟩ := rfl

theorem eventsSince_self (s : State) : eventsSince s s = [] := eventsSince_of_append (List.append_nil _).symm

theorem eventsSince_respond (e : Status) (k : Nat) (payload : Payload) (s : State) :
    eventsSince s (respond e k payload s) = [.response ⟨e, k, payload⟩] := eventsSince_of_append rfl

theorem responsesIn_response (r : Response) : responsesIn [.response r] = [r] := rfl

theorem respondsOnly_refl {P : Response → Prop} (s : State) : RespondsOnly P s s :=
  ⟨[], (List.append_nil _).symm, by simp [responsesIn]⟩

/-- A command that has come to its calls answers no validation error, whether its steps are joined or single: its calls
end it OK or with a TransportFailure (R101, R105). -/
theorem passesValidation_serve {d : Decoded} {reply : Reply} (out : Bool) (cs : List Call) (k : Nat) (v : Values)
    (s : State) : RespondsOnly PassesValidation s (serve d reply out cs k v s) :=
  respondsOnly_serve (fun _ _ => rfl) (fun _ => rfl) cs out k v s rfl

theorem passesValidation_serveOnce (f : InFlight) (s : State) (cs : List Call) (reply : Reply) :
    RespondsOnly PassesValidation s (serveOnce f s cs reply) := by
  cases hcall : cs[f.done]? with
  | none =>
    rw [serveOnce_done hcall]
    exact respondsOnly_respond rfl
  | some c =>
    cases hout : f.outstanding with
    | false =>
      rw [serveOnce_issues hcall hout]
      exact respondsOnly_withOutstanding f.cmd false c f.done f.values s
    | true =>
      cases hans : s.ansIn with
      | nil =>
        rw [serveOnce_waits hcall hout hans]
        exact respondsOnly_refl s
      | cons a rest =>
        rw [serveOnce_receives hcall hout hans]
        exact respondsOnly_receive a rest s

/-- A validation error comes from the operand check of the plan alone, and nothing but its response is done (R108). -/
theorem followPlan_validationError {p : Plan} {serving : List Call → Reply → State}
    (hserving : ∀ cs reply, RespondsOnly PassesValidation s (serving cs reply))
    (hnext : followPlan p f s serving = .next t) (hr : r ∈ responsesIn (eventsSince s t))
    (he : isValidationError r.status = true) : t = s.afterNoCall ⟨r.status, f.done, .none⟩ := by
  have hnot : ¬ RespondsOnly PassesValidation s t := fun hpasses =>
    absurd he (Bool.eq_false_iff.mp (of_mem_responsesIn hpasses hr))
  rcases followPlan_next hnext with ⟨_, rfl⟩ | ⟨_, ⟨e, _, rfl⟩ | ⟨b, _, rfl⟩ | ⟨cs, reply, _, rfl⟩⟩
  · exact (hnot (respondsOnly_respond rfl)).elim
  · rw [raise, eventsSince_respond, responsesIn_response, List.mem_singleton] at hr
    rw [hr, raise_eq_afterNoCall]
  · exact (hnot (respondsOnly_respond (s := { s with tag := b }) rfl)).elim
  · exact (hnot (hserving cs reply)).elim

theorem exec_validationError {i : Instr} (hnext : exec i s = .next t) (hr : r ∈ responsesIn (eventsSince s t))
    (he : isValidationError r.status = true) : t = s.afterNoCall ⟨r.status, 0, .none⟩ := by
  rw [exec_eq_startCommand, startCommand, proceed] at hnext
  exact followPlan_validationError (fun _ _ => passesValidation_serve ..) hnext hr he

/-- In single steps and in joined ones alike, what SEQ holds goes on by its plan. -/
theorem step_validationError_of_held (hreset : s.resetIn = none) (hseq : s.seq = some f) (hnext : step s = .next t)
    (hr : r ∈ responsesIn (eventsSince s t)) (he : isValidationError r.status = true) :
    t = s.afterNoCall ⟨r.status, f.done, .none⟩ := by
  rcases step_of_held hreset hseq with hsingle | hjoined
  · exact followPlan_validationError (passesValidation_serveOnce f s) (hsingle.symm.trans hnext) hr he
  · exact followPlan_validationError (fun _ _ => passesValidation_serve ..) (hjoined.symm.trans hnext) hr he

end NoEffect

/-- Settles O39: a legal command by `followPlan_validationError`, in `exec` and from SEQ; illegal words by the equations
of the joined step and of the step that answers them. -/
theorem validationErrorsHaveNoEffect : Obligations.ValidationErrorsHaveNoEffect := by
  refine ⟨fun _ _ _ _ => exec_validationError, fun _ _ _ _ => step_validationError_of_held,
    fun s h payload rest why hgrain hreset hseq hfetch hdecode => ?_, fun s why hreset hseq => ?_⟩
  · rw [step_command_presented hgrain hreset hseq hfetch, runWhole_illegal hdecode, raise_eq_afterNoCall]
  · rw [step_of_illegal_held hreset hseq, raise_eq_afterNoCall]

end Sys2Proof.Machine
end

section
/-! Several instances are apart (R114), and discarding one makes no call (R121). -/

namespace Sys2Proof.Machine

section Apart

variable {e : Stimulus} {y z : System} {k : Nat} {s : State}

/-- An event writes the place of its own instance and no other (R114). -/
theorem instances_of_applyStimulus_other (hnext : applyStimulus e y = .next z) (hk : k ≠ stimulusTarget e) :
    z.instances[k]? = y.instances[k]? := by
  rcases applyStimulus_next hnext with rfl | ⟨s, t, _, _, rfl⟩
  · rfl
  · exact List.getElem?_set_ne hk.symm

theorem applyStimulus_of_stimulate {t : Option State} (hs : y.instances[stimulusTarget e]? = some (some s))
    (ht : stimulate e s = .next t) :
    applyStimulus e y = .next ⟨y.instances.set (stimulusTarget e) t,
      y.line ++ (newCalls s t).map (fun c => (stimulusTarget e, c))⟩ := by
  simp only [applyStimulus, hs, ht]

theorem mayDiscard_iff : mayDiscard s = true ↔ s.seq = none := Option.isNone_iff_eq_none

theorem stimulate_discard_idle (hseq : s.seq = none) : stimulate (.discard k) s = .next none := by
  rw [stimulate, if_pos (mayDiscard_iff.mpr hseq)]

theorem stimulate_discard_in_flight (hseq : s.seq ≠ none) : stimulate (.discard k) s = .next (some s) := by
  rw [stimulate, if_neg (mt mayDiscard_iff.mp hseq)]

/-- An instance that stays as it is has issued no call. -/
theorem newCalls_self (s : State) : newCalls s (some s) = [] := by
  rw [newCalls, eventsSince_self, callsIn]

theorem applyStimulus_discard_idle (hs : y.instances[k]? = some (some s)) (hseq : s.seq = none) :
    applyStimulus (.discard k) y = .next ⟨y.instances.set k none, y.line⟩ := by
  rw [applyStimulus_of_stimulate (e := .discard k) hs (stimulate_discard_idle hseq), newCalls, List.map_nil,
    List.append_nil, stimulusTarget]

theorem applyStimulus_discard_in_flight (hs : y.instances[k]? = some (some s)) (hseq : s.seq ≠ none) :
    applyStimulus (.discard k) y = .next y := by
  obtain ⟨hlt, hget⟩ := List.getElem?_eq_some_iff.mp hs
  rw [applyStimulus_of_stimulate (e := .discard k) hs (stimulate_discard_in_flight hseq), newCalls_self, List.map_nil,
    List.append_nil, stimulusTarget, ← hget, List.set_getElem_self]

end Apart

/-- Settles O60: an event writes its own instance's place alone, and a discarding is one of two equations by SEQ. -/
theorem otherInstancesUntouched : Obligations.OtherInstancesUntouched :=
  ⟨fun _ _ _ _ => instances_of_applyStimulus_other,
    fun _ _ _ hs => ⟨applyStimulus_discard_idle hs, applyStimulus_discard_in_flight hs⟩⟩

end Sys2Proof.Machine
end

section
/-! A pending reset (R117) and its refusal (R118), whatever the grain. -/

namespace Sys2Proof.Machine

section Reset

variable {s : State} {r : ResetRequest}

/-- Exactly the addresses outside 1 to 255 fail the check of R118. -/
theorem deviceAddressOk_eq_false_iff {t : Nat} : deviceAddressOk t = false ↔ t = 0 ∨ 255 < t := by
  rw [← Bool.not_eq_true, deviceAddressOk_iff]
  omega

theorem resetInstance_of_legal (h : deviceAddressOk (initialAddress r.given s.built) = true) :
    resetInstance r s = .next { s with
      tag := BitVec.ofNat 8 (initialAddress r.given s.built), seq := none, resetIn := none,
      trace := s.trace ++ [.reset] } :=
  if_pos h

theorem resetInstance_of_illegal (h : deviceAddressOk (initialAddress r.given s.built) = false) :
    resetInstance r s = .refused .deviceAddressNotLegal :=
  if_neg (Bool.eq_false_iff.mp h)

/-- A pending reset comes before everything else, in single steps and in joined ones alike (R117). -/
theorem step_of_reset (hreset : s.resetIn = some r) : step s = resetInstance r s := by
  cases hgrain : s.grain with
  | event => exact (step_of_event hgrain).trans (nextStep_of_reset hreset)
  | command => exact (step_of_command hgrain).trans (nextStep_of_reset hreset)

end Reset

/-- Settles O28: the step is the reset, which its address check alone decides. -/
theorem resetRestoresTagAndSeq : Obligations.ResetRestoresTagAndSeq := by
  intro s given hreset
  rw [step_of_reset hreset]
  exact ⟨fun hlegal => resetInstance_of_legal (deviceAddressOk_iff.mpr hlegal),
    fun hillegal => resetInstance_of_illegal (deviceAddressOk_eq_false_iff.mpr hillegal)⟩

end Sys2Proof.Machine
end
